-- ==== Sys2Proof/Word.lean ====
section
/-! DEFINITION. The widths of the block's data (spec 00_scope.md R4): names for bit vectors and indices, no arithmetic. -/

namespace Sys2Proof

/-- A byte of the source, of the sink, or of a field (R40). A symbol is a byte (R4: `NSYMBOLS` = 256). -/
abbrev Byte := BitVec 8

/-- The 32-bit data operand `d` and the result register `RES` (R4: `INT_W` = 32; R16, R60). -/
abbrev Word32 := BitVec 32

/-- A command word `CMD[47:0]` (R4: `CMD_W` = 48; R60). -/
abbrev CmdWord := BitVec 48

/-- One frequency counter (R4: `FREQ_W` = 31; R21). -/
abbrev Freq := BitVec 31

/-- A node count (R4: `COUNT_W` = 40; R22). -/
abbrev Count := BitVec 40

/-- An index of the node arena `NODE[0..510]` (R4: `NNODES` = 511, `NODE_W` = 9). DEDUCED: the index 511, which nine
bits could spell and no entry has, is not in the type (log entry 10). -/
abbrev NodeIdx := Fin 511

/-- How many bits of a one-byte stream buffer are in use: 0..8 (R17, R18). -/
abbrev BitCount := Fin 9

end Sys2Proof
end

