-- ==== Sys2Proof/Machine/Types.lean ====
section
/-! DEFINITION. The closed sets of names and the records the state is made of: fault codes, format-error sub-causes,
phases, node records, host actions. -/

namespace Sys2Proof.Machine

/-- The values of the `FAULT` register (R153). The codes 8 to 15 "are never produced" (R153, U18) and have no name here. -/
inductive FaultCode where
  /-- 0: no fault in this session. -/
  | ok
  /-- 1: reserved `op` value. -/
  | illegalCmd
  /-- 2: `w` > 32 in WINT or RINT. -/
  | badOperand
  /-- 3: operation not allowed in the session's present state. -/
  | badPhase
  /-- 4: ENC or DEC after a BUILD of an empty table. -/
  | noTree
  /-- 5: ENC of a symbol with frequency 0. -/
  | absentSymbol
  /-- 6: the source bytes are not a well-formed container, or ran out. -/
  | formatError
  /-- 7: a frequency counter would pass 2^31 - 1. -/
  | countOverflow
deriving DecidableEq, Repr, Inhabited

/-- The sub-causes of FORMAT_ERROR that `FINFO` records (R154). -/
inductive FormatCause where
  /-- 1: a bit was wanted and the source has no byte left. -/
  | truncated
  /-- 2: the header's count field is 0. -/
  | zeroCount
  /-- 3: the header's count field is 257..511. -/
  | countRange
  /-- 4: a frequency field is 0. -/
  | zeroFreq
  /-- 5: a symbol appears in two pairs. -/
  | dupSymbol
  /-- 6: single-leaf tree and the code bit read is 1. -/
  | degenBit
deriving DecidableEq, Repr, Inhabited

/-- The `PHASE` register (R15). -/
inductive Phase where
  /-- 0 = EMPTY: no BUILD has run in this session. -/
  | empty
  /-- 1 = BUILT: BUILD has run; table and tree are read-only until reset. -/
  | built
deriving DecidableEq, Repr, Inhabited

/-- One entry of the node arena (R22). -/
structure Node where
  /-- `V`: this entry is a node of the tree. -/
  v : Bool
  /-- `COUNT`. -/
  count : Count
  /-- `PV`: `PARENT` is valid. -/
  pv : Bool
  /-- `PARENT`: index of the parent node. -/
  parent : NodeIdx
  /-- `C0`: index of child-0 (first popped); internal slots only. -/
  c0 : NodeIdx
  /-- `C1`: index of child-1 (second popped); internal slots only. -/
  c1 : NodeIdx
deriving DecidableEq, Repr, Inhabited

/-- What the host can do to the block (R9, R170, R174). Its reads of `RES`, `FAULT`, `FINFO` and the sink change nothing
and are no action here. -/
inductive HostAction where
  /-- Present the byte source `SRC`, `SLEN` (R174). -/
  | present (bytes : List Byte)
  /-- Issue one command word (R9). -/
  | command (word : CmdWord)
  /-- Apply the hardware reset input (R170). -/
  | reset
deriving DecidableEq, Repr, Inhabited

end Sys2Proof.Machine
end

