-- ==== Sys2Proof/Config.lean ====
section
/-! DEFINITION. What is fixed for the machine (R4) and the values the spec leaves free (R157). -/

namespace Sys2Proof.Config

/-- `NSYMBOLS`: the alphabet is "fixed at 256 symbols (one byte each)" (R1, R4). -/
abbrev nSymbols : Nat := 256

/-- `CNT_W`: width of the header's unique-symbol count field (R4, R65). -/
abbrev cntW : Nat := 9

/-- `BFW_W`: width of the header's bit-width field (R4, R65). -/
abbrev bfwW : Nat := 5

/-- `SYM_W`: width of a symbol field (R4, R65). -/
abbrev symW : Nat := 8

/-- `INT_W`: default and largest width of WINT and RINT (R4, R62, R72). -/
abbrev intW : Nat := 32

/-- The largest value of one frequency counter, 2^31 - 1 (R21, R100). -/
abbrev maxFreq : Nat := 0x7FFFFFFF

/-- First internal slot of the node arena (R22). -/
abbrev firstInternal : Nat := 256

/-- `MAXDEPTH`: the bits the code register `CODE[0..254]` holds (R4, R26). -/
abbrev maxDepth : Nat := 255

/-- Every state element of the block other than `FAULT` and `FINFO`: what R157 lets "hold any value" after a fault
raised inside a body. The host's `SRC` and `SLEN` are not among them: the block never writes them (R10). -/
structure Remains where
  phase : Machine.Phase
  res : Word32
  wbuf : Byte
  wn : BitCount
  rbuf : Byte
  rn : BitCount
  sp : Nat
  snk : List Byte
  freq : Vector Freq 256
  node : Vector Machine.Node 511
  root : NodeIdx
  rootv : Bool
deriving DecidableEq, Repr, Inhabited

/-- FREE VALUES (log entry 5). What the state elements hold after a fault raised inside a body, a fresh draw for every
such fault: R157, "a model must treat every element other than `FAULT` and `FINFO` as holding *any value*". No body:
no proof can see a value of it. -/
opaque afterFault : Nat → Remains

end Sys2Proof.Config
end

