-- ==== Sys2Proof/Syntax.lean ====
section
/-! DEFINITION. The sixteen operations of spec/opcode_table.json with the operand bits each uses (R60, R61, R62). -/

namespace Sys2Proof

/-- One operation, as the command word names it: one constructor per row of spec/opcode_table.json. Operand bits that
an operation does not read are not part of it (R64). -/
inductive Instr where
  /-- WBIT `d[0]` (R80). -/
  | wbit (b : Bool)
  /-- WBYTE `d[7:0]` (R81). -/
  | wbyte (v : Byte)
  /-- WINT `d`, `w` (R82). -/
  | wint (v : Word32) (w : Byte)
  /-- FLUSH (R83). -/
  | flush
  /-- RBIT (R90). -/
  | rbit
  /-- RBYTE (R91). -/
  | rbyte
  /-- RINT `w` (R92). -/
  | rint (w : Byte)
  /-- TALLY `d[7:0]` (R100). -/
  | tally (sym : Byte)
  /-- WHDR (R101). -/
  | whdr
  /-- RHDR (R102). -/
  | rhdr
  /-- BUILD (R110). -/
  | build
  /-- ENC `d[7:0]` (R120). -/
  | enc (sym : Byte)
  /-- DEC (R121). -/
  | dec
  /-- COMPRESS (R130). -/
  | compress
  /-- DECOMPRESS (R131). -/
  | decompress
  /-- SRESET (R140). -/
  | sreset
deriving DecidableEq, Repr, Inhabited

/-- The pseudo-instruction `WINT d` with no width (R72). -/
abbrev Instr.wintDefault (v : Word32) : Instr := .wint v (BitVec.ofNat 8 Config.intW)

/-- The pseudo-instruction `RINT` with no width (R72). -/
abbrev Instr.rintDefault : Instr := .rint (BitVec.ofNat 8 Config.intW)

/-- The pseudo-instruction `PAD` (R72). -/
abbrev Instr.pad : Instr := .flush

end Sys2Proof
end

