-- ==== Sys2Proof/WellFormed.lean ====
section
/-! DEFINITION. Which instructions are well formed: the operand ranges of R62 and R63. -/

namespace Sys2Proof

/-- "RINT and WINT take `w` in the range 0..32" (R62); every operand value of every other operation is legal. An
ill-formed instruction still decodes and runs: its meaning raises BAD_OPERAND (R63, R151). -/
def WellFormed : Instr → Bool
  | .wint _ w => decide (w.toNat ≤ Config.intW)
  | .rint w => decide (w.toNat ≤ Config.intW)
  | .wbit _ | .wbyte _ | .flush | .rbit | .rbyte | .tally _ | .whdr | .rhdr
  | .build | .enc _ | .dec | .compress | .decompress | .sreset => true

end Sys2Proof
end

