-- ==== Sys2Proof/Decode.lean ====
section
/-! DEFINITION. The command word (R60 to R64): its fields, the decoder (total, refusing by name), the encoder, and the
assembler's text (R71). -/

namespace Sys2Proof

/-- The field `op` = `CMD[47:40]` (R60). -/
def opField (c : CmdWord) : Byte := c.extractLsb' 40 8

/-- The field `w` = `CMD[39:32]` (R60). -/
def wField (c : CmdWord) : Byte := c.extractLsb' 32 8

/-- The field `d` = `CMD[31:0]` (R60). -/
def dField (c : CmdWord) : Word32 := c.extractLsb' 0 32

/-- The operand `d[0]` (R62). -/
def dBit (c : CmdWord) : Bool := c.getLsbD 0

/-- The operand `d[7:0]` (R62). -/
def dByte (c : CmdWord) : Byte := c.extractLsb' 0 8

/-- What the decoder answers. -/
inductive Decoded where
  /-- One of the sixteen operations (R61). -/
  | instr (i : Instr)
  /-- A reserved `op` value (R63): the command raises ILLEGAL_CMD. -/
  | reserved (op : Byte)
deriving DecidableEq, Repr

/-- The decoder, total on command words: "a decoder needs only `op`" (R61), and the operand bits are used as they
stand (R62). -/
def decode (c : CmdWord) : Decoded :=
  match (opField c).toNat with
  | 0x01 => .instr (.wbit (dBit c))
  | 0x02 => .instr (.wbyte (dByte c))
  | 0x03 => .instr (.wint (dField c) (wField c))
  | 0x04 => .instr .flush
  | 0x11 => .instr .rbit
  | 0x12 => .instr .rbyte
  | 0x13 => .instr (.rint (wField c))
  | 0x20 => .instr (.tally (dByte c))
  | 0x21 => .instr .whdr
  | 0x22 => .instr .rhdr
  | 0x30 => .instr .build
  | 0x31 => .instr (.enc (dByte c))
  | 0x32 => .instr .dec
  | 0x40 => .instr .compress
  | 0x41 => .instr .decompress
  | 0x50 => .instr .sreset
  | _ => .reserved (opField c)

/-- The `op` code of an operation (R61). -/
def opcode : Instr → Byte
  | .wbit _ => 0x01#8
  | .wbyte _ => 0x02#8
  | .wint _ _ => 0x03#8
  | .flush => 0x04#8
  | .rbit => 0x11#8
  | .rbyte => 0x12#8
  | .rint _ => 0x13#8
  | .tally _ => 0x20#8
  | .whdr => 0x21#8
  | .rhdr => 0x22#8
  | .build => 0x30#8
  | .enc _ => 0x31#8
  | .dec => 0x32#8
  | .compress => 0x40#8
  | .decompress => 0x41#8
  | .sreset => 0x50#8

/-- The `w` field the assembler writes: "Fields a mnemonic does not show are assembled as 0" (R71). -/
def wOperand : Instr → Byte
  | .wint _ w => w
  | .rint w => w
  | .wbit _ | .wbyte _ | .flush | .rbit | .rbyte | .tally _ | .whdr | .rhdr
  | .build | .enc _ | .dec | .compress | .decompress | .sreset => 0#8

/-- The `d` field the assembler writes (R60, R71). -/
def dOperand : Instr → Word32
  | .wbit b => BitVec.zeroExtend 32 (BitVec.ofBool b)
  | .wbyte v => BitVec.zeroExtend 32 v
  | .wint v _ => v
  | .tally x => BitVec.zeroExtend 32 x
  | .enc x => BitVec.zeroExtend 32 x
  | .flush | .rbit | .rbyte | .rint _ | .whdr | .rhdr
  | .build | .dec | .compress | .decompress | .sreset => 0#32

/-- A command word from its three fields, `op` in the high bits (R60). -/
def assemble (op w : Byte) (d : Word32) : CmdWord := (op ++ w) ++ d

/-- The encoder, from the same table (R60, R61, R71). -/
def encode (i : Instr) : CmdWord := assemble (opcode i) (wOperand i) (dOperand i)

/-- The command-word bits an `op` value reads (R60, R64): the `op` field and the operand bits R60 lists for it. -/
def usedBits (op : Byte) : CmdWord :=
  match op.toNat with
  | 0x01 => 0xFF0000000001#48
  | 0x02 => 0xFF00000000FF#48
  | 0x03 => 0xFFFFFFFFFFFF#48
  | 0x13 => 0xFFFF00000000#48
  | 0x20 => 0xFF00000000FF#48
  | 0x31 => 0xFF00000000FF#48
  | _ => 0xFF0000000000#48

/-- The instruction the decoder reads from the command word whose bits are `w`, numbered as spec/opcode_table.json
numbers them. One operation is one 48-bit word (R60), so the table's row is the whole word; the bits from `nbits` up
are 0. -/
def decodeTableWord (nbits w : Nat) : Option Instr :=
  match decode (BitVec.ofNat 48 (w % 2 ^ nbits)) with
  | .instr i => some i
  | .reserved _ => none

/-- One line of assembler text (R71), numbers in decimal. -/
def asmLine : Instr → String
  | .wbit b => "WBIT " ++ (if b then "1" else "0")
  | .wbyte v => "WBYTE " ++ toString v.toNat
  | .wint v w => "WINT " ++ toString v.toNat ++ ", " ++ toString w.toNat
  | .flush => "FLUSH"
  | .rbit => "RBIT"
  | .rbyte => "RBYTE"
  | .rint w => "RINT " ++ toString w.toNat
  | .tally x => "TALLY " ++ toString x.toNat
  | .whdr => "WHDR"
  | .rhdr => "RHDR"
  | .build => "BUILD"
  | .enc x => "ENC " ++ toString x.toNat
  | .dec => "DEC"
  | .compress => "COMPRESS"
  | .decompress => "DECOMPRESS"
  | .sreset => "SRESET"

end Sys2Proof
end

