-- ==== Sys2Proof/Machine/State.lean ====
section
/-! DEFINITION. The state of one instance of the block (R10), why a step can stop, and the state after reset (R27). -/

namespace Sys2Proof.Machine

/-- Why the MODEL stops. A fault of the block (R150) is no stop: it is a next state with `FAULT` and `FINFO` written.
Both stops below are unreachable while the host keeps R176 (`Safety.Inv`). -/
inductive Fault where
  /-- Raised by a reader refill at `SP` > `SLEN`: "A read of `SRC[i]` with i >= `SLEN` does not exist" (R41), and R90
  gives TRUNCATED at `SP` = `SLEN` only. Safe: the machine stops instead of inventing a byte (log entry 8). -/
  | noSuchSourceByte
  /-- Raised by ENC when the leaf-to-root walk wants `CODE[255]`: the code register is `CODE[0..254]` (R26). It happens
  only when the parent links do not form a tree, so BUILD did not write them. Safe: the machine stops (log entry 9). -/
  | noSuchCodeBit
deriving DecidableEq, Repr

/-- Why the model refuses. -/
inductive Refusal where
  /-- Raised by the dispatch for an instruction without a meaning; no instruction is left so. Safe. -/
  | notModelled (mnemonic : String)
deriving DecidableEq, Repr

/-- A byte space of the block: a sequence of bytes whose indices start at 0 (R40, R49). -/
abbrev Memory := List Byte

/-- The state of the block (R10), and the two fields of the model's own at the end. -/
structure State where
  /-- `FAULT` (R14). -/
  fault : FaultCode
  /-- `FINFO` (R14). -/
  finfo : Byte
  /-- `PHASE` (R15). -/
  phase : Phase
  /-- `RES` (R16). -/
  res : Word32
  /-- `WBUF` (R17). -/
  wbuf : Byte
  /-- `WN` (R17). -/
  wn : BitCount
  /-- `RBUF` (R18). -/
  rbuf : Byte
  /-- `RN` (R18). -/
  rn : BitCount
  /-- `SP` (R19). -/
  sp : Nat
  /-- `SNK[0..OLEN-1]` (R20); `OLEN` is its length. -/
  snk : Memory
  /-- `FREQ[0..255]` (R21). -/
  freq : Vector Freq 256
  /-- `NODE[0..510]` (R22). -/
  node : Vector Node 511
  /-- `ROOT` (R23). -/
  root : NodeIdx
  /-- `ROOTV` (R23). -/
  rootv : Bool
  /-- `SRC[0..SLEN-1]` (R19, R41), the host's; `SLEN` is its length. -/
  src : Memory
  /-- The model's own: the host's coming actions, the next first (R9, R10; log entry 1). -/
  pending : List HostAction
  /-- The model's own: how many draws of the free values of R157 have been made (log entry 5). -/
  freeTick : Nat
deriving DecidableEq, Repr

/-- `OLEN` (R20). -/
abbrev State.olen (s : State) : Nat := s.snk.length

/-- `SLEN` (R19). -/
abbrev State.slen (s : State) : Nat := s.src.length

/-- An arena entry at reset: `V` = 0 and `PV` = 0 (R27); "the other fields are then meaningless and a model may hold
them at 0" (R22; DESIGN CHOICE, log entry 7). -/
def Node.unused : Node := { v := false, count := 0#40, pv := false, parent := 0, c0 := 0, c1 := 0 }

/-- The machine right after reset (R27, R171), with no source presented yet and nothing pending (DESIGN CHOICE, log
entries 1, 3 and 5: the spec gives no value for these). -/
def State.reset : State where
  fault := .ok
  finfo := 0#8
  phase := .empty
  res := 0#32
  wbuf := 0#8
  wn := 0
  rbuf := 0#8
  rn := 8
  sp := 0
  snk := []
  freq := Vector.replicate 256 0#31
  node := Vector.replicate 511 Node.unused
  root := 0
  rootv := false
  src := []
  pending := []
  freeTick := 0

end Sys2Proof.Machine
end

