-- ==== Sys2Proof/Machine/Operands.lean ====
section
/-! DEFINITION. Operand forms and helper functions: the two bit orders (R46), fields as bit sequences (R66), the helper
functions of R7, the header as a bit sequence (R65, R67). A bit sequence is a list of Bool, first bit first (R5). -/

namespace Sys2Proof.Machine

/-- The low `w` bits of `v`, least significant first: how a multi-bit field enters the stream (R46 (2), R66). -/
def lsbFirst (w v : Nat) : List Bool := (List.range w).map v.testBit

/-- The number whose bits, least significant first, are the given ones: how a field is read back (R66, R91, R92). -/
def lsbValue : List Bool → Nat
  | [] => 0
  | b :: bs => b.toNat + 2 * lsbValue bs

/-- Bit number `k` of a stream byte: "bit number j of the stream lives in byte j div 8 at bit position 7 - (j mod 8)"
(R46 (1)). -/
def streamBit (b : Byte) (k : Nat) : Bool := b.getMsbD k

/-- A stream byte with bit number `k` (position `7 - k`) set to `x` (R46 (1), R80). -/
def putStreamBit (b : Byte) (k : Nat) (x : Bool) : Byte :=
  if x then b ||| (0x80#8 >>> k) else b &&& ~~~(0x80#8 >>> k)

/-- The bits of one stream byte in stream order (R46 (1)). -/
def byteBits (b : Byte) : List Bool := (List.range 8).map (streamBit b)

/-- A byte sequence as a bit sequence (R46 (1), R93). -/
def streamBits (m : Memory) : List Bool := m.flatMap byteBits

/-- The bits the writer has written in this session, those still in `WBUF` included (R17, R84). -/
def writtenBits (s : State) : List Bool := streamBits s.snk ++ (byteBits s.wbuf).take s.wn.val

/-- The reader's position: the number of source bits consumed so far, `8 * SP - (8 - RN)` (R12). -/
def readerPos (s : State) : Nat := 8 * s.sp - (8 - s.rn.val)

/-- The writer's position in the sink, `8 * OLEN + WN` (R12). -/
def writerPos (s : State) : Nat := 8 * s.olen + s.wn.val

/-- The source bits the reader has not delivered yet (R93). -/
def bitsAhead (s : State) : List Bool := (streamBits s.src).drop (readerPos s)

/-- `bitlen(x)`: 0 if x = 0, else floor(log2(x)) + 1 (R7). -/
def bitlen (x : Nat) : Nat := if x = 0 then 0 else Nat.log2 x + 1

/-- All symbols, 0 to 255, ascending. -/
def symbols : List Byte := (List.range Config.nSymbols).map (BitVec.ofNat 8)

/-- `FREQ[s]` of a table (R21). -/
def freqOf (freq : Vector Freq 256) (x : Byte) : Freq := freq[x.toNat]'x.isLt

/-- The symbols with a nonzero frequency, ascending (R67, R101, R110). -/
def presentSymbols (freq : Vector Freq 256) : List Byte := symbols.filter fun x => freqOf freq x != 0#31

/-- `nsym(FREQ)` (R7). -/
def nsym (freq : Vector Freq 256) : Nat := (presentSymbols freq).length

/-- `total(FREQ)` (R7). -/
def total (freq : Vector Freq 256) : Nat := (freq.toList.map BitVec.toNat).sum

/-- `maxf(FREQ)` (R7). -/
def maxf (freq : Vector Freq 256) : Nat := (freq.toList.map BitVec.toNat).foldl max 0

/-- The bits of one (symbol, frequency) pair of a header with frequency width `bf` (R65, R66). -/
def pairBits (bf : Nat) (x : Byte) (f : Freq) : List Bool :=
  lsbFirst Config.symW x.toNat ++ lsbFirst bf f.toNat

/-- The container header of a frequency table as a bit sequence (R65, R66, R67): count, width, then the pairs in
ascending symbol order; nothing for an empty table (R101 corner case 1). -/
def headerBits (freq : Vector Freq 256) : List Bool :=
  if nsym freq = 0 then [] else
    let bf := bitlen (maxf freq)
    lsbFirst Config.cntW (nsym freq) ++ lsbFirst Config.bfwW bf ++
      (presentSymbols freq).flatMap fun x => pairBits bf x (freqOf freq x)

/-- The leaf slot of a symbol: its index is the symbol (R22). -/
def leafSlot (x : Byte) : NodeIdx := ⟨x.toNat, Nat.lt_trans x.isLt (by decide)⟩

/-- "A node is a leaf exactly when its index is below 256" (R22). -/
def isLeaf (i : NodeIdx) : Bool := decide (i.val < Config.firstInternal)

/-- The symbol of a leaf slot (R22, R121). -/
def symbolOf (i : NodeIdx) : Byte := BitVec.ofNat 8 i.val

/-- `leaf(s)`: the slot of symbol `s` when it is a node of the tree, else absent (R24). -/
def leafOf (node : Vector Node 511) (x : Byte) : Option NodeIdx :=
  if node[(leafSlot x).val].v then some (leafSlot x) else none

/-- `prio(i)` is smaller than `prio(j)`: the pair (COUNT, index), lexicographic, both unsigned; smaller is higher
priority (R7, R111). -/
def before (node : Vector Node 511) (i j : NodeIdx) : Bool :=
  decide (node[i.val].count.toNat < node[j.val].count.toNat) ||
    (node[i.val].count == node[j.val].count && decide (i.val < j.val))

/-- The child of a node for one branch label: `C1` for 1, `C0` for 0 (R112, R121). -/
def child (node : Vector Node 511) (i : NodeIdx) (b : Bool) : NodeIdx :=
  if b then node[i.val].c1 else node[i.val].c0

/-- The branch label of the step from node `p` to its child `c`: 1 if `c` is `C1`, else 0 (R112, R120). -/
def branchLabel (node : Vector Node 511) (p c : NodeIdx) : Bool := node[p.val].c1 == c

/-- The node record as one 69-bit word, `V` ++ `PV` ++ `PARENT` ++ `C0` ++ `C1` ++ `COUNT` (R70: the packing "carries no
meaning", and no operation uses it). -/
def packNode (n : Node) : BitVec 69 :=
  ((((BitVec.ofBool n.v ++ BitVec.ofBool n.pv) ++ BitVec.ofNat 9 n.parent.val) ++ BitVec.ofNat 9 n.c0.val)
    ++ BitVec.ofNat 9 n.c1.val) ++ n.count

end Sys2Proof.Machine
end

