-- ==== Sys2Proof/Machine/Flags.lean ====
section
/-! DEFINITION. The status of the session. The block has no arithmetic flags and no condition codes; its only status
bits are `FAULT` != 0, `PHASE` and `ROOTV` (R13). -/

namespace Sys2Proof.Machine

/-- The 4-bit value of `FAULT` (R14, R153). -/
def faultBits : FaultCode → BitVec 4
  | .ok => 0#4
  | .illegalCmd => 1#4
  | .badOperand => 2#4
  | .badPhase => 3#4
  | .noTree => 4#4
  | .absentSymbol => 5#4
  | .formatError => 6#4
  | .countOverflow => 7#4

/-- The `FINFO` value of a FORMAT_ERROR's sub-cause (R154). -/
def causeInfo : FormatCause → Byte
  | .truncated => 1#8
  | .zeroCount => 2#8
  | .countRange => 3#8
  | .zeroFreq => 4#8
  | .dupSymbol => 5#8
  | .degenBit => 6#8

/-- The 1-bit value of `PHASE` (R15). -/
def phaseBit : Phase → Bool
  | .empty => false
  | .built => true

/-- `FAULT` != 0 (R13, R14). -/
def faulted (s : State) : Bool := s.fault != .ok

/-- Every entry of the table is 0 (R27). -/
def freqClear (freq : Vector Freq 256) : Bool := freq.toList.all fun f => f == 0#31

/-- Every entry of the arena has `V` = 0 and `PV` = 0 (R27). -/
def nodesClear (node : Vector Node 511) : Bool := node.toList.all fun n => !n.v && !n.pv

/-- The predicate Fresh (R172): "every state element of R10 other than `SRC`, `SLEN` and `RES` has its reset value".
DEDUCED: `RBUF`, `ROOT` and `NODE[i].PV`, which R172's own list of values leaves out, are among them (log entry 11). -/
def fresh (s : State) : Bool :=
  s.fault == .ok && s.finfo == 0#8 && s.phase == .empty && s.wbuf == 0#8 && s.wn == 0 && s.rbuf == 0#8
    && s.rn == 8 && s.sp == 0 && s.snk.isEmpty && freqClear s.freq && nodesClear s.node && s.root == 0
    && !s.rootv

end Sys2Proof.Machine
end

