-- ==== Sys2Proof/Machine/Ops.lean ====
section
/-! DEFINITION. The shared operations: how an operation ends (R6, R151, R152, R157), reset (R140, R170), and access to
the source, the sink, the table and the arena (R40). -/

namespace Sys2Proof.Machine

/-! ### How an operation ends -/

/-- Where in an operation a fault is raised (R151, R157). -/
inductive RaisePoint where
  /-- At an entry check, before any state change: a precise fault. -/
  | entry
  /-- Inside the body. -/
  | body
deriving DecidableEq, Repr

/-- How a part of an operation ends: it is done with a value and a state, it raises a fault of the block, or the model
stops. -/
inductive Result (α : Type) where
  | done (a : α) (s : State)
  | raised (at_ : RaisePoint) (code : FaultCode) (info : Byte)
  | stopped (f : Fault)
deriving DecidableEq, Repr

/-- The next lines of the pseudocode; a fault ends the operation: "no later line of its pseudocode runs" (R152). -/
def Result.bind {α β : Type} (r : Result α) (k : α → State → Result β) : Result β :=
  match r with
  | .done a s => k a s
  | .raised p c i => .raised p c i
  | .stopped f => .stopped f

/-- `do OP(args)` (R6): "a fault inside propagates", and it is then a fault inside the body of the operation that said
`do` (R152, R157). -/
def Result.inner {α : Type} (r : Result α) : Result α :=
  match r with
  | .done a s => .done a s
  | .raised _ c i => .raised .body c i
  | .stopped f => .stopped f

/-- `require c else Fault(code, info)`, an entry check (R6, R151). -/
def require {α : Type} (c : Bool) (code : FaultCode) (info : Byte) (k : Result α) : Result α :=
  if c then k else .raised .entry code info

/-- `raise Fault(FORMAT_ERROR, cause)` inside a body (R154, R157). -/
def formatError {α : Type} (cause : FormatCause) : Result α := .raised .body .formatError (causeInfo cause)

/-- `FAULT <- code; FINFO <- info[7:0]` (R152). -/
def setFault (code : FaultCode) (info : Byte) (s : State) : State := { s with fault := code, finfo := info }

/-- What a fault raised inside a body leaves: every element but `FAULT`, `FINFO` and the host's `SRC` holds a free value
(R157; log entry 5). -/
def scatter (s : State) : State :=
  let r := Config.afterFault s.freeTick
  { s with
    phase := r.phase, res := r.res, wbuf := r.wbuf, wn := r.wn, rbuf := r.rbuf, rn := r.rn, sp := r.sp
    snk := r.snk, freq := r.freq, node := r.node, root := r.root, rootv := r.rootv
    freeTick := s.freeTick + 1 }

/-- TAKING A FAULT (R150, R152, R157): the one operation through which every fault of the block is taken. It goes to no
handler and saves nothing: it writes `FAULT` and `FINFO` and the operation is over. -/
def takeFault (p : RaisePoint) (code : FaultCode) (info : Byte) (s : State) : State :=
  match p with
  | .entry => setFault code info s
  | .body => setFault code info (scatter s)

/-- One command in the session `s` (R151 (1), R152): refused without any change while `FAULT` != 0, else the operation
runs and its end becomes the outcome of the step. -/
def command (op : State → Result Unit) (s : State) : Host.Outcome State Fault Refusal :=
  if faulted s then .next s
  else
    match op s with
    | .done _ t => .next t
    | .raised p c i => .next (takeFault p c i s)
    | .stopped f => .fault f

/-- A command word with a reserved `op` (R63 (1), R151 (2)). -/
def illegalCommand (s : State) : Host.Outcome State Fault Refusal :=
  command (fun _ => .raised .entry .illegalCmd 0#8) s

/-! ### Reset -/

/-- Reset, by the SRESET command or by the hardware input alike (R140, R170): every element at its reset value (R27);
`SRC` and `SLEN` are the host's and stay, as do the model's own two fields. There is no other return from a fault
(R158). -/
def newSession (s : State) : State :=
  { State.reset with src := s.src, pending := s.pending, freeTick := s.freeTick }

/-! ### Source and sink -/

/-- `SRC[i]`; none where the byte does not exist (R41). -/
def srcByte (s : State) (i : Nat) : Option Byte := s.src[i]?

/-- `SnkPut(b)` (R6, R42): append one byte; it cannot fail. -/
def snkPut (b : Byte) (s : State) : State := { s with snk := s.snk ++ [b] }

/-- A byte space as (index, byte) cells (R40, R49). -/
def cells (m : Memory) : List Host.Cell := m.zipIdx.map fun p => (p.2, p.1)

/-- The canonical form of a byte space: indices strictly rising from 0 with no gap, so that equal spaces are equal data
(R41, R42; log entry 6). -/
abbrev Memory.wf (m : Memory) : Prop := (cells m).map (·.1) = List.range m.length

/-! ### Table and arena -/

/-- `FREQ[x] <- f` (R21). -/
def setFreq (x : Byte) (f : Freq) (s : State) : State := { s with freq := s.freq.set x.toNat f x.isLt }

/-- `NODE[i]` (R22). -/
def nodeAt (node : Vector Node 511) (i : NodeIdx) : Node := node[i.val]

/-- `NODE[i] <- n` (R22). -/
def setNode (i : NodeIdx) (n : Node) (node : Vector Node 511) : Vector Node 511 := node.set i.val n

end Sys2Proof.Machine
end

