-- ==== Sys2Proof/Machine/BitReader.lean ====
section
/-! DEFINITION. The bit reader: RBIT, RBYTE, RINT (spec 41_bitreader.md). -/

namespace Sys2Proof.Machine

/-- `Refill()` (R90): TRUNCATED at `SP` = `SLEN`. A byte above `SLEN` does not exist (R41): the model stops there (log
entry 8). -/
def refill (s : State) : Result Unit :=
  if s.sp = s.slen then formatError .truncated
  else
    match srcByte s s.sp with
    | some b => .done () { s with rbuf := b, sp := s.sp + 1, rn := 0 }
    | none => .stopped .noSuchSourceByte

/-- `if RN = 8 then Refill()` (R90): the refill is lazy. -/
def refillIfUsed (s : State) : Result Unit := if s.rn = 8 then refill s else .done () s

/-- `b <- RBUF[7 - RN]; RN <- RN + 1; return b` (R90). -/
def takeBit (s : State) : Result Bool := .done (streamBit s.rbuf s.rn.val) { s with rn := s.rn + 1 }

/-- `NextBit()` (R90). -/
def nextBit (s : State) : Result Bool := (refillIfUsed s).bind fun _ t => takeBit t

/-- The next `n` bits, in stream order. -/
def nextBits : Nat → State → Result (List Bool)
  | 0, s => .done [] s
  | n + 1, s => (nextBit s).bind fun b t => (nextBits n t).bind fun bs u => .done (b :: bs) u

/-- `RINT-body(w)` and, with `w` = 8, `RBYTE-body()` (R91, R92, R102): the value of the next `w` bits, least significant
first, without writing `RES`. -/
def readField (w : Nat) (s : State) : Result Nat := (nextBits w s).bind fun bs t => .done (lsbValue bs) t

/-- `RES <- v` (R6, R16). -/
def setRes (v : Word32) (s : State) : Result Unit := .done () { s with res := v }

/-- RBIT as an operation (R90). -/
def rbit (s : State) : Result Unit := (nextBit s).bind fun b t => setRes (BitVec.zeroExtend 32 (BitVec.ofBool b)) t

/-- RBYTE as an operation (R91). -/
def rbyte (s : State) : Result Unit := (readField 8 s).bind fun v t => setRes (BitVec.ofNat 32 v) t

/-- RINT as an operation (R92). -/
def rint (w : Byte) (s : State) : Result Unit :=
  require (decide (w.toNat ≤ Config.intW)) .badOperand 0#8 <|
    (readField w.toNat s).bind fun v t => setRes (BitVec.ofNat 32 v) t

/-- RBIT: read one bit (R90). -/
def execRbit (s : State) : Host.Outcome State Fault Refusal := command rbit s

/-- RBYTE: read eight bits into a byte (R91). -/
def execRbyte (s : State) : Host.Outcome State Fault Refusal := command rbyte s

/-- RINT: read `w` bits into an integer, zero extended (R92). -/
def execRint (w : Byte) (s : State) : Host.Outcome State Fault Refusal := command (rint w) s

end Sys2Proof.Machine
end

