-- ==== Sys2Proof/Machine/BitWriter.lean ====
section
/-! DEFINITION. The bit writer: WBIT, WBYTE, WINT, FLUSH (spec 40_bitwriter.md). -/

namespace Sys2Proof.Machine

/-- `EmitByte()` (R80). -/
def emitByte (s : State) : State := { snkPut s.wbuf s with wbuf := 0#8, wn := 0 }

/-- `if WN = 8 then EmitByte()` (R80). -/
def emitIfFull (s : State) : State := if s.wn = 8 then emitByte s else s

/-- `WBUF[7 - WN] <- b; WN <- WN + 1` (R80). -/
def placeBit (b : Bool) (s : State) : State :=
  { s with wbuf := putStreamBit s.wbuf s.wn.val b, wn := s.wn + 1 }

/-- The body of WBIT (R80): the check before the write, the write, the check after it. -/
def writeBit (b : Bool) (s : State) : State := emitIfFull (placeBit b (emitIfFull s))

/-- `do WBIT(b)` for each bit of a sequence in order. -/
def writeBits (bs : List Bool) (s : State) : State := bs.foldl (fun t b => writeBit b t) s

/-- The body of WBYTE (R81). -/
def writeByte (v : Byte) (s : State) : State := writeBits (lsbFirst 8 v.toNat) s

/-- The loop of WINT (R82). -/
def writeInt (v : Word32) (w : Nat) (s : State) : State := writeBits (lsbFirst w v.toNat) s

/-- The body of FLUSH (R83). -/
def flushWriter (s : State) : State := if s.wn.val > 0 then emitByte s else s

/-- WBIT as an operation (R80). -/
def wbit (b : Bool) (s : State) : Result Unit := .done () (writeBit b s)

/-- WBYTE as an operation (R81). -/
def wbyte (v : Byte) (s : State) : Result Unit := .done () (writeByte v s)

/-- WINT as an operation (R82). -/
def wint (v : Word32) (w : Byte) (s : State) : Result Unit :=
  require (decide (w.toNat ≤ Config.intW)) .badOperand 0#8 <| .done () (writeInt v w.toNat s)

/-- FLUSH as an operation (R83). -/
def flush (s : State) : Result Unit := .done () (flushWriter s)

/-- WBIT: write one bit (R80). -/
def execWbit (b : Bool) (s : State) : Host.Outcome State Fault Refusal := command (wbit b) s

/-- WBYTE: write eight bits, least significant first (R81). -/
def execWbyte (v : Byte) (s : State) : Host.Outcome State Fault Refusal := command (wbyte v) s

/-- WINT: write `w` bits of an integer, least significant first (R82). -/
def execWint (v : Word32) (w : Byte) (s : State) : Host.Outcome State Fault Refusal := command (wint v w) s

/-- FLUSH: emit the partial byte, zero padded (R83). -/
def execFlush (s : State) : Host.Outcome State Fault Refusal := command flush s

end Sys2Proof.Machine
end

