-- ==== Sys2Proof/Machine/FreqTable.lean ====
section
/-! DEFINITION. Frequency table and header serializer: TALLY, WHDR, RHDR (spec 42_freqtable_header.md). -/

namespace Sys2Proof.Machine

/-- TALLY as an operation (R100): "the counter does not wrap and does not saturate silently". -/
def tally (x : Byte) (s : State) : Result Unit :=
  require (s.phase == .empty) .badPhase 0#8 <|
    require (decide ((freqOf s.freq x).toNat < Config.maxFreq)) .countOverflow x <|
      .done () (setFreq x (freqOf s.freq x + 1#31) s)

/-- One pair of the header: `do WBYTE(s); do WINT(FREQ[s], bf)` (R101). -/
def writePair (bf : Nat) (x : Byte) (s : State) : State :=
  writeInt (BitVec.zeroExtend 32 (freqOf s.freq x)) bf (writeByte x s)

/-- `for s = 0 to 255: if FREQ[s] > 0 then ...` (R101), over the symbols that are present. -/
def writePairs (bf : Nat) (xs : List Byte) (s : State) : State := xs.foldl (fun t x => writePair bf x t) s

/-- The body of WHDR after its `require` (R101). -/
def writeHeader (s : State) : State :=
  if nsym s.freq = 0 then s
  else
    let bf := bitlen (maxf s.freq)
    writePairs bf (presentSymbols s.freq)
      (writeInt (BitVec.ofNat 32 bf) Config.bfwW (writeInt (BitVec.ofNat 32 (nsym s.freq)) Config.cntW s))

/-- WHDR as an operation (R101). -/
def whdr (s : State) : Result Unit :=
  require (s.phase == .built) .badPhase 0#8 <| .done () (writeHeader s)

/-- One pair read back: zero frequency and repeated symbol are format errors (R102). -/
def readPair (bf : Nat) (s : State) : Result Unit :=
  (readField Config.symW s).bind fun x t =>
    (readField bf t).bind fun f u =>
      if f = 0 then formatError .zeroFreq
      else if freqOf u.freq (BitVec.ofNat 8 x) ≠ 0#31 then formatError .dupSymbol
      else .done () (setFreq (BitVec.ofNat 8 x) (BitVec.ofNat 31 f) u)

/-- `repeat n times` (R102). -/
def readPairs (bf : Nat) : Nat → State → Result Unit
  | 0, s => .done () s
  | n + 1, s => (readPair bf s).bind fun _ t => readPairs bf n t

/-- The body of RHDR after its `require` lines (R102): the count is checked before the width is read. -/
def readHeader (s : State) : Result Unit :=
  (readField Config.cntW s).bind fun n t =>
    if n = 0 then formatError .zeroCount
    else if n > Config.nSymbols then formatError .countRange
    else (readField Config.bfwW t).bind fun bf u => readPairs bf n u

/-- RHDR as an operation (R102). -/
def rhdr (s : State) : Result Unit :=
  require (s.phase == .empty) .badPhase 0#8 <|
    require (total s.freq == 0) .badPhase 1#8 <| readHeader s

/-- TALLY: count one occurrence of a symbol (R100). -/
def execTally (x : Byte) (s : State) : Host.Outcome State Fault Refusal := command (tally x) s

/-- WHDR: write the container header (R101). -/
def execWhdr (s : State) : Host.Outcome State Fault Refusal := command whdr s

/-- RHDR: read a container header into the frequency table (R102). -/
def execRhdr (s : State) : Host.Outcome State Fault Refusal := command rhdr s

end Sys2Proof.Machine
end

