-- ==== Sys2Proof/Machine/Traverse.lean ====
section
/-! DEFINITION. The tree traversal state machine: ENC, DEC (spec 44_encode_decode.md). -/

namespace Sys2Proof.Machine

/-- ENC's leaf-to-root walk (R120). The bits recorded so far stand in `acc`, the last recorded first, which is the
root-to-leaf order in which they are emitted. The first argument is the room left in the code register `CODE[0..254]`
(R26): a walk that wants a further bit does not come from a tree, and the model stops (log entry 9). -/
def climb (node : Vector Node 511) : Nat → NodeIdx → List Bool → Option (List Bool)
  | room, cur, acc =>
    if (nodeAt node cur).pv then
      match room with
      | 0 => none
      | n + 1 =>
        let p := (nodeAt node cur).parent
        climb node n p (branchLabel node p cur :: acc)
    else some acc

/-- The code of a symbol, root to leaf (R69, R120): the single bit 0 when the leaf is the root. -/
def codeOf (node : Vector Node 511) (root : NodeIdx) (x : Byte) : Option (List Bool) :=
  if root = leafSlot x then some [false] else climb node Config.maxDepth (leafSlot x) []

/-- ENC as an operation (R120). -/
def enc (x : Byte) (s : State) : Result Unit :=
  require (s.phase == .built) .badPhase 0#8 <|
    require s.rootv .noTree 0#8 <|
      require (nodeAt s.node (leafSlot x)).v .absentSymbol x <|
        match codeOf s.node s.root x with
        | some bs => .done () (writeBits bs s)
        | none => .stopped .noSuchCodeBit

/-- The number of source bits the reader can still deliver. -/
def bitsLeft (s : State) : Nat := 8 * (s.slen - s.sp) + (8 - s.rn.val)

/-- DEC's root-to-leaf walk (R121): `while CUR >= 256`, one bit a step. The first argument bounds the loop by the bits
the reader has left; when it is used up the next request faults (R90), so the last line's stop is never reached
(`Laws.nextBit_none_left`). -/
def descend : Nat → NodeIdx → State → Result NodeIdx
  | n, cur, s =>
    if isLeaf cur then .done cur s
    else
      match n with
      | 0 => (nextBit s).bind fun _ _ => .stopped .noSuchSourceByte
      | n + 1 => (nextBit s).bind fun b t => descend n (child t.node cur b) t

/-- The body of DEC after its `require` lines (R121): in the degenerate tree one bit is consumed and must be 0. -/
def decodeSymbol (s : State) : Result NodeIdx :=
  if isLeaf s.root then
    (nextBit s).bind fun b t => if b then formatError .degenBit else .done t.root t
  else descend (bitsLeft s) s.root s

/-- DEC as an operation (R121). -/
def dec (s : State) : Result Unit :=
  require (s.phase == .built) .badPhase 0#8 <|
    require s.rootv .noTree 0#8 <|
      (decodeSymbol s).bind fun i t => setRes (BitVec.ofNat 32 i.val) t

/-- ENC: write the code of one symbol (R120). -/
def execEnc (x : Byte) (s : State) : Host.Outcome State Fault Refusal := command (enc x) s

/-- DEC: read one code and return its symbol (R121). -/
def execDec (s : State) : Host.Outcome State Fault Refusal := command dec s

end Sys2Proof.Machine
end

