-- ==== Sys2Proof/Machine/TreeBuild.lean ====
section
/-! DEFINITION. Tree construction: BUILD, the priority-queue merge network (spec 43_tree_build.md). The priority
structure `Q` is a list of node indices; only the order of pops can be seen, and `prio` is a strict total order (R26,
R111). -/

namespace Sys2Proof.Machine

/-- The member with the smallest `prio` of `x` and `ys` (R110, R111). -/
def minOf (node : Vector Node 511) (x : NodeIdx) : List NodeIdx → NodeIdx
  | [] => x
  | y :: ys => minOf node (if before node y x then y else x) ys

/-- One pop: "the member of Q with the smallest prio; Q <- Q - {a}" (R110). -/
def pop (node : Vector Node 511) : List NodeIdx → Option (NodeIdx × List NodeIdx)
  | [] => none
  | x :: xs => let a := minOf node x xs; some (a, (x :: xs).erase a)

/-- The leaf of one symbol: `NODE[s] <- { V = 1, COUNT = zext_40(FREQ[s]), PV = 0 }` (R110). The fields the rule does not
list keep what they held (log entry 7). -/
def putLeaf (freq : Vector Freq 256) (node : Vector Node 511) (x : Byte) : Vector Node 511 :=
  setNode (leafSlot x)
    { nodeAt node (leafSlot x) with v := true, count := BitVec.zeroExtend 40 (freqOf freq x), pv := false } node

/-- The leaves of the present symbols, ascending (R110). -/
def putLeaves (freq : Vector Freq 256) (node : Vector Node 511) : Vector Node 511 :=
  (presentSymbols freq).foldl (putLeaf freq) node

/-- `NODE[i].PV <- 1; NODE[i].PARENT <- m` (R110). -/
def linkParent (m i : NodeIdx) (node : Vector Node 511) : Vector Node 511 :=
  setNode i { nodeAt node i with pv := true, parent := m } node

/-- The internal node `m` of one merge, first popped `a`, second popped `b`, and both parent links (R110, R112). -/
def mergeNode (m a b : NodeIdx) (node : Vector Node 511) : Vector Node 511 :=
  let n : Node :=
    { nodeAt node m with
      v := true, count := (nodeAt node a).count + (nodeAt node b).count, pv := false, c0 := a, c1 := b }
  linkParent m b (linkParent m a (setNode m n node))

/-- The `k`-th internal slot, 256 + k (R22, R110). -/
def internalSlot (k : Nat) : NodeIdx := Fin.ofNat 511 (Config.firstInternal + k)

/-- `while |Q| > 1` and the choice of the root (R110). The first argument bounds the loop: each merge takes two members
out of `Q` and puts one in, so `|Q|` rounds end it. -/
def mergeLoop : Nat → Nat → List NodeIdx → Vector Node 511 → Option NodeIdx × Vector Node 511
  | 0, _, _, node => (none, node)
  | n + 1, k, q, node =>
    match pop node q with
    | none => (none, node)
    | some (a, q1) =>
      match pop node q1 with
      | none => (some a, node)
      | some (b, q2) =>
        let m := internalSlot k
        mergeLoop n (k + 1) (m :: q2) (mergeNode m a b node)

/-- The whole merge network: the leaves into `Q`, the merges, the root (R110). -/
def buildTree (freq : Vector Freq 256) (node : Vector Node 511) : Option NodeIdx × Vector Node 511 :=
  let q := (presentSymbols freq).map leafSlot
  mergeLoop q.length 0 q (putLeaves freq node)

/-- The body of BUILD after its `require` (R110): an empty table leaves `ROOT` as it was and clears `ROOTV` (R113). -/
def buildBody (s : State) : State :=
  match buildTree s.freq s.node with
  | (some r, node) => { s with node := node, root := r, rootv := true, phase := .built }
  | (none, node) => { s with node := node, rootv := false, phase := .built }

/-- BUILD as an operation (R110). -/
def build (s : State) : Result Unit :=
  require (s.phase == .empty) .badPhase 0#8 <| .done () (buildBody s)

/-- BUILD: build the tree from the frequency table (R110). -/
def execBuild (s : State) : Host.Outcome State Fault Refusal := command build s

end Sys2Proof.Machine
end

