-- ==== Sys2Proof/Machine/Container.lean ====
section
/-! DEFINITION. The whole-stream operations: COMPRESS, DECOMPRESS (spec 45_container.md). -/

namespace Sys2Proof.Machine

/-- `for i: do TALLY(SRC[i])` (R130). -/
def tallyAll : List Byte → State → Result Unit
  | [], s => .done () s
  | x :: xs, s => (tally x s).inner.bind fun _ t => tallyAll xs t

/-- `for i: do ENC(SRC[i])` (R130). -/
def encAll : List Byte → State → Result Unit
  | [], s => .done () s
  | x :: xs, s => (enc x s).inner.bind fun _ t => encAll xs t

/-- COMPRESS as an operation (R130). The source is read by index: `SP`, `RBUF`, `RN` do not move (R43, R54). -/
def compress (s : State) : Result Unit :=
  require (fresh s) .badPhase 2#8 <|
    if s.slen = 0 then .done () s
    else
      (tallyAll s.src s).bind fun _ t =>
        (build t).inner.bind fun _ u =>
          (whdr u).inner.bind fun _ v =>
            (encAll v.src v).bind fun _ x => (flush x).inner

/-- `repeat T times: do DEC(); SnkPut(RES[7:0])` (R131). -/
def decAll : Nat → State → Result Unit
  | 0, s => .done () s
  | n + 1, s => (dec s).inner.bind fun _ t => decAll n (snkPut (t.res.extractLsb' 0 8) t)

/-- DECOMPRESS as an operation (R131). -/
def decompress (s : State) : Result Unit :=
  require (fresh s) .badPhase 2#8 <|
    if s.slen = 0 then .done () s
    else
      (rhdr s).inner.bind fun _ t => (build t).inner.bind fun _ u => decAll (total u.freq) u

/-- COMPRESS: source bytes to container (R130). -/
def execCompress (s : State) : Host.Outcome State Fault Refusal := command compress s

/-- DECOMPRESS: container to original bytes (R131). -/
def execDecompress (s : State) : Host.Outcome State Fault Refusal := command decompress s

end Sys2Proof.Machine
end

