-- ==== Sys2Proof/Machine/Control.lean ====
section
/-! DEFINITION. Control: SRESET (spec 46_control.md). -/

namespace Sys2Proof.Machine

/-- SRESET: start a new session (R140); the one operation accepted while `FAULT` is nonzero (R151). -/
def execSreset (s : State) : Host.Outcome State Fault Refusal := .next (newSession s)

end Sys2Proof.Machine
end

