-- ==== Sys2Proof/Machine/Dispatch.lean ====
section
/-! DEFINITION. One arm per operation of spec/opcode_table.json (R61). -/

namespace Sys2Proof.Machine

def exec (i : Instr) (s : State) : Host.Outcome State Fault Refusal :=
  match i with
  | .wbit b => Sys2Proof.Machine.execWbit b s
  | .wbyte v => Sys2Proof.Machine.execWbyte v s
  | .wint v w => Sys2Proof.Machine.execWint v w s
  | .flush => Sys2Proof.Machine.execFlush s
  | .rbit => Sys2Proof.Machine.execRbit s
  | .rbyte => Sys2Proof.Machine.execRbyte s
  | .rint w => Sys2Proof.Machine.execRint w s
  | .tally x => Sys2Proof.Machine.execTally x s
  | .whdr => Sys2Proof.Machine.execWhdr s
  | .rhdr => Sys2Proof.Machine.execRhdr s
  | .build => Sys2Proof.Machine.execBuild s
  | .enc x => Sys2Proof.Machine.execEnc x s
  | .dec => Sys2Proof.Machine.execDec s
  | .compress => Sys2Proof.Machine.execCompress s
  | .decompress => Sys2Proof.Machine.execDecompress s
  | .sreset => Sys2Proof.Machine.execSreset s

end Sys2Proof.Machine
end

