-- ==== Sys2Proof/Machine/HostActions.lean ====
section
/-! DEFINITION. What the host does to the block, one action at a time (R8, R9, R170, R174). -/

namespace Sys2Proof.Machine

/-- One command word in the session `s` (R151): a reserved `op` faults, everything else runs its meaning. -/
def runWord (c : CmdWord) (s : State) : Host.Outcome State Fault Refusal :=
  match decode c with
  | .instr i => exec i s
  | .reserved _ => illegalCommand s

/-- One host action (R9): a command is one atomic operation (R8); presenting a source replaces `SRC` and `SLEN` and
touches nothing else (R174; log entry 4); the hardware reset input does what SRESET does (R170). -/
def takeAction (a : HostAction) (s : State) : Host.Outcome State Fault Refusal :=
  match a with
  | .command c => runWord c s
  | .present bytes => .next { s with src := bytes }
  | .reset => .next (newSession s)

end Sys2Proof.Machine
end

