-- ==== Sys2Proof/Machine/Step.lean ====
section
/-! DEFINITION. One step of the machine: the host's next action is taken (R8, R9). -/

namespace Sys2Proof.Machine

/-- One step: the first pending action is taken out and performed; with none pending the block idles (log entry 2). -/
def step (s : State) : Host.Outcome State Fault Refusal :=
  match s.pending with
  | [] => .next s
  | a :: rest => takeAction a { s with pending := rest }

/-- `s` with the command word whose bits are `w` (numbered as spec/opcode_table.json numbers them) put before the host's
other actions, so that the very next step runs it (log entry 1). -/
def State.withFetchWord (s : State) (nbits w : Nat) : State :=
  { s with pending := .command (BitVec.ofNat 48 (w % 2 ^ nbits)) :: s.pending }

end Sys2Proof.Machine
end

