-- ==== Sys2Proof/Machine/Instances.lean ====
section
/-! DEFINITION. Several instances side by side (R165): "a model of n instances is the product of n models". -/

namespace Sys2Proof.Machine

/-- One step of instance `i` of `n`: the others do nothing in it, and nothing is shared (R165; log entry 12). -/
def stepInstance {n : Nat} (ms : Vector State n) (i : Fin n) : Host.Outcome (Vector State n) Fault Refusal :=
  match step ms[i.val] with
  | .next t => .next (ms.set i.val t)
  | .fault f => .fault f
  | .refused r => .refused r

end Sys2Proof.Machine
end

