-- ==== Sys2Proof/Safety.lean ====
section
/-! DEFINITION. What counts as a safe session, in the terms the claims use: the session invariant (R28), the tree
invariants (R25, R123), paths and codes (R69, R122), the host's duties (R176), valid output (R162). -/

namespace Sys2Proof.Safety

open Sys2Proof.Machine

/-! ### Paths and codes -/

/-- The node reached from `i` by a sequence of branch labels; none when a label is left on a leaf (R69, R112). -/
def walk (node : Vector Node 511) : NodeIdx → List Bool → Option NodeIdx
  | i, [] => some i
  | i, b :: bs => if isLeaf i then none else walk node (child node i b) bs

/-- `bs` is the code of symbol `x` in the tree with root `root` (R69, R122 (1), (2)): the branch labels from the root
down to the leaf, and the single bit 0 in the degenerate tree. -/
def IsCode (node : Vector Node 511) (root : NodeIdx) (x : Byte) (bs : List Bool) : Prop :=
  if isLeaf root then root = leafSlot x ∧ bs = [false] else walk node root bs = some (leafSlot x)

/-- A code for the symbols of a table: no word is empty, and none is a prefix of another symbol's (R69, R114). -/
def PrefixCode (freq : Vector Freq 256) (code : Byte → List Bool) : Prop :=
  (∀ x, freqOf freq x ≠ 0#31 → code x ≠ []) ∧
    ∀ x y, freqOf freq x ≠ 0#31 → freqOf freq y ≠ 0#31 → code x <+: code y → x = y

/-- "the weighted path length (sum over symbols of count × code length)" of a code (R114). -/
def weightedLength (freq : Vector Freq 256) (code : Byte → List Bool) : Nat :=
  ((presentSymbols freq).map fun x => (freqOf freq x).toNat * (code x).length).sum

/-- The payload's length in bits: the sum over the symbols of `FREQ[s]` x length(`code(s)`) (R73, R122 (5)). -/
def payloadLength (freq : Vector Freq 256) (node : Vector Node 511) (root : NodeIdx) : Nat :=
  weightedLength freq fun x => (codeOf node root x).getD []

/-- The bits of a container before padding, `14 + n x (8 + bf) +` payload (R73). -/
def containerBits (freq : Vector Freq 256) (node : Vector Node 511) (root : NodeIdx) : Nat :=
  14 + nsym freq * (8 + bitlen (maxf freq)) + payloadLength freq node root

/-- Two arenas hold the same nodes: `V` is the same everywhere; in valid entries `COUNT` and `PV` are, `PARENT` where `PV`
= 1, and the children in internal slots. The other fields are "meaningless" (R22). -/
def SameNodes (a b : Vector Node 511) : Prop :=
  ∀ i : NodeIdx, (nodeAt a i).v = (nodeAt b i).v ∧ ((nodeAt a i).v = true →
    (nodeAt a i).count = (nodeAt b i).count ∧ (nodeAt a i).pv = (nodeAt b i).pv ∧
      ((nodeAt a i).pv = true → (nodeAt a i).parent = (nodeAt b i).parent) ∧
      (isLeaf i = false → (nodeAt a i).c0 = (nodeAt b i).c0 ∧ (nodeAt a i).c1 = (nodeAt b i).c1))

/-! ### Invariants -/

/-- R25 (1) to (5) and R123, of a table and the tree BUILD made of it. -/
structure TreeShape (freq : Vector Freq 256) (node : Vector Node 511) (root : NodeIdx) (rootv : Bool) : Prop where
  /-- R25 (1): a leaf is valid exactly for a symbol with a nonzero frequency. -/
  leaf_valid : ∀ x : Byte, (nodeAt node (leafSlot x)).v = true ↔ freqOf freq x ≠ 0#31
  /-- R25 (1): a valid leaf's count is its symbol's frequency. -/
  leaf_count : ∀ x : Byte, freqOf freq x ≠ 0#31 →
    (nodeAt node (leafSlot x)).count.toNat = (freqOf freq x).toNat
  /-- R25 (2): the internal slots 256 to 256 + n - 2 are valid, no others. -/
  internal_valid : ∀ i : NodeIdx, isLeaf i = false →
    ((nodeAt node i).v = true ↔ i.val + 2 ≤ 256 + nsym freq)
  /-- R25 (3): an internal node's count is the sum of its children's counts, as numbers. -/
  sum_count : ∀ i : NodeIdx, isLeaf i = false → (nodeAt node i).v = true →
    (nodeAt node i).count.toNat =
      (nodeAt node (nodeAt node i).c0).count.toNat + (nodeAt node (nodeAt node i).c1).count.toNat
  /-- R25 (3): the children of an internal node differ. -/
  children_differ : ∀ i : NodeIdx, isLeaf i = false → (nodeAt node i).v = true →
    (nodeAt node i).c0 ≠ (nodeAt node i).c1
  /-- R25 (3): both children are valid and their parent link names the node. -/
  child_link : ∀ (i : NodeIdx) (b : Bool), isLeaf i = false → (nodeAt node i).v = true →
    (nodeAt node (child node i b)).v = true ∧ (nodeAt node (child node i b)).pv = true ∧
      (nodeAt node (child node i b)).parent = i
  /-- R123: a parent is created after its children, so its index is greater. -/
  child_below : ∀ (i : NodeIdx) (b : Bool), isLeaf i = false → (nodeAt node i).v = true →
    (child node i b).val < i.val
  /-- R25 (3), (5): a valid node with a parent link is a child of that parent. -/
  parent_link : ∀ i : NodeIdx, (nodeAt node i).v = true → (nodeAt node i).pv = true →
    isLeaf (nodeAt node i).parent = false ∧ (nodeAt node (nodeAt node i).parent).v = true ∧
      ((nodeAt node (nodeAt node i).parent).c0 = i ∨ (nodeAt node (nodeAt node i).parent).c1 = i)
  /-- R25 (4): there is a root exactly when the table is not empty. -/
  root_valid : rootv = true ↔ nsym freq ≠ 0
  /-- R25 (4): the root is the one valid node without a parent, and its count is the total. -/
  root_only : nsym freq ≠ 0 →
    (∀ i : NodeIdx, (nodeAt node i).v = true → ((nodeAt node i).pv = false ↔ i = root)) ∧
      (nodeAt node root).v = true ∧ (nodeAt node root).count.toNat = total freq
  /-- R25 (5): every valid node is reachable from the root by child links. -/
  reachable : ∀ i : NodeIdx, (nodeAt node i).v = true → ∃ bs, walk node root bs = some i

/-- The bit writer between two operations (R17, R28): at most seven bits are held and the unwritten ones are 0. -/
structure WriterOk (s : State) : Prop where
  room : s.wn.val ≤ 7
  clean : ∀ k, s.wn.val ≤ k → k < 8 → streamBit s.wbuf k = false

/-- The bit reader between two operations (R18, R19, R28): it stands inside the source, and a byte in use is the
source byte before `SP`. -/
structure ReaderOk (s : State) : Prop where
  inside : s.sp ≤ s.slen
  held : s.rn.val < 8 → 1 ≤ s.sp ∧ s.src[s.sp - 1]? = some s.rbuf

/-- Table and tree between two operations (R28): no tree before BUILD, R25 after it. -/
structure TreeOk (s : State) : Prop where
  before_build : s.phase = .empty →
    s.rootv = false ∧ ∀ i : NodeIdx, (nodeAt s.node i).v = false ∧ (nodeAt s.node i).pv = false
  after_build : s.phase = .built → TreeShape s.freq s.node s.root s.rootv

/-- The session invariant (R28): it holds between any two operations while `FAULT` = 0, and then `FINFO` = 0 (R153).
"After a fault none of these is promised." -/
def Inv (s : State) : Prop :=
  s.fault = .ok → s.finfo = 0#8 ∧ WriterOk s ∧ ReaderOk s ∧ TreeOk s

/-! ### What an operation did -/

/-- The bits `bs` were written (R80 to R84): they follow the bits written before, the writer is in order again, and
nothing but `WBUF`, `WN` and the sink changed. -/
def Wrote (s t : State) (bs : List Bool) : Prop :=
  writtenBits t = writtenBits s ++ bs ∧ WriterOk t ∧ t = { s with wbuf := t.wbuf, wn := t.wn, snk := t.snk }

/-- The next `n` source bits were consumed and `RES` took `v` (R90 to R93): the reader is in order and stands `n` bits
on, and nothing but `RES`, `RBUF`, `RN` and `SP` changed. -/
def ReadInto (s t : State) (n : Nat) (v : Word32) : Prop :=
  t.res = v ∧ bitsAhead t = (bitsAhead s).drop n ∧ readerPos t = readerPos s + n ∧ ReaderOk t ∧
    t = { s with res := t.res, rbuf := t.rbuf, rn := t.rn, sp := t.sp }

/-- A fault of the block was taken in the session `s` (R152): what is promised whatever the fault. -/
def FaultTaken (s t : State) (c : FaultCode) (i : Byte) : Prop :=
  t.fault = c ∧ t.finfo = i ∧ t.src = s.src ∧ t.pending = s.pending

/-- The bits a writer operation writes (R80, R81, R82), first bit first; none for the other operations. -/
def writerBits : Instr → Option (List Bool)
  | .wbit b => some [b]
  | .wbyte v => some ((List.range 8).map v.getLsbD)
  | .wint v w => if w.toNat ≤ 32 then some ((List.range w.toNat).map v.getLsbD) else none
  | .flush | .rbit | .rbyte | .rint _ | .tally _ | .whdr | .rhdr | .build | .enc _ | .dec | .compress
  | .decompress | .sreset => none

/-- How many bits a reader operation reads (R90, R91, R92); none for the other operations. -/
def readerBits : Instr → Option Nat
  | .rbit => some 1
  | .rbyte => some 8
  | .rint w => if w.toNat ≤ 32 then some w.toNat else none
  | .wbit _ | .wbyte _ | .wint _ _ | .flush | .tally _ | .whdr | .rhdr | .build | .enc _ | .dec | .compress
  | .decompress | .sreset => none

/-! ### The host -/

/-- The host keeps `SRC` and `SLEN` unchanged in a session that is under way (R45, R176): its next action is no
presentation of a source unless the session is Fresh or has faulted. -/
def hostKeepsSource (s : State) : Bool :=
  match s.pending with
  | .present _ :: _ => fresh s || faulted s
  | _ => true

/-- The host's next action is a reset: the command SRESET or the reset input (R170), the two that clear `FAULT` (R14,
R158). -/
def resetsNext (s : State) : Bool :=
  match s.pending with
  | .reset :: _ => true
  | .command c :: _ => decode c == .instr .sreset
  | _ => false

/-- The session's sink is its valid output (R162): no fault, and nothing left in `WBUF`. R162 asks `WN` = 0 "for a
compression" only, and no rule says of which kind a mixed session is that R175 admits: DESIGN CHOICE, `WN` = 0 is asked of
every session (log entry 15). -/
def outputValid (s : State) : Bool := !faulted s && s.wn == 0

/-- The result of a run: the pair (`FAULT`, `SNK[0..OLEN-1]`) (R176). -/
def runResult (s : State) : FaultCode × Memory := (s.fault, s.snk)

/-- A sequence of commands issued one after another, each after the previous completed (R9, R175). -/
def execAll : List Instr → State → Host.Outcome State Fault Refusal
  | [], s => .next s
  | i :: is, s =>
    match exec i s with
    | .next t => execAll is t
    | .fault f => .fault f
    | .refused r => .refused r

/-- Compression by primitives (R135, R175 (c)). -/
def compressByPrimitives (input : List Byte) : List Instr :=
  input.map .tally ++ [.build, .whdr] ++ input.map .enc ++ [.flush]

/-- A Fresh session with the given source (R172, R174). -/
def freshSession (src : Memory) : State := { State.reset with src := src }

/-! ### Which operation raises which fault -/

/-- R155: the faults an operation can raise in a session without a fault, with the `FINFO` values of R153 and R154. -/
def mayRaise : Instr → FaultCode → Byte → Bool
  | .wint _ _, c, i => c == .badOperand && i == 0#8
  | .rbit, c, i => c == .formatError && i == causeInfo .truncated
  | .rbyte, c, i => c == .formatError && i == causeInfo .truncated
  | .rint _, c, i => (c == .badOperand && i == 0#8) || (c == .formatError && i == causeInfo .truncated)
  | .tally x, c, i => (c == .badPhase && i == 0#8) || (c == .countOverflow && i == x)
  | .rhdr, c, i =>
    (c == .badPhase && (i == 0#8 || i == 1#8)) ||
      (c == .formatError && (i == causeInfo .truncated || i == causeInfo .zeroCount || i == causeInfo .countRange
        || i == causeInfo .zeroFreq || i == causeInfo .dupSymbol))
  | .build, c, i => c == .badPhase && i == 0#8
  | .whdr, c, i => c == .badPhase && i == 0#8
  | .enc x, c, i =>
    (c == .badPhase && i == 0#8) || (c == .noTree && i == 0#8) || (c == .absentSymbol && i == x)
  | .dec, c, i =>
    (c == .badPhase && i == 0#8) || (c == .noTree && i == 0#8) ||
      (c == .formatError && (i == causeInfo .truncated || i == causeInfo .degenBit))
  | .compress, c, i => (c == .badPhase && i == 2#8) || c == .countOverflow
  | .decompress, c, i =>
    (c == .badPhase && i == 2#8) ||
      (c == .formatError && (i == causeInfo .truncated || i == causeInfo .zeroCount || i == causeInfo .countRange
        || i == causeInfo .zeroFreq || i == causeInfo .dupSymbol || i == causeInfo .degenBit))
  | .wbit _, _, _ | .wbyte _, _, _ | .flush, _, _ | .sreset, _, _ => false

end Sys2Proof.Safety
end

