-- ==== Sys2Proof/Certificates/Slice0/Obligations.lean ====
section
/-! DEFINITION. The statements for the provers, made from the numbered rules of spec/. -/

open Sys2Proof Sys2Proof.Machine Sys2Proof.Safety

/-! ### Encoding -/

/-- R60 to R62, R71: decoding an encoded instruction gives the instruction, with every operand at every value. -/
def Obligations.DecodeOfEncode : Prop :=
  ∀ i : Instr, decode (encode i) = .instr i

/-- R61, R63: a command word is an operation exactly when its `op` field is one of the sixteen codes, it is then the
operation of that code, and every other word is rejected under its `op`. -/
def Obligations.SixteenOpcodes : Prop :=
  ∀ c : CmdWord,
    ((∃ i, decode c = .instr i) ↔
      (opField c).toNat ∈ [0x01, 0x02, 0x03, 0x04, 0x11, 0x12, 0x13, 0x20, 0x21, 0x22, 0x30, 0x31, 0x32, 0x40,
        0x41, 0x50]) ∧
    (∀ i, decode c = .instr i → opcode i = opField c) ∧
    ((¬ ∃ i, decode c = .instr i) → decode c = .reserved (opField c))

/-- R64: command words that agree in `op` and in the operand bits R60 lists for it do the same in every session. -/
def Obligations.UnusedOperandBitsIgnored : Prop :=
  ∀ (c c' : CmdWord) (s : State), opField c = opField c' →
    c &&& usedBits (opField c) = c' &&& usedBits (opField c') →
    decode c = decode c' ∧ runWord c s = runWord c' s

/-- R60, R61: words written out from the spec's encoding, one of each family, decode to the instruction they stand for. -/
def Obligations.SampleWordsDecode : Prop :=
  decode 0x032012345678#48 = .instr (.wint 0x12345678#32 32#8) ∧
  decode 0x130900000000#48 = .instr (.rint 9#8) ∧
  decode 0x2000001234FF#48 = .instr (.tally 0xFF#8) ∧
  decode 0x300000000000#48 = .instr .build ∧
  decode 0x3100FFFFFF61#48 = .instr (.enc 0x61#8) ∧
  decode 0x410000000000#48 = .instr .decompress ∧
  decode 0x50FFFFFFFFFF#48 = .instr .sreset

/-! ### One step -/

/-- R8, R9, R151: a step takes the host's next action; a command word that decodes runs exactly its instruction, with the
action taken out of the pending ones and nothing else around it. That the host's actions stand in the state as a list is the
model's choice (log entry 1). -/
def Obligations.StepRunsDecoded : Prop :=
  ∀ (s : State) (c : CmdWord) (rest : List HostAction) (i : Instr),
    s.pending = .command c :: rest → decode c = .instr i → step s = exec i { s with pending := rest }

/-- R9, R170, and three choices of the model. A block without a command idles (log entry 2). The host's actions are a list
in the state (log entry 1). A source the host presents replaces `SRC` and `SLEN` and nothing else in EVERY session, also in
the middle of one, where R176 forbids it and the spec says nothing (U20; log entry 4). The reset input does what SRESET
does. -/
def Obligations.StepTakesHostActions : Prop :=
  ∀ (s : State) (rest : List HostAction) (bytes : List Byte),
    (s.pending = [] → step s = .next s) ∧
    (s.pending = .present bytes :: rest → step s = .next { s with src := bytes, pending := rest }) ∧
    (s.pending = .reset :: rest → step s = exec .sreset { s with pending := rest })

/-- R63 (1), R151 (2): a reserved `op` in a session without a fault raises ILLEGAL_CMD and does nothing else; in a
faulted session it is refused without any change (R151 (1)). -/
def Obligations.ReservedOpFaults : Prop :=
  ∀ (s : State) (c : CmdWord) (rest : List HostAction) (op : Byte),
    s.pending = .command c :: rest → decode c = .reserved op →
    (s.fault = .ok → step s = .next { s with fault := .illegalCmd, finfo := 0#8, pending := rest }) ∧
    (s.fault ≠ .ok → step s = .next { s with pending := rest })

/-- R63 (2), R151 (3): WINT and RINT with `w` > 32 raise BAD_OPERAND and change nothing else. -/
def Obligations.WideOperandFaults : Prop :=
  ∀ (s : State) (v : Word32) (w : Byte), s.fault = .ok → 32 < w.toNat →
    exec (.wint v w) s = .next { s with fault := .badOperand, finfo := 0#8 } ∧
    exec (.rint w) s = .next { s with fault := .badOperand, finfo := 0#8 }

/-- R151 (1): with `FAULT` set every operation but SRESET is refused: no state element changes. -/
def Obligations.FaultedSessionRefuses : Prop :=
  ∀ (s : State) (i : Instr), s.fault ≠ .ok → i ≠ .sreset → exec i s = .next s

/-- R14, R151, R152, R158: the first fault is kept until reset: from a faulted session every step that is neither SRESET nor
the reset input leaves `FAULT` and `FINFO`, and a step that is one of the two clears both. -/
def Obligations.FirstFaultIsKept : Prop :=
  ∀ s t : State, s.fault ≠ .ok → step s = .next t →
    (resetsNext s = false → t.fault = s.fault ∧ t.finfo = s.finfo) ∧
    (resetsNext s = true → t.fault = .ok ∧ t.finfo = 0#8)

/-! ### Bit writer -/

/-- R80: WBIT by cases on `WN`: with room the bit goes to position 7 - `WN`; the eighth bit makes the byte appear in the
sink at once; at `WN` = 8 the check before the write emits first. -/
def Obligations.WbitResult : Prop :=
  ∀ (s : State) (b : Bool), s.fault = .ok →
    (s.wn.val < 7 →
      exec (.wbit b) s = .next { s with wbuf := putStreamBit s.wbuf s.wn.val b, wn := s.wn + 1 }) ∧
    (s.wn.val = 7 →
      exec (.wbit b) s = .next { s with snk := s.snk ++ [putStreamBit s.wbuf 7 b], wbuf := 0#8, wn := 0 }) ∧
    (s.wn.val = 8 →
      exec (.wbit b) s = .next { s with snk := s.snk ++ [s.wbuf], wbuf := putStreamBit 0#8 0 b, wn := 1 })

/-- R80, R81, R82: each writer operation completes and writes exactly its bits, least significant first. -/
def Obligations.WriterAppendsItsBits : Prop :=
  ∀ (s : State) (i : Instr) (bs : List Bool), s.fault = .ok → WriterOk s → writerBits i = some bs →
    ∃ t, exec i s = .next t ∧ Wrote s t bs

/-- R81 corner case 1: WBYTE(v) is exactly WINT(v, 8), in every session. -/
def Obligations.WbyteIsWintEight : Prop :=
  ∀ (s : State) (v : Byte), exec (.wbyte v) s = exec (.wint (v.zeroExtend 32) 8#8) s

/-- R83: FLUSH emits the partial byte, the unwritten bits of which are 0, and does nothing when none is held; FLUSH twice
is FLUSH once. -/
def Obligations.FlushResult : Prop :=
  ∀ s : State, s.fault = .ok →
    (s.wn.val = 0 → exec .flush s = .next s) ∧
    (0 < s.wn.val → exec .flush s = .next { s with snk := s.snk ++ [s.wbuf], wbuf := 0#8, wn := 0 }) ∧
    (WriterOk s → ∃ t, exec .flush s = .next t ∧ t.wn = 0 ∧ exec .flush t = .next t ∧
      Wrote s t (List.replicate ((8 - s.wn.val) % 8) false))

/-- R84: from reset, any writer operations leave the sink and the buffer that their bit sequence `ts` spells, and a final
FLUSH fills the last byte with zeros. -/
def Obligations.WriterLaws : Prop :=
  ∀ (src : Memory) (is : List Instr) (bss : List (List Bool)), is.map writerBits = bss.map some →
    ∃ t u, execAll is (freshSession src) = .next t ∧ exec .flush t = .next u ∧
      t.olen = bss.flatten.length / 8 ∧ t.wn.val = bss.flatten.length % 8 ∧
      (∀ j k, j < t.olen → k < 8 → (t.snk[j]?).map (fun b => b.getLsbD (7 - k)) = bss.flatten[8 * j + k]?) ∧
      (∀ k, k < t.wn.val → bss.flatten[8 * t.olen + k]? = some (t.wbuf.getLsbD (7 - k))) ∧
      (∀ k, t.wn.val ≤ k → k < 8 → t.wbuf.getLsbD (7 - k) = false) ∧
      u.olen = (bss.flatten.length + 7) / 8 ∧
      (∀ k, k < 8 → bss.flatten.length ≤ 8 * (u.olen - 1) + k →
        (u.snk[u.olen - 1]?).map (fun b => b.getLsbD (7 - k)) ≠ some true)

/-! ### Bit reader -/

/-- R90: RBIT by cases: a bit left in `RBUF`; a lazy refill; the source used up, which is FORMAT_ERROR/TRUNCATED. -/
def Obligations.RbitResult : Prop :=
  ∀ s : State, s.fault = .ok →
    (s.rn.val < 8 → exec .rbit s =
      .next { s with res := if s.rbuf.getLsbD (7 - s.rn.val) then 1#32 else 0#32, rn := s.rn + 1 }) ∧
    (∀ b, s.rn.val = 8 → s.src[s.sp]? = some b → exec .rbit s =
      .next { s with res := if b.getLsbD 7 then 1#32 else 0#32, rbuf := b, rn := 1, sp := s.sp + 1 }) ∧
    (s.rn.val = 8 → s.sp = s.slen → ∃ t, exec .rbit s = .next t ∧ FaultTaken s t .formatError 1#8)

/-- R91, R92: RBYTE and RINT complete when enough bits are left, and `RES` is the bits read, least significant first, zero
extended; RINT 0 reads nothing and sets `RES` to 0. -/
def Obligations.RintResult : Prop :=
  ∀ (s : State) (w : Byte), s.fault = .ok → ReaderOk s → w.toNat ≤ 32 → w.toNat ≤ (bitsAhead s).length →
    (∃ t v, exec (.rint w) s = .next t ∧ ReadInto s t w.toNat v ∧
      ∀ k, k < 32 → v.getLsbD k = (decide (k < w.toNat) && (bitsAhead s).getD k false)) ∧
    (w = 8#8 → exec .rbyte s = exec (.rint w) s) ∧
    (w = 0#8 → exec (.rint w) s = .next { s with res := 0#32 })

/-- R91 corner case 1: RBYTE is exactly RINT with `w` = 8, in every session. -/
def Obligations.RbyteIsRintEight : Prop :=
  ∀ s : State, exec .rbyte s = exec (.rint 8#8) s

/-- R90, R91, R92, R93, R154: a reading operation that wants more bits than the source has left faults
FORMAT_ERROR/TRUNCATED, exactly then. -/
def Obligations.ReaderTruncates : Prop :=
  ∀ (s : State) (i : Instr) (n : Nat), s.fault = .ok → ReaderOk s → readerBits i = some n →
    ((bitsAhead s).length < n → ∃ t, exec i s = .next t ∧ FaultTaken s t .formatError (causeInfo .truncated)) ∧
    (n ≤ (bitsAhead s).length → ∃ t v, exec i s = .next t ∧ ReadInto s t n v)

/-- R93: from reset, after reading operations have taken M bits in total, the reader stands at `SP` = ceil(M / 8), with `RN`
as the rule gives it. The bits it delivered are the source's, in order: the m-th is bit 7 - m mod 8 of `SRC[m div 8]`, and
each operation left its own bits in `RES`, the first least significant. The next operation faults TRUNCATED when it asks for
bit number 8 x `SLEN`. -/
def Obligations.ReaderLaws : Prop :=
  ∀ (src : Memory) (is : List Instr) (ns : List Nat), is.map readerBits = ns.map some → ns.sum ≤ 8 * src.length →
    (∃ t, execAll is (freshSession src) = .next t ∧ t.fault = .ok ∧
      bitsAhead t = (streamBits src).drop ns.sum ∧ readerPos t = ns.sum ∧
      t.sp = (ns.sum + 7) / 8 ∧ t.rn.val = (if ns.sum = 0 then 8 else (ns.sum - 1) % 8 + 1) ∧
      ∀ (i : Instr) (n : Nat), readerBits i = some n → 8 * src.length < ns.sum + n →
        ∃ u, exec i t = .next u ∧ FaultTaken t u .formatError (causeInfo .truncated)) ∧
    ∀ k n, ns[k]? = some n → ∃ u, execAll (is.take (k + 1)) (freshSession src) = .next u ∧
      ∀ j, j < 32 → u.res.getLsbD j = (decide (j < n) &&
        (src.getD (((ns.take k).sum + j) / 8) 0#8).getLsbD (7 - ((ns.take k).sum + j) % 8))

/-- R93, the inverse law: integers written and flushed in one session are read back in another, with the same widths in
the same order: each read returns the low `w` bits of the value written. -/
def Obligations.ReaderInvertsWriter : Prop :=
  ∀ vws : List (Word32 × Byte), (∀ p ∈ vws, p.2.toNat ≤ 32) →
    ∃ t, execAll (vws.map (fun p => .wint p.1 p.2) ++ [.flush]) (freshSession []) = .next t ∧
      ∀ (k : Nat) (p : Word32 × Byte), vws[k]? = some p →
        ∃ u, execAll ((vws.take (k + 1)).map fun q => .rint q.2) (freshSession t.snk) = .next u ∧
          u.fault = .ok ∧ u.res.toNat = p.1.toNat % 2 ^ p.2.toNat

/-! ### Frequency table and header -/

/-- R100: TALLY by cases, in the order of its checks: the phase, the counter's top, the count. -/
def Obligations.TallyResult : Prop :=
  ∀ (s : State) (x : Byte), s.fault = .ok →
    (s.phase = .empty → (freqOf s.freq x).toNat < 2 ^ 31 - 1 →
      exec (.tally x) s = .next { s with freq := s.freq.set x.toNat (freqOf s.freq x + 1#31) x.isLt }) ∧
    (s.phase = .empty → (freqOf s.freq x).toNat = 2 ^ 31 - 1 →
      exec (.tally x) s = .next { s with fault := .countOverflow, finfo := x }) ∧
    (s.phase = .built → exec (.tally x) s = .next { s with fault := .badPhase, finfo := 0#8 })

/-- R21, R100: tallying an input from reset counts every symbol's occurrences, in any order, and the counts add up to the
input's length. -/
def Obligations.TalliesCountTheInput : Prop :=
  ∀ (src : Memory) (input : List Byte), (∀ x, input.count x ≤ 2 ^ 31 - 1) →
    ∃ t, execAll (input.map .tally) (freshSession src) = .next t ∧ t = { freshSession src with freq := t.freq } ∧
      (∀ x, (freqOf t.freq x).toNat = input.count x) ∧ total t.freq = input.length

/-- R101, R65 to R67: WHDR after BUILD completes and writes the header of the table: the count in nine bits, the width in
five, then each present symbol in ascending order and its frequency; nothing for an empty table. Before BUILD it faults. -/
def Obligations.WhdrResult : Prop :=
  ∀ s : State, s.fault = .ok →
    (s.phase = .built → WriterOk s → ∃ t, exec .whdr s = .next t ∧ Wrote s t (headerBits s.freq)) ∧
    (s.phase = .built → nsym s.freq = 0 → exec .whdr s = .next s) ∧
    (s.phase = .empty → exec .whdr s = .next { s with fault := .badPhase, finfo := 0#8 })

/-- R65, R101: the header of a table that is not empty has 14 + n x (8 + bf) bits, with bf in 1..31, every frequency fits
its field, and the fields spell n, bf and the pairs in ascending symbol order. -/
def Obligations.HeaderFields : Prop :=
  ∀ freq : Vector Freq 256, nsym freq ≠ 0 →
    (headerBits freq).length = 14 + nsym freq * (8 + bitlen (maxf freq)) ∧
    1 ≤ bitlen (maxf freq) ∧ bitlen (maxf freq) ≤ 31 ∧
    (∀ x, (freqOf freq x).toNat < 2 ^ bitlen (maxf freq)) ∧
    lsbValue ((headerBits freq).take 9) = nsym freq ∧
    lsbValue (((headerBits freq).drop 9).take 5) = bitlen (maxf freq) ∧
    (presentSymbols freq).Pairwise (fun x y => x.toNat < y.toNat) ∧
    ∀ (k : Nat) (x : Byte), (presentSymbols freq)[k]? = some x →
      lsbValue (((headerBits freq).drop (14 + k * (8 + bitlen (maxf freq)))).take 8) = x.toNat ∧
      lsbValue (((headerBits freq).drop (14 + k * (8 + bitlen (maxf freq)) + 8)).take (bitlen (maxf freq))) =
        (freqOf freq x).toNat

/-- R102, R67: RHDR completes on a well-formed header, its pairs in any order: the table takes exactly the pairs, the
reader stands behind them, and nothing else changes (`RES` included). -/
def Obligations.RhdrResult : Prop :=
  ∀ (s : State) (bf : Nat) (ps : List (Byte × Freq)) (rest : List Bool),
    s.fault = .ok → s.phase = .empty → total s.freq = 0 → ReaderOk s →
    1 ≤ ps.length → ps.length ≤ 256 → bf < 32 → (ps.map Prod.fst).Nodup →
    (∀ p ∈ ps, p.2 ≠ 0#31 ∧ p.2.toNat < 2 ^ bf) →
    bitsAhead s = lsbFirst 9 ps.length ++ lsbFirst 5 bf ++ (ps.flatMap fun p => pairBits bf p.1 p.2) ++ rest →
    ∃ t, exec .rhdr s = .next t ∧ t = { s with rbuf := t.rbuf, rn := t.rn, sp := t.sp, freq := t.freq } ∧
      ReaderOk t ∧ bitsAhead t = rest ∧ nsym t.freq = ps.length ∧
      (∀ p ∈ ps, freqOf t.freq p.1 = p.2) ∧ (∀ x, x ∉ ps.map Prod.fst → freqOf t.freq x = 0#31)

/-- R102, R153, R154, R156: what RHDR refuses before it reads a pair, in the order of its checks: the phase, the table, a
source that ends in the count field, the count, a source that ends in the width field. -/
def Obligations.RhdrRejects : Prop :=
  ∀ s : State, s.fault = .ok →
    (s.phase = .built → exec .rhdr s = .next { s with fault := .badPhase, finfo := 0#8 }) ∧
    (s.phase = .empty → total s.freq ≠ 0 → exec .rhdr s = .next { s with fault := .badPhase, finfo := 1#8 }) ∧
    (s.phase = .empty → total s.freq = 0 → ReaderOk s →
      ((bitsAhead s).length < 9 → ∃ t, exec .rhdr s = .next t ∧ FaultTaken s t .formatError (causeInfo .truncated)) ∧
      (9 ≤ (bitsAhead s).length → lsbValue ((bitsAhead s).take 9) = 0 →
        ∃ t, exec .rhdr s = .next t ∧ FaultTaken s t .formatError (causeInfo .zeroCount)) ∧
      (9 ≤ (bitsAhead s).length → 256 < lsbValue ((bitsAhead s).take 9) →
        ∃ t, exec .rhdr s = .next t ∧ FaultTaken s t .formatError (causeInfo .countRange)) ∧
      (9 ≤ (bitsAhead s).length → (bitsAhead s).length < 14 →
        1 ≤ lsbValue ((bitsAhead s).take 9) → lsbValue ((bitsAhead s).take 9) ≤ 256 →
        ∃ t, exec .rhdr s = .next t ∧ FaultTaken s t .formatError (causeInfo .truncated)))

/-- R102, R154: behind fewer well-formed pairs than the count, a source that ends inside the next pair faults TRUNCATED
("header claims more unique symbols or bits than remain"); a pair with frequency 0 faults ZERO_FREQ, and else a pair whose
symbol the table already holds faults DUP_SYMBOL. -/
def Obligations.RhdrRejectsPairs : Prop :=
  ∀ (s : State) (n bf : Nat) (ps : List (Byte × Freq)) (tail : List Bool),
    s.fault = .ok → s.phase = .empty → total s.freq = 0 → ReaderOk s →
    ps.length < n → n ≤ 256 → bf < 32 → (ps.map Prod.fst).Nodup →
    (∀ p ∈ ps, p.2 ≠ 0#31 ∧ p.2.toNat < 2 ^ bf) →
    bitsAhead s = lsbFirst 9 n ++ lsbFirst 5 bf ++ (ps.flatMap fun p => pairBits bf p.1 p.2) ++ tail →
    (tail.length < 8 + bf → ∃ t, exec .rhdr s = .next t ∧ FaultTaken s t .formatError (causeInfo .truncated)) ∧
    ∀ (x : Byte) (f : Freq) (rest : List Bool), f.toNat < 2 ^ bf → tail = pairBits bf x f ++ rest →
      (f = 0#31 → ∃ t, exec .rhdr s = .next t ∧ FaultTaken s t .formatError (causeInfo .zeroFreq)) ∧
      (f ≠ 0#31 → x ∈ ps.map Prod.fst →
        ∃ t, exec .rhdr s = .next t ∧ FaultTaken s t .formatError (causeInfo .dupSymbol))

/-- R103 (1): a session with a table that is not empty performs BUILD, WHDR and FLUSH from `WN` = 0; a second session over
that sink performs RHDR and has the same table. -/
def Obligations.HeaderRoundTrip : Prop :=
  ∀ (src : Memory) (freq : Vector Freq 256), nsym freq ≠ 0 →
    ∃ t u, execAll [.build, .whdr, .flush] { freshSession src with freq := freq } = .next t ∧
      exec .rhdr (freshSession t.snk) = .next u ∧ u.fault = .ok ∧ u.freq = freq

/-! ### Tree construction -/

/-- R110, R113 (2), R15: BUILD completes in every EMPTY session and writes only the tree and `PHASE`; in a BUILT session it
faults and the tree is unchanged. -/
def Obligations.BuildCompletes : Prop :=
  ∀ s : State, s.fault = .ok →
    (s.phase = .empty → ∃ t, exec .build s = .next t ∧
      t = { s with node := t.node, root := t.root, rootv := t.rootv, phase := .built }) ∧
    (s.phase = .built → exec .build s = .next { s with fault := .badPhase, finfo := 0#8 })

/-- R25, R110, R114, R123: from an arena without nodes BUILD leaves a strict binary tree over the present symbols: n - 1
internal nodes in the slots 256 to 256 + n - 2, counts that add up, `ROOT` the last node created. -/
def Obligations.BuildMakesTheTree : Prop :=
  ∀ s : State, s.fault = .ok → s.phase = .empty → (∀ i : NodeIdx, (nodeAt s.node i).v = false) →
    ∃ t, exec .build s = .next t ∧ t.phase = .built ∧ TreeShape s.freq t.node t.root t.rootv ∧
      (2 ≤ nsym s.freq → t.root.val = 256 + nsym s.freq - 2)

/-- R110, R111, R112: the two nodes a merge joins are the two of highest priority among the nodes without a parent at that
moment, the first popped child-0: among the nodes older than an internal node `m`, whoever still waits for a parent when
`m` is made comes after both children of `m`, and child-0 comes before child-1. -/
def Obligations.BuildPopsHighestPriority : Prop :=
  ∀ s : State, s.fault = .ok → s.phase = .empty → (∀ i : NodeIdx, (nodeAt s.node i).v = false) →
    ∃ t, exec .build s = .next t ∧
      ∀ m : NodeIdx, isLeaf m = false → (nodeAt t.node m).v = true →
        before t.node (nodeAt t.node m).c0 (nodeAt t.node m).c1 = true ∧
        ∀ j : NodeIdx, (nodeAt t.node j).v = true → j.val < m.val →
          j ≠ (nodeAt t.node m).c0 → j ≠ (nodeAt t.node m).c1 →
          ((nodeAt t.node j).pv = false ∨ m.val < (nodeAt t.node j).parent.val) →
          before t.node (nodeAt t.node m).c1 j = true

/-- R111: `prio` is a strict total order, so every pop is unique. -/
def Obligations.PriorityIsStrictTotalOrder : Prop :=
  ∀ (node : Vector Node 511) (i j k : NodeIdx),
    before node i i = false ∧
    (before node i j = true → before node j k = true → before node i k = true) ∧
    (i ≠ j → (before node i j = true ↔ before node j i = false)) ∧
    (before node i j = true ↔
      (nodeAt node i).count.toNat < (nodeAt node j).count.toNat ∨
        ((nodeAt node i).count = (nodeAt node j).count ∧ i.val < j.val))

/-- R113: one unique symbol gives the one-leaf tree, an empty table gives none; `PHASE` becomes BUILT all the same. -/
def Obligations.BuildDegenerate : Prop :=
  ∀ s : State, s.fault = .ok → s.phase = .empty → (∀ i : NodeIdx, (nodeAt s.node i).v = false) →
    (nsym s.freq = 0 → exec .build s = .next { s with rootv := false, phase := .built }) ∧
    (∀ x, nsym s.freq = 1 → freqOf s.freq x ≠ 0#31 → ∃ t, exec .build s = .next t ∧
      t.root = leafSlot x ∧ t.rootv = true ∧ t.phase = .built ∧ (nodeAt t.node (leafSlot x)).pv = false ∧
      ∀ i : NodeIdx, (nodeAt t.node i).v = true → i = leafSlot x)

/-- R114, R122 (5): the weighted path length of BUILD's codes is minimal among the prefix codes for the table (in the
degenerate tree among the codes without an empty word). -/
def Obligations.BuildIsOptimal : Prop :=
  ∀ s : State, s.fault = .ok → s.phase = .empty → (∀ i : NodeIdx, (nodeAt s.node i).v = false) →
    ∃ t, exec .build s = .next t ∧
      PrefixCode s.freq (fun x => (codeOf t.node t.root x).getD []) ∧
      ∀ code, PrefixCode s.freq code → payloadLength s.freq t.node t.root ≤ weightedLength s.freq code

/-- R115: BUILD is a function of the table alone: from the same table it makes the same nodes, the same `ROOT` and the same
`ROOTV` in every EMPTY session, whatever else differs, and the same arena bit for bit from the same arena. -/
def Obligations.BuildIsDeterministic : Prop :=
  ∀ s s' : State, s.fault = .ok → s'.fault = .ok → s.phase = .empty → s'.phase = .empty → s.freq = s'.freq →
    (∀ i : NodeIdx, (nodeAt s.node i).v = false) → (∀ i : NodeIdx, (nodeAt s'.node i).v = false) →
    ∃ t t', exec .build s = .next t ∧ exec .build s' = .next t' ∧
      SameNodes t.node t'.node ∧ t.rootv = t'.rootv ∧ (t.rootv = true → t.root = t'.root) ∧
      (s.node = s'.node → s.root = s'.root → t.node = t'.node ∧ t.root = t'.root)

/-! ### Tree traversal -/

/-- R120, R122 (1), (2), R69: ENC of a present symbol completes and writes the symbol's code: the branch labels from the
root down to its leaf, 1 to 255 of them; the single bit 0 in the degenerate tree. -/
def Obligations.EncWritesTheCode : Prop :=
  ∀ (s : State) (x : Byte), s.fault = .ok → s.phase = .built → WriterOk s →
    TreeShape s.freq s.node s.root s.rootv → freqOf s.freq x ≠ 0#31 →
    ∃ t bs, exec (.enc x) s = .next t ∧ IsCode s.node s.root x bs ∧ 1 ≤ bs.length ∧ bs.length ≤ 255 ∧ Wrote s t bs

/-- R120, R156: what ENC refuses, in the order of its checks, before any bit is written. -/
def Obligations.EncRefuses : Prop :=
  ∀ (s : State) (x : Byte), s.fault = .ok →
    (s.phase = .empty → exec (.enc x) s = .next { s with fault := .badPhase, finfo := 0#8 }) ∧
    (s.phase = .built → s.rootv = false → exec (.enc x) s = .next { s with fault := .noTree, finfo := 0#8 }) ∧
    (s.phase = .built → s.rootv = true → (nodeAt s.node (leafSlot x)).v = false →
      exec (.enc x) s = .next { s with fault := .absentSymbol, finfo := x })

/-- R121, R122 (4): DEC on a reader whose next bits are a symbol's code completes, returns the symbol in `RES` and consumes
exactly those bits. -/
def Obligations.DecReturnsTheSymbol : Prop :=
  ∀ (s : State) (x : Byte) (bs rest : List Bool), s.fault = .ok → s.phase = .built → s.rootv = true → ReaderOk s →
    IsCode s.node s.root x bs → bitsAhead s = bs ++ rest →
    ∃ t, exec .dec s = .next t ∧ ReadInto s t bs.length (x.zeroExtend 32)

/-- R121, R153, R154: what DEC refuses: the checks before any bit is read, a source that ends inside a code, and a 1 in the
degenerate tree. -/
def Obligations.DecRefuses : Prop :=
  ∀ s : State, s.fault = .ok →
    (s.phase = .empty → exec .dec s = .next { s with fault := .badPhase, finfo := 0#8 }) ∧
    (s.phase = .built → s.rootv = false → exec .dec s = .next { s with fault := .noTree, finfo := 0#8 }) ∧
    (s.phase = .built → s.rootv = true → ReaderOk s →
      (∀ j, walk s.node s.root (bitsAhead s) = some j → isLeaf j = false →
        ∃ t, exec .dec s = .next t ∧ FaultTaken s t .formatError (causeInfo .truncated)) ∧
      (isLeaf s.root = true → bitsAhead s = [] →
        ∃ t, exec .dec s = .next t ∧ FaultTaken s t .formatError (causeInfo .truncated)) ∧
      (isLeaf s.root = true → (bitsAhead s).head? = some true →
        ∃ t, exec .dec s = .next t ∧ FaultTaken s t .formatError (causeInfo .degenBit)))

/-- R69, R122 (3): no symbol's code is a prefix of another's, and a symbol has one code. -/
def Obligations.CodesArePrefixFree : Prop :=
  ∀ (s : State) (x y : Byte) (as bs : List Bool), TreeShape s.freq s.node s.root s.rootv → nsym s.freq ≠ 0 →
    IsCode s.node s.root x as → IsCode s.node s.root y bs →
    (as <+: bs → x = y ∧ as = bs) ∧ (x = y → as = bs)

/-! ### Whole-stream operations -/

/-- R130, R131, R172: COMPRESS and DECOMPRESS need a Fresh session, and do nothing at all on an empty source. Which elements
Fresh covers is the model's reading of R172 (log entry 11). -/
def Obligations.WholeStreamNeedsFresh : Prop :=
  ∀ (s : State) (i : Instr), (i = .compress ∨ i = .decompress) → s.fault = .ok →
    (fresh s = false → exec i s = .next { s with fault := .badPhase, finfo := 2#8 }) ∧
    (fresh s = true → s.slen = 0 → exec i s = .next s)

/-- R130, R65, R73: COMPRESS of a source in a Fresh session completes; the table counts the source, the tree is BUILD's, and
the sink is the container: header, the codes of the source's bytes in order, zero padding, of the length R73 gives. Only
`FREQ`, `NODE`, `ROOT`, `ROOTV`, `PHASE` and the sink change. -/
def Obligations.CompressResult : Prop :=
  ∀ s : State, fresh s = true → s.slen ≠ 0 → (∀ x, s.src.count x ≤ 2 ^ 31 - 1) →
    ∃ t, exec .compress s = .next t ∧
      t = { s with freq := t.freq, node := t.node, root := t.root, rootv := t.rootv, phase := .built, snk := t.snk } ∧
      (∀ x, (freqOf t.freq x).toNat = s.src.count x) ∧ TreeShape t.freq t.node t.root t.rootv ∧
      (∃ pad, pad < 8 ∧ streamBits t.snk =
        headerBits t.freq ++ (s.src.flatMap fun x => (codeOf t.node t.root x).getD []) ++ List.replicate pad false) ∧
      t.olen = (containerBits t.freq t.node t.root + 7) / 8

/-- R131: DECOMPRESS of a container in a Fresh session completes and puts the decoded bytes in the sink: the source begins
with the header of a table and as many codes of its tree as the table's total says; what follows is not looked at. -/
def Obligations.DecompressResult : Prop :=
  ∀ (s b : State) (freq : Vector Freq 256) (xs : List Byte) (rest : List Bool), fresh s = true → nsym freq ≠ 0 →
    exec .build { s with freq := freq } = .next b → xs.length = total freq → (∀ x ∈ xs, freqOf freq x ≠ 0#31) →
    streamBits s.src =
      headerBits freq ++ (xs.flatMap fun x => (codeOf b.node b.root x).getD []) ++ rest →
    ∃ t, exec .decompress s = .next t ∧
      t = { b with res := t.res, rbuf := t.rbuf, rn := t.rn, sp := t.sp, snk := xs } ∧
      ReaderOk t ∧ bitsAhead t = rest

/-- R130, R131, R152: when the whole-stream operations fault in a Fresh session over a source that is not empty. COMPRESS
raises COUNT_OVERFLOW exactly when some byte occurs more than 2^31 - 1 times, with `FINFO` the first byte to overflow.
DECOMPRESS raises what RHDR raises, and else, as long as symbols are wanted, what the next DEC raises behind RHDR, BUILD and
the DECs before it. -/
def Obligations.WholeStreamFaults : Prop :=
  ∀ s : State, fresh s = true → s.slen ≠ 0 →
    ((∃ y, 2 ^ 31 - 1 < s.src.count y) ↔ ∃ t, exec .compress s = .next t ∧ t.fault = .countOverflow) ∧
    (∀ pre x rest, s.src = pre ++ x :: rest → pre.count x = 2 ^ 31 - 1 → (∀ y, pre.count y ≤ 2 ^ 31 - 1) →
      ∃ t, exec .compress s = .next t ∧ FaultTaken s t .countOverflow x) ∧
    (∀ u, exec .rhdr s = .next u → u.fault ≠ .ok →
      ∃ t, exec .decompress s = .next t ∧ FaultTaken s t u.fault u.finfo) ∧
    ∀ k u v, execAll ([.rhdr, .build] ++ List.replicate k .dec) s = .next u → u.fault = .ok → k < total u.freq →
      exec .dec u = .next v → v.fault ≠ .ok →
      ∃ t, exec .decompress s = .next t ∧ FaultTaken s t v.fault v.finfo

/-- R132: the round trip. A Fresh session over a source in which no byte value occurs more than 2^31 - 1 times runs COMPRESS
without a fault; every Fresh session over its sink runs DECOMPRESS without a fault and has the source in its sink. Copies of
one byte make a tree with one leaf. (`fresh` asks no less than either reading of R172 that log entry 11 names.) -/
def Obligations.RoundTrip : Prop :=
  ∀ s : State, fresh s = true → (∀ x, s.src.count x ≤ 2 ^ 31 - 1) →
    ∃ t, exec .compress s = .next t ∧ t.fault = .ok ∧
      (∀ s', fresh s' = true → s'.src = t.snk →
        ∃ u, exec .decompress s' = .next u ∧ u.fault = .ok ∧ u.snk = s.src) ∧
      ∀ (n : Nat) (x : Byte), s.src = List.replicate (n + 1) x →
        t.root = leafSlot x ∧ t.rootv = true ∧ ∀ i : NodeIdx, (nodeAt t.node i).v = true ↔ i = leafSlot x

/-- R133: COMPRESS's sink is a function of the source alone; an empty source gives an empty container and back, and a source
that is not empty gives a container of at least 23 bits. -/
def Obligations.CompressIsDeterministic : Prop :=
  ∀ s s' t t' : State, fresh s = true → fresh s' = true → s.src = s'.src →
    exec .compress s = .next t → exec .compress s' = .next t' →
    t.fault = t'.fault ∧ (t.fault = .ok → t.snk = t'.snk ∧ (s.src ≠ [] → 23 ≤ 8 * t.olen)) ∧
    (s.src = [] → t.snk = [] ∧ exec .decompress s = .next s ∧ s.snk = [])

/-- R134: in a container written by COMPRESS the frequencies of the header add up to the compressed source's length, and to
the number of symbols DECOMPRESS decodes from the payload. -/
def Obligations.HeaderSelfConsistency : Prop :=
  ∀ s s' t u : State, fresh s = true → fresh s' = true → s.slen ≠ 0 → exec .compress s = .next t → t.fault = .ok →
    s'.src = t.snk → exec .decompress s' = .next u →
    u.fault = .ok ∧ u.freq = t.freq ∧ total u.freq = s.slen ∧ u.olen = total u.freq

/-- R135, compression: the primitives issued one after another leave exactly the state COMPRESS leaves. -/
def Obligations.CompressEqualsPrimitives : Prop :=
  ∀ s : State, fresh s = true → s.slen ≠ 0 → (∀ x, s.src.count x ≤ 2 ^ 31 - 1) →
    execAll (compressByPrimitives s.src) s = exec .compress s

/-- R135, decompression: RHDR, BUILD and as many DECs as the table's total leave the reader, table and tree state of
DECOMPRESS; each DEC leaves in `RES` the byte DECOMPRESS puts in the sink; only the sink differs. -/
def Obligations.DecompressEqualsPrimitives : Prop :=
  ∀ s t : State, fresh s = true → s.slen ≠ 0 → exec .decompress s = .next t → t.fault = .ok →
    (∃ u, execAll ([.rhdr, .build] ++ List.replicate (total t.freq) .dec) s = .next u ∧
      u = { t with snk := [] } ∧ t.olen = total t.freq) ∧
    ∀ (k : Nat) (b : Byte), t.snk[k]? = some b →
      ∃ u, execAll ([.rhdr, .build] ++ List.replicate (k + 1) .dec) s = .next u ∧ u.fault = .ok ∧
        u.res = b.zeroExtend 32

/-! ### Reset -/

/-- R140, R170, R27: SRESET, accepted in every session, puts every element but `SRC` and `SLEN` to its reset value. -/
def Obligations.SresetResult : Prop :=
  ∀ s : State, ∃ t, exec .sreset s = .next t ∧
    t.fault = .ok ∧ t.finfo = 0#8 ∧ t.phase = .empty ∧ t.res = 0#32 ∧ t.wbuf = 0#8 ∧ t.wn = 0 ∧ t.rbuf = 0#8 ∧
    t.rn = 8 ∧ t.sp = 0 ∧ t.snk = [] ∧ (∀ x, freqOf t.freq x = 0#31) ∧
    (∀ i : NodeIdx, (nodeAt t.node i).v = false ∧ (nodeAt t.node i).pv = false) ∧ t.root = 0 ∧ t.rootv = false ∧
    t.src = s.src ∧ t.pending = s.pending ∧ fresh t = true ∧ exec .sreset t = .next t

/-- R27, R171: the values the spec gives for reset, at the model's reset state; and it is Fresh (R172). -/
def Obligations.ResetValues : Prop :=
  core.reset.fault = .ok ∧ core.reset.finfo = 0#8 ∧ core.reset.phase = .empty ∧ core.reset.res = 0#32 ∧
  core.reset.wbuf = 0#8 ∧ core.reset.wn = 0 ∧ core.reset.rbuf = 0#8 ∧ core.reset.rn = 8 ∧ core.reset.sp = 0 ∧
  core.reset.snk = [] ∧ (∀ x, freqOf core.reset.freq x = 0#31) ∧
  (∀ i : NodeIdx, (nodeAt core.reset.node i).v = false ∧ (nodeAt core.reset.node i).pv = false) ∧
  core.reset.root = 0 ∧ core.reset.rootv = false ∧ fresh core.reset = true

/-! ### The whole machine -/

/-- R28, R25: the session invariant holds at reset. -/
def Obligations.InvAtReset : Prop := Inv core.reset

/-- R28, R25: every step keeps the session invariant, from every state that meets it, while the host keeps its source
(R176; log entry 4). -/
def Obligations.InvKeptByStep : Prop :=
  ∀ s t : State, Inv s → hostKeepsSource s = true → core.step s = .next t → Inv t

/-- R53, R123, R182: under the invariant every step answers a next state: the model never stops. -/
def Obligations.EveryStepCompletes : Prop :=
  ∀ s : State, Inv s → ∃ t, core.step s = .next t

/-- R155, R153, R154: an operation in a session without a fault raises only the faults the table lists for it, with their
`FINFO` values. -/
def Obligations.RaisesOnlyListedFaults : Prop :=
  ∀ (s t : State) (i : Instr), s.fault = .ok → exec i s = .next t → t.fault ≠ .ok → mayRaise i t.fault t.finfo = true

/-- R151, R157: a fault that is no FORMAT_ERROR and no COUNT_OVERFLOW inside COMPRESS is precise: everything but `FAULT` and
`FINFO` is unchanged. -/
def Obligations.PreciseFaultsChangeNothingElse : Prop :=
  ∀ (s t : State) (i : Instr), s.fault = .ok → exec i s = .next t → t.fault ≠ .ok → t.fault ≠ .formatError →
    ¬ (i = .compress ∧ t.fault = .countOverflow) → t = { s with fault := t.fault, finfo := t.finfo }

/-- R10, R13, R16, R43, R45: who writes what. No operation writes `SRC` or takes a host action; and when an operation ends
without a fault, each element is written only by the operations R10 lists for it. -/
def Obligations.OnlyListedWriters : Prop :=
  ∀ (s t : State) (i : Instr), exec i s = .next t →
    (t.src = s.src ∧ t.pending = s.pending) ∧
    (t.fault = .ok → i ≠ .sreset →
      (t.finfo = s.finfo) ∧
      (i ≠ .build → i ≠ .compress → i ≠ .decompress →
        t.phase = s.phase ∧ t.node = s.node ∧ t.root = s.root ∧ t.rootv = s.rootv) ∧
      ((∀ x, i ≠ .tally x) → i ≠ .rhdr → i ≠ .compress → i ≠ .decompress → t.freq = s.freq) ∧
      (i ≠ .rbit → i ≠ .rbyte → (∀ w, i ≠ .rint w) → i ≠ .dec → i ≠ .decompress → t.res = s.res) ∧
      (i ≠ .rbit → i ≠ .rbyte → (∀ w, i ≠ .rint w) → i ≠ .rhdr → i ≠ .dec → i ≠ .decompress →
        t.rbuf = s.rbuf ∧ t.rn = s.rn ∧ t.sp = s.sp) ∧
      ((∀ b, i ≠ .wbit b) → (∀ v, i ≠ .wbyte v) → (∀ v w, i ≠ .wint v w) → i ≠ .flush → i ≠ .whdr →
        (∀ x, i ≠ .enc x) → i ≠ .compress → t.wbuf = s.wbuf ∧ t.wn = s.wn ∧ (i ≠ .decompress → t.snk = s.snk)))

/-- R15, R20, R21, R180: in one session `PHASE` only goes from EMPTY to BUILT, table and tree are read-only afterwards, and
the sink only grows. -/
def Obligations.SessionOnlyMovesOn : Prop :=
  ∀ (s t : State) (i : Instr), exec i s = .next t → t.fault = .ok → i ≠ .sreset →
    (s.phase = .built → t.phase = .built ∧ t.freq = s.freq ∧ t.node = s.node ∧ t.root = s.root ∧ t.rootv = s.rootv) ∧
    s.snk <+: t.snk

/-- R165: a step of one instance is that instance's own step and leaves every other instance as it was. -/
def Obligations.InstancesShareNothing : Prop :=
  ∀ (n : Nat) (ms ns : Vector State n) (i : Fin n), stepInstance ms i = .next ns →
    step ms[i.val] = .next ns[i.val] ∧ ∀ j : Fin n, j ≠ i → ns[j.val] = ms[j.val]
end

