-- ==== Sys2Proof/Laws/State.lean ====
section
/-! SUPPORT. One lemma per field per named update of the state: what each update writes, and that it writes nothing else. -/

namespace Sys2Proof.Machine

/-! ### `setFault`: the fault action (R152) -/

@[simp] theorem setFault_fault (c : FaultCode) (i : Byte) (s : State) : (setFault c i s).fault = c := rfl
@[simp] theorem setFault_finfo (c : FaultCode) (i : Byte) (s : State) : (setFault c i s).finfo = i := rfl
@[simp] theorem setFault_phase (c : FaultCode) (i : Byte) (s : State) : (setFault c i s).phase = s.phase := rfl
@[simp] theorem setFault_res (c : FaultCode) (i : Byte) (s : State) : (setFault c i s).res = s.res := rfl
@[simp] theorem setFault_wbuf (c : FaultCode) (i : Byte) (s : State) : (setFault c i s).wbuf = s.wbuf := rfl
@[simp] theorem setFault_wn (c : FaultCode) (i : Byte) (s : State) : (setFault c i s).wn = s.wn := rfl
@[simp] theorem setFault_rbuf (c : FaultCode) (i : Byte) (s : State) : (setFault c i s).rbuf = s.rbuf := rfl
@[simp] theorem setFault_rn (c : FaultCode) (i : Byte) (s : State) : (setFault c i s).rn = s.rn := rfl
@[simp] theorem setFault_sp (c : FaultCode) (i : Byte) (s : State) : (setFault c i s).sp = s.sp := rfl
@[simp] theorem setFault_snk (c : FaultCode) (i : Byte) (s : State) : (setFault c i s).snk = s.snk := rfl
@[simp] theorem setFault_freq (c : FaultCode) (i : Byte) (s : State) : (setFault c i s).freq = s.freq := rfl
@[simp] theorem setFault_node (c : FaultCode) (i : Byte) (s : State) : (setFault c i s).node = s.node := rfl
@[simp] theorem setFault_root (c : FaultCode) (i : Byte) (s : State) : (setFault c i s).root = s.root := rfl
@[simp] theorem setFault_rootv (c : FaultCode) (i : Byte) (s : State) : (setFault c i s).rootv = s.rootv := rfl
@[simp] theorem setFault_src (c : FaultCode) (i : Byte) (s : State) : (setFault c i s).src = s.src := rfl
@[simp] theorem setFault_pending (c : FaultCode) (i : Byte) (s : State) : (setFault c i s).pending = s.pending := rfl
@[simp] theorem setFault_freeTick (c : FaultCode) (i : Byte) (s : State) : (setFault c i s).freeTick = s.freeTick := rfl
/-! ### `scatter`: after a body fault (R157) -/

@[simp] theorem scatter_fault (s : State) : (scatter s).fault = s.fault := rfl
@[simp] theorem scatter_finfo (s : State) : (scatter s).finfo = s.finfo := rfl
@[simp] theorem scatter_phase (s : State) : (scatter s).phase = (Config.afterFault s.freeTick).phase := rfl
@[simp] theorem scatter_res (s : State) : (scatter s).res = (Config.afterFault s.freeTick).res := rfl
@[simp] theorem scatter_wbuf (s : State) : (scatter s).wbuf = (Config.afterFault s.freeTick).wbuf := rfl
@[simp] theorem scatter_wn (s : State) : (scatter s).wn = (Config.afterFault s.freeTick).wn := rfl
@[simp] theorem scatter_rbuf (s : State) : (scatter s).rbuf = (Config.afterFault s.freeTick).rbuf := rfl
@[simp] theorem scatter_rn (s : State) : (scatter s).rn = (Config.afterFault s.freeTick).rn := rfl
@[simp] theorem scatter_sp (s : State) : (scatter s).sp = (Config.afterFault s.freeTick).sp := rfl
@[simp] theorem scatter_snk (s : State) : (scatter s).snk = (Config.afterFault s.freeTick).snk := rfl
@[simp] theorem scatter_freq (s : State) : (scatter s).freq = (Config.afterFault s.freeTick).freq := rfl
@[simp] theorem scatter_node (s : State) : (scatter s).node = (Config.afterFault s.freeTick).node := rfl
@[simp] theorem scatter_root (s : State) : (scatter s).root = (Config.afterFault s.freeTick).root := rfl
@[simp] theorem scatter_rootv (s : State) : (scatter s).rootv = (Config.afterFault s.freeTick).rootv := rfl
@[simp] theorem scatter_src (s : State) : (scatter s).src = s.src := rfl
@[simp] theorem scatter_pending (s : State) : (scatter s).pending = s.pending := rfl
@[simp] theorem scatter_freeTick (s : State) : (scatter s).freeTick = s.freeTick + 1 := rfl
/-! ### `newSession`: reset (R27, R140) -/

@[simp] theorem newSession_fault (s : State) : (newSession s).fault = State.reset.fault := rfl
@[simp] theorem newSession_finfo (s : State) : (newSession s).finfo = State.reset.finfo := rfl
@[simp] theorem newSession_phase (s : State) : (newSession s).phase = State.reset.phase := rfl
@[simp] theorem newSession_res (s : State) : (newSession s).res = State.reset.res := rfl
@[simp] theorem newSession_wbuf (s : State) : (newSession s).wbuf = State.reset.wbuf := rfl
@[simp] theorem newSession_wn (s : State) : (newSession s).wn = State.reset.wn := rfl
@[simp] theorem newSession_rbuf (s : State) : (newSession s).rbuf = State.reset.rbuf := rfl
@[simp] theorem newSession_rn (s : State) : (newSession s).rn = State.reset.rn := rfl
@[simp] theorem newSession_sp (s : State) : (newSession s).sp = State.reset.sp := rfl
@[simp] theorem newSession_snk (s : State) : (newSession s).snk = State.reset.snk := rfl
@[simp] theorem newSession_freq (s : State) : (newSession s).freq = State.reset.freq := rfl
@[simp] theorem newSession_node (s : State) : (newSession s).node = State.reset.node := rfl
@[simp] theorem newSession_root (s : State) : (newSession s).root = State.reset.root := rfl
@[simp] theorem newSession_rootv (s : State) : (newSession s).rootv = State.reset.rootv := rfl
@[simp] theorem newSession_src (s : State) : (newSession s).src = s.src := rfl
@[simp] theorem newSession_pending (s : State) : (newSession s).pending = s.pending := rfl
@[simp] theorem newSession_freeTick (s : State) : (newSession s).freeTick = s.freeTick := rfl
/-! ### `snkPut`: one sink byte (R6, R42) -/

@[simp] theorem snkPut_fault (b : Byte) (s : State) : (snkPut b s).fault = s.fault := rfl
@[simp] theorem snkPut_finfo (b : Byte) (s : State) : (snkPut b s).finfo = s.finfo := rfl
@[simp] theorem snkPut_phase (b : Byte) (s : State) : (snkPut b s).phase = s.phase := rfl
@[simp] theorem snkPut_res (b : Byte) (s : State) : (snkPut b s).res = s.res := rfl
@[simp] theorem snkPut_wbuf (b : Byte) (s : State) : (snkPut b s).wbuf = s.wbuf := rfl
@[simp] theorem snkPut_wn (b : Byte) (s : State) : (snkPut b s).wn = s.wn := rfl
@[simp] theorem snkPut_rbuf (b : Byte) (s : State) : (snkPut b s).rbuf = s.rbuf := rfl
@[simp] theorem snkPut_rn (b : Byte) (s : State) : (snkPut b s).rn = s.rn := rfl
@[simp] theorem snkPut_sp (b : Byte) (s : State) : (snkPut b s).sp = s.sp := rfl
@[simp] theorem snkPut_snk (b : Byte) (s : State) : (snkPut b s).snk = s.snk ++ [b] := rfl
@[simp] theorem snkPut_freq (b : Byte) (s : State) : (snkPut b s).freq = s.freq := rfl
@[simp] theorem snkPut_node (b : Byte) (s : State) : (snkPut b s).node = s.node := rfl
@[simp] theorem snkPut_root (b : Byte) (s : State) : (snkPut b s).root = s.root := rfl
@[simp] theorem snkPut_rootv (b : Byte) (s : State) : (snkPut b s).rootv = s.rootv := rfl
@[simp] theorem snkPut_src (b : Byte) (s : State) : (snkPut b s).src = s.src := rfl
@[simp] theorem snkPut_pending (b : Byte) (s : State) : (snkPut b s).pending = s.pending := rfl
@[simp] theorem snkPut_freeTick (b : Byte) (s : State) : (snkPut b s).freeTick = s.freeTick := rfl
/-! ### `emitByte`: the writer emits its byte (R80) -/

@[simp] theorem emitByte_fault (s : State) : (emitByte s).fault = s.fault := rfl
@[simp] theorem emitByte_finfo (s : State) : (emitByte s).finfo = s.finfo := rfl
@[simp] theorem emitByte_phase (s : State) : (emitByte s).phase = s.phase := rfl
@[simp] theorem emitByte_res (s : State) : (emitByte s).res = s.res := rfl
@[simp] theorem emitByte_wbuf (s : State) : (emitByte s).wbuf = 0#8 := rfl
@[simp] theorem emitByte_wn (s : State) : (emitByte s).wn = 0 := rfl
@[simp] theorem emitByte_rbuf (s : State) : (emitByte s).rbuf = s.rbuf := rfl
@[simp] theorem emitByte_rn (s : State) : (emitByte s).rn = s.rn := rfl
@[simp] theorem emitByte_sp (s : State) : (emitByte s).sp = s.sp := rfl
@[simp] theorem emitByte_snk (s : State) : (emitByte s).snk = s.snk ++ [s.wbuf] := rfl
@[simp] theorem emitByte_freq (s : State) : (emitByte s).freq = s.freq := rfl
@[simp] theorem emitByte_node (s : State) : (emitByte s).node = s.node := rfl
@[simp] theorem emitByte_root (s : State) : (emitByte s).root = s.root := rfl
@[simp] theorem emitByte_rootv (s : State) : (emitByte s).rootv = s.rootv := rfl
@[simp] theorem emitByte_src (s : State) : (emitByte s).src = s.src := rfl
@[simp] theorem emitByte_pending (s : State) : (emitByte s).pending = s.pending := rfl
@[simp] theorem emitByte_freeTick (s : State) : (emitByte s).freeTick = s.freeTick := rfl
/-! ### `placeBit`: one bit into the writer's buffer (R80) -/

@[simp] theorem placeBit_fault (b : Bool) (s : State) : (placeBit b s).fault = s.fault := rfl
@[simp] theorem placeBit_finfo (b : Bool) (s : State) : (placeBit b s).finfo = s.finfo := rfl
@[simp] theorem placeBit_phase (b : Bool) (s : State) : (placeBit b s).phase = s.phase := rfl
@[simp] theorem placeBit_res (b : Bool) (s : State) : (placeBit b s).res = s.res := rfl
@[simp] theorem placeBit_wbuf (b : Bool) (s : State) : (placeBit b s).wbuf = putStreamBit s.wbuf s.wn.val b := rfl
@[simp] theorem placeBit_wn (b : Bool) (s : State) : (placeBit b s).wn = s.wn + 1 := rfl
@[simp] theorem placeBit_rbuf (b : Bool) (s : State) : (placeBit b s).rbuf = s.rbuf := rfl
@[simp] theorem placeBit_rn (b : Bool) (s : State) : (placeBit b s).rn = s.rn := rfl
@[simp] theorem placeBit_sp (b : Bool) (s : State) : (placeBit b s).sp = s.sp := rfl
@[simp] theorem placeBit_snk (b : Bool) (s : State) : (placeBit b s).snk = s.snk := rfl
@[simp] theorem placeBit_freq (b : Bool) (s : State) : (placeBit b s).freq = s.freq := rfl
@[simp] theorem placeBit_node (b : Bool) (s : State) : (placeBit b s).node = s.node := rfl
@[simp] theorem placeBit_root (b : Bool) (s : State) : (placeBit b s).root = s.root := rfl
@[simp] theorem placeBit_rootv (b : Bool) (s : State) : (placeBit b s).rootv = s.rootv := rfl
@[simp] theorem placeBit_src (b : Bool) (s : State) : (placeBit b s).src = s.src := rfl
@[simp] theorem placeBit_pending (b : Bool) (s : State) : (placeBit b s).pending = s.pending := rfl
@[simp] theorem placeBit_freeTick (b : Bool) (s : State) : (placeBit b s).freeTick = s.freeTick := rfl
/-! ### `setFreq`: one table entry (R21) -/

@[simp] theorem setFreq_fault (x : Byte) (f : Freq) (s : State) : (setFreq x f s).fault = s.fault := rfl
@[simp] theorem setFreq_finfo (x : Byte) (f : Freq) (s : State) : (setFreq x f s).finfo = s.finfo := rfl
@[simp] theorem setFreq_phase (x : Byte) (f : Freq) (s : State) : (setFreq x f s).phase = s.phase := rfl
@[simp] theorem setFreq_res (x : Byte) (f : Freq) (s : State) : (setFreq x f s).res = s.res := rfl
@[simp] theorem setFreq_wbuf (x : Byte) (f : Freq) (s : State) : (setFreq x f s).wbuf = s.wbuf := rfl
@[simp] theorem setFreq_wn (x : Byte) (f : Freq) (s : State) : (setFreq x f s).wn = s.wn := rfl
@[simp] theorem setFreq_rbuf (x : Byte) (f : Freq) (s : State) : (setFreq x f s).rbuf = s.rbuf := rfl
@[simp] theorem setFreq_rn (x : Byte) (f : Freq) (s : State) : (setFreq x f s).rn = s.rn := rfl
@[simp] theorem setFreq_sp (x : Byte) (f : Freq) (s : State) : (setFreq x f s).sp = s.sp := rfl
@[simp] theorem setFreq_snk (x : Byte) (f : Freq) (s : State) : (setFreq x f s).snk = s.snk := rfl
@[simp] theorem setFreq_freq (x : Byte) (f : Freq) (s : State) : (setFreq x f s).freq = s.freq.set x.toNat f x.isLt := rfl
@[simp] theorem setFreq_node (x : Byte) (f : Freq) (s : State) : (setFreq x f s).node = s.node := rfl
@[simp] theorem setFreq_root (x : Byte) (f : Freq) (s : State) : (setFreq x f s).root = s.root := rfl
@[simp] theorem setFreq_rootv (x : Byte) (f : Freq) (s : State) : (setFreq x f s).rootv = s.rootv := rfl
@[simp] theorem setFreq_src (x : Byte) (f : Freq) (s : State) : (setFreq x f s).src = s.src := rfl
@[simp] theorem setFreq_pending (x : Byte) (f : Freq) (s : State) : (setFreq x f s).pending = s.pending := rfl
@[simp] theorem setFreq_freeTick (x : Byte) (f : Freq) (s : State) : (setFreq x f s).freeTick = s.freeTick := rfl
end Sys2Proof.Machine
end

