-- ==== Sys2Proof/Laws/Ops.lean ====
section
/-! SUPPORT. What the shared operations can do, said once: how pseudocode lines compose, how a command ends, reset, the
byte spaces. -/

namespace Sys2Proof.Machine

variable {α β : Type}

/-! ### Sequencing -/

@[simp] theorem bind_done (a : α) (s : State) (k : α → State → Result β) : (Result.done a s).bind k = k a s := rfl

@[simp] theorem bind_raised (p : RaisePoint) (c : FaultCode) (i : Byte) (k : α → State → Result β) :
    (Result.raised p c i : Result α).bind k = .raised p c i := rfl

@[simp] theorem bind_stopped (f : Fault) (k : α → State → Result β) :
    (Result.stopped f : Result α).bind k = .stopped f := rfl

@[simp] theorem inner_done (a : α) (s : State) : (Result.done a s).inner = .done a s := rfl

@[simp] theorem inner_raised (p : RaisePoint) (c : FaultCode) (i : Byte) :
    (Result.raised p c i : Result α).inner = .raised .body c i := rfl

@[simp] theorem inner_stopped (f : Fault) : (Result.stopped f : Result α).inner = .stopped f := rfl

theorem bind_eq_done {r : Result α} {k : α → State → Result β} {b : β} {t : State} :
    r.bind k = .done b t ↔ ∃ a s, r = .done a s ∧ k a s = .done b t := by
  cases r <;> simp

theorem bind_eq_raised {r : Result α} {k : α → State → Result β} {p : RaisePoint} {c : FaultCode} {i : Byte} :
    r.bind k = .raised p c i ↔ r = .raised p c i ∨ ∃ a s, r = .done a s ∧ k a s = .raised p c i := by
  cases r <;> simp

theorem bind_eq_stopped {r : Result α} {k : α → State → Result β} {f : Fault} :
    r.bind k = .stopped f ↔ r = .stopped f ∨ ∃ a s, r = .done a s ∧ k a s = .stopped f := by
  cases r <;> simp

theorem inner_eq_done {r : Result α} {a : α} {t : State} : r.inner = .done a t ↔ r = .done a t := by
  cases r <;> simp

theorem inner_eq_raised {r : Result α} {p : RaisePoint} {c : FaultCode} {i : Byte} :
    r.inner = .raised p c i ↔ p = .body ∧ ∃ q, r = .raised q c i := by
  cases r <;> simp [eq_comm]

theorem inner_eq_stopped {r : Result α} {f : Fault} : r.inner = .stopped f ↔ r = .stopped f := by
  cases r <;> simp

@[simp] theorem require_true (c : FaultCode) (i : Byte) (k : Result α) : require true c i k = k := rfl

@[simp] theorem require_false (c : FaultCode) (i : Byte) (k : Result α) :
    require false c i k = .raised .entry c i := rfl

theorem require_eq_done {b : Bool} {c : FaultCode} {i : Byte} {k : Result α} {a : α} {t : State} :
    require b c i k = .done a t ↔ b = true ∧ k = .done a t := by
  cases b <;> simp

theorem require_eq_raised {b : Bool} {c c' : FaultCode} {i i' : Byte} {k : Result α} {p : RaisePoint} :
    require b c i k = .raised p c' i' ↔
      (b = false ∧ p = .entry ∧ c' = c ∧ i' = i) ∨ (b = true ∧ k = .raised p c' i') := by
  cases b <;> simp [eq_comm]

theorem require_eq_stopped {b : Bool} {c : FaultCode} {i : Byte} {k : Result α} {f : Fault} :
    require b c i k = .stopped f ↔ b = true ∧ k = .stopped f := by
  cases b <;> simp

/-! ### How a command ends (R151, R152) -/

@[simp] theorem faulted_eq_false {s : State} : faulted s = false ↔ s.fault = .ok := by simp [faulted]

@[simp] theorem faulted_eq_true {s : State} : faulted s = true ↔ s.fault ≠ .ok := by simp [faulted]

theorem command_faulted {op : State → Result Unit} {s : State} (h : s.fault ≠ .ok) : command op s = .next s := by
  simp [command, h]

theorem command_done {op : State → Result Unit} {s t : State} (h : s.fault = .ok) (ho : op s = .done () t) :
    command op s = .next t := by simp [command, h, ho]

theorem command_raised {op : State → Result Unit} {s : State} {p : RaisePoint} {c : FaultCode} {i : Byte}
    (h : s.fault = .ok) (ho : op s = .raised p c i) : command op s = .next (takeFault p c i s) := by
  simp [command, h, ho]

theorem command_stopped {op : State → Result Unit} {s : State} {f : Fault} (h : s.fault = .ok)
    (ho : op s = .stopped f) : command op s = .fault f := by simp [command, h, ho]

/-- Everything a command can end in when it answers a next state. -/
theorem command_cases {op : State → Result Unit} {s t : State} (h : command op s = .next t) :
    (s.fault ≠ .ok ∧ t = s) ∨
      (s.fault = .ok ∧ (op s = .done () t ∨ ∃ p c i, op s = .raised p c i ∧ t = takeFault p c i s)) := by
  by_cases hf : s.fault = .ok
  · refine .inr ⟨hf, ?_⟩
    cases ho : op s with
    | done a u => exact .inl (by simpa [command, hf, ho] using h)
    | raised p c i =>
      rw [command_raised hf ho] at h
      exact .inr ⟨p, c, i, rfl, (Host.Outcome.next.inj h).symm⟩
    | stopped f => simp [command_stopped hf ho] at h
  · rw [command_faulted hf] at h
    exact .inl ⟨hf, (Host.Outcome.next.inj h).symm⟩

/-- A command stops the model exactly when its operation does. -/
theorem command_eq_fault {op : State → Result Unit} {s : State} {f : Fault} :
    command op s = .fault f ↔ s.fault = .ok ∧ op s = .stopped f := by
  by_cases hf : s.fault = .ok
  · cases ho : op s <;> simp [command, hf, ho]
  · simp [command, hf]

theorem command_not_refused (op : State → Result Unit) (s : State) (r : Refusal) : command op s ≠ .refused r := by
  by_cases hf : s.fault = .ok
  · cases ho : op s <;> simp [command, hf, ho]
  · simp [command, hf]

@[simp] theorem takeFault_fault (p : RaisePoint) (c : FaultCode) (i : Byte) (s : State) :
    (takeFault p c i s).fault = c := by cases p <;> rfl

@[simp] theorem takeFault_finfo (p : RaisePoint) (c : FaultCode) (i : Byte) (s : State) :
    (takeFault p c i s).finfo = i := by cases p <;> rfl

@[simp] theorem takeFault_src (p : RaisePoint) (c : FaultCode) (i : Byte) (s : State) :
    (takeFault p c i s).src = s.src := by cases p <;> rfl

@[simp] theorem takeFault_pending (p : RaisePoint) (c : FaultCode) (i : Byte) (s : State) :
    (takeFault p c i s).pending = s.pending := by cases p <;> rfl

theorem takeFault_entry (c : FaultCode) (i : Byte) (s : State) :
    takeFault .entry c i s = { s with fault := c, finfo := i } := rfl

/-! ### Reset -/

theorem newSession_idem (s : State) : newSession (newSession s) = newSession s := rfl

theorem newSession_reset : newSession State.reset = State.reset := rfl

/-! ### Byte spaces -/

theorem cells_wf (m : Memory) : Memory.wf m := by
  apply List.ext_getElem <;> simp [cells]

theorem snkPut_wf (b : Byte) (s : State) : Memory.wf (snkPut b s).snk := cells_wf _

theorem reset_wf : Memory.wf State.reset.src ∧ Memory.wf State.reset.snk := ⟨cells_wf _, cells_wf _⟩

theorem srcByte_eq_none {s : State} {i : Nat} : srcByte s i = none ↔ s.slen ≤ i := by simp [srcByte]

end Sys2Proof.Machine
end

