-- ==== Sys2Proof/Laws/Operands.lean ====
section
/-! SUPPORT. The bit orders of R46 and the helper functions of R7: lengths, values, round trips. -/

namespace Sys2Proof.Machine

/-! ### Fields into bits -/

@[simp] theorem lsbFirst_length (w v : Nat) : (lsbFirst w v).length = w := by simp [lsbFirst]

theorem lsbFirst_succ (w v : Nat) : lsbFirst (w + 1) v = v.testBit 0 :: lsbFirst w (v / 2) := by
  simp only [lsbFirst, List.range_succ_eq_map, List.map_cons, List.map_map, List.cons.injEq, true_and]
  apply List.map_congr_left
  intro k _
  simp [Nat.testBit_succ]

@[simp] theorem lsbFirst_zero (v : Nat) : lsbFirst 0 v = [] := rfl

/-- Reading a field back gives the low bits of what was written (R66, R93). -/
theorem lsbValue_lsbFirst (w v : Nat) : lsbValue (lsbFirst w v) = v % 2 ^ w := by
  induction w generalizing v with
  | zero => simp [lsbValue, Nat.mod_one]
  | succ w ih =>
    rw [lsbFirst_succ, lsbValue, ih, Nat.pow_succ, Nat.mul_comm (2 ^ w) 2, Nat.mod_mul]
    congr 1
    rcases Nat.mod_two_eq_zero_or_one v with h | h <;> simp [Nat.testBit_zero, h]

theorem lsbValue_lt (bs : List Bool) : lsbValue bs < 2 ^ bs.length := by
  induction bs with
  | nil => simp [lsbValue]
  | cons b bs ih => cases b <;> simp [lsbValue, Nat.pow_succ] <;> omega

/-- A field of a bit sequence is the sequence again when it is written with the same width. -/
theorem lsbFirst_lsbValue (bs : List Bool) : lsbFirst bs.length (lsbValue bs) = bs := by
  induction bs with
  | nil => rfl
  | cons b bs ih =>
    rw [List.length_cons, lsbFirst_succ, lsbValue]
    have h1 : (b.toNat + 2 * lsbValue bs).testBit 0 = b := by cases b <;> simp [Nat.testBit_zero]
    have h2 : (b.toNat + 2 * lsbValue bs) / 2 = lsbValue bs := by cases b <;> simp; omega
    rw [h1, h2, ih]

/-! ### Bits into bytes -/

@[simp] theorem byteBits_length (b : Byte) : (byteBits b).length = 8 := by simp [byteBits]

theorem byteBits_getElem (b : Byte) (k : Nat) (h : k < (byteBits b).length) : (byteBits b)[k] = streamBit b k := by
  simp [byteBits]

theorem byteBits_injective {a b : Byte} (h : byteBits a = byteBits b) : a = b := by
  apply BitVec.eq_of_getMsbD_eq
  intro k hk
  have hk' : k < (byteBits a).length := by simpa using hk
  have := List.getElem_of_eq h hk'
  simpa [byteBits_getElem, streamBit] using this

@[simp] theorem streamBits_nil : streamBits [] = [] := rfl

@[simp] theorem streamBits_cons (b : Byte) (m : Memory) : streamBits (b :: m) = byteBits b ++ streamBits m := rfl

@[simp] theorem streamBits_append (m n : Memory) : streamBits (m ++ n) = streamBits m ++ streamBits n := by
  simp [streamBits]

@[simp] theorem streamBits_length (m : Memory) : (streamBits m).length = 8 * m.length := by
  induction m with
  | nil => rfl
  | cons b m ih => simp [ih]; omega

/-- Stream bit `8 j + k` is bit `k` of byte `j` (R46 (1)). -/
theorem streamBits_getElem? (m : Memory) (j k : Nat) (hk : k < 8) :
    (streamBits m)[8 * j + k]? = m[j]?.map (streamBit · k) := by
  induction m generalizing j with
  | nil => simp
  | cons b m ih =>
    cases j with
    | zero => rw [streamBits_cons, List.getElem?_append_left (by simp; omega)]; simp [byteBits, hk]
    | succ j =>
      rw [streamBits_cons, List.getElem?_append_right (by simp; omega)]
      simpa [show 8 * (j + 1) + k - 8 = 8 * j + k by omega] using ih j

theorem streamBits_injective : ∀ {m n : Memory}, streamBits m = streamBits n → m = n
  | [], [], _ => rfl
  | [], b :: n, h => by have := congrArg List.length h; simp at this; omega
  | b :: m, [], h => by have := congrArg List.length h; simp at this
  | a :: m, b :: n, h => by
    obtain ⟨h1, h2⟩ := List.append_inj h (by simp)
    rw [byteBits_injective h1, streamBits_injective h2]

theorem streamBit_putStreamBit (b : Byte) (k j : Nat) (x : Bool) (hk : k < 8) (hj : j < 8) :
    streamBit (putStreamBit b k x) j = if j = k then x else streamBit b j := by
  have h : ∀ (b : Byte) (k j : Fin 8) (x : Bool),
      streamBit (putStreamBit b k.val x) j.val = if j.val = k.val then x else streamBit b j.val := by
    intro b k j x
    fin_cases k <;> fin_cases j <;> cases x <;> simp [streamBit, putStreamBit, BitVec.getMsbD]
  exact h b ⟨k, hk⟩ ⟨j, hj⟩ x

/-! ### Helper functions -/

theorem bitlen_zero : bitlen 0 = 0 := rfl

/-- `bitlen(x)` bits hold `x` (R7). -/
theorem lt_two_pow_bitlen (x : Nat) : x < 2 ^ bitlen x := by
  unfold bitlen
  split
  · subst_vars; simp
  · exact Nat.lt_log2_self

theorem bitlen_le_of_lt {x n : Nat} (h : x < 2 ^ n) : bitlen x ≤ n := by
  unfold bitlen
  split
  · omega
  · rename_i hx
    have := (Nat.log2_lt hx).mpr h
    omega

theorem mem_symbols (x : Byte) : x ∈ symbols := by
  simp only [symbols, List.mem_map, List.mem_range]
  exact ⟨x.toNat, x.isLt, by simp⟩

theorem mem_presentSymbols {freq : Vector Freq 256} {x : Byte} :
    x ∈ presentSymbols freq ↔ freqOf freq x ≠ 0#31 := by
  simp [presentSymbols, mem_symbols]

theorem symbols_nodup : symbols.Nodup := by
  refine (List.nodup_range (n := 256)).map_on ?_
  intro a ha b hb h
  have := congrArg BitVec.toNat h
  simp only [BitVec.toNat_ofNat] at this
  have ha := List.mem_range.mp ha
  have hb := List.mem_range.mp hb
  omega

theorem presentSymbols_nodup (freq : Vector Freq 256) : (presentSymbols freq).Nodup := symbols_nodup.filter _

theorem nsym_le (freq : Vector Freq 256) : nsym freq ≤ 256 :=
  (List.length_filter_le _ _).trans (by simp [symbols])

@[simp] theorem leafSlot_val (x : Byte) : (leafSlot x).val = x.toNat := rfl

theorem leafSlot_injective {x y : Byte} (h : leafSlot x = leafSlot y) : x = y :=
  BitVec.eq_of_toNat_eq (by simpa using congrArg (fun i : NodeIdx => i.val) h)

@[simp] theorem isLeaf_leafSlot (x : Byte) : isLeaf (leafSlot x) = true :=
  decide_eq_true x.isLt

theorem isLeaf_eq_true {i : NodeIdx} : isLeaf i = true ↔ i.val < 256 := by simp [isLeaf, Config.firstInternal]

theorem isLeaf_eq_false {i : NodeIdx} : isLeaf i = false ↔ 256 ≤ i.val := by simp [isLeaf, Config.firstInternal]

theorem isLeaf_iff {i : NodeIdx} : isLeaf i = true ↔ ∃ x, i = leafSlot x := by
  constructor
  · intro h
    have h : i.val < 256 := by simpa [isLeaf] using h
    exact ⟨BitVec.ofNat 8 i.val, Fin.ext (by simp; omega)⟩
  · rintro ⟨x, rfl⟩; simp

@[simp] theorem symbolOf_leafSlot (x : Byte) : symbolOf (leafSlot x) = x := by simp [symbolOf]

end Sys2Proof.Machine
end

