-- ==== Sys2Proof/Laws/BitReader.lean ====
section
/-! SUPPORT. What the bit reader can do (R90 to R93): each request delivers the next source bit, or raises TRUNCATED when
none is left; it touches nothing but `RBUF`, `RN`, `SP`. -/

namespace Sys2Proof.Machine

open Safety

/-- The reader touches `RBUF`, `RN` and `SP`, nothing else. -/
def SameButReader (s t : State) : Prop := t = { s with rbuf := t.rbuf, rn := t.rn, sp := t.sp }

theorem SameButReader.refl (s : State) : SameButReader s s := rfl

theorem SameButReader.trans {s t u : State} (h : SameButReader s t) (k : SameButReader t u) : SameButReader s u := by
  unfold SameButReader at *
  rw [k, h]

theorem readerPos_le {s : State} (h : ReaderOk s) : readerPos s ≤ 8 * s.slen := by
  have := h.inside
  simp only [readerPos]; omega

theorem bitsAhead_length (s : State) : (bitsAhead s).length = 8 * s.slen - readerPos s := by
  simp [bitsAhead]

/-- The bits ahead are the unread bits of `RBUF` and then the source bytes from `SP` on (R18, R19). -/
theorem bitsAhead_eq {s : State} (h : ReaderOk s) :
    bitsAhead s = (byteBits s.rbuf).drop s.rn.val ++ streamBits (s.src.drop s.sp) := by
  have hin := h.inside
  have key : ∀ (m : Memory) (p : Nat), (streamBits m).drop (8 * p) = streamBits (m.drop p) := by
    intro m
    induction m with
    | nil => simp
    | cons b m ih =>
      intro p
      cases p with
      | zero => simp
      | succ p =>
        rw [streamBits_cons, show 8 * (p + 1) = (byteBits b).length + 8 * p by simp; omega, ← List.drop_drop]
        simpa using ih p
  rcases Nat.lt_or_ge s.rn.val 8 with hlt | hge
  · obtain ⟨hp, hb⟩ := h.held hlt
    obtain ⟨hl, hb⟩ := List.getElem?_eq_some_iff.mp hb
    rw [bitsAhead, readerPos, show 8 * s.sp - (8 - s.rn.val) = 8 * (s.sp - 1) + s.rn.val by omega,
      ← List.drop_drop, key, List.drop_eq_getElem_cons hl, hb, streamBits_cons,
      List.drop_append_of_le_length (by simp; omega), Nat.sub_add_cancel hp]
  · have h8 : s.rn.val = 8 := by omega
    have hd : (byteBits s.rbuf).drop 8 = [] := List.drop_of_length_le (by simp)
    rw [bitsAhead, readerPos, h8, hd, List.nil_append, Nat.sub_self, Nat.sub_zero, key]

/-- `bitsLeft` counts the bits ahead. -/
theorem bitsLeft_eq {s : State} (h : ReaderOk s) : bitsLeft s = (bitsAhead s).length := by
  have := h.inside
  rw [bitsAhead_eq h]
  simp [bitsLeft, State.slen]; omega

/-- One request (R90): the next bit of the source, or TRUNCATED when none is left. -/
theorem nextBit_spec {s : State} (h : ReaderOk s) :
    (bitsAhead s = [] ∧ nextBit s = formatError .truncated) ∨
      ∃ b t, bitsAhead s = b :: bitsAhead t ∧ nextBit s = .done b t ∧ ReaderOk t ∧ SameButReader s t ∧
        readerPos t = readerPos s + 1 := by
  have take : ∀ u : State, ReaderOk u → u.rn.val < 8 →
      ∃ b t, bitsAhead u = b :: bitsAhead t ∧ takeBit u = .done b t ∧ ReaderOk t ∧ SameButReader u t ∧
        readerPos t = readerPos u + 1 := by
    intro u hu hlt
    have hv : (u.rn + 1 : BitCount).val = u.rn.val + 1 := by simp [Fin.val_add]; omega
    obtain ⟨hp, hb⟩ := hu.held hlt
    have hok : ReaderOk { u with rn := u.rn + 1 } := ⟨hu.inside, fun _ => ⟨hp, hb⟩⟩
    refine ⟨_, _, ?_, rfl, hok, rfl, by simp only [readerPos, hv]; omega⟩
    rw [bitsAhead_eq hu, bitsAhead_eq hok, List.drop_eq_getElem_cons (by simp; omega), byteBits_getElem]
    simp [hv]
  rcases Nat.lt_or_ge s.rn.val 8 with hlt | hge
  · have h8 : s.rn ≠ 8 := fun e => by simp [e] at hlt
    right
    simpa [nextBit, refillIfUsed, h8] using take s h hlt
  · have h8 : s.rn = 8 := Fin.ext (by simp; omega)
    by_cases hs : s.sp = s.slen
    · left
      refine ⟨?_, by simp [nextBit, refillIfUsed, h8, refill, hs, formatError]⟩
      rw [bitsAhead_eq h, h8, hs, List.drop_of_length_le (by simp), List.drop_of_length_le (by simp)]
      rfl
    · right
      have hin : s.sp < s.src.length := Nat.lt_of_le_of_ne h.inside hs
      let u : State := { s with rbuf := s.src[s.sp], sp := s.sp + 1, rn := 0 }
      have hu : ReaderOk u := ⟨hin, fun _ => ⟨by simp [u], by simp [u, hin]⟩⟩
      obtain ⟨b, t, e1, e2, e3, e4, e5⟩ := take u hu (by simp [u])
      have hr : nextBit s = takeBit u := by
        simp [nextBit, refillIfUsed, h8, refill, hs, srcByte, hin, u]
      refine ⟨b, t, ?_, by rw [hr, e2], e3, ?_, ?_⟩
      · have hd : (byteBits s.rbuf).drop 8 = [] := List.drop_of_length_le (by simp)
        rw [← e1, bitsAhead_eq h, bitsAhead_eq hu]
        simp only [u, h8, Fin.val_zero, List.drop_zero]
        rw [show ((8 : BitCount).val) = 8 from rfl, hd, List.drop_eq_getElem_cons hin]
        rfl
      · exact SameButReader.trans (show SameButReader s u from rfl) e4
      · rw [e5]; simp [readerPos, u, h8]; omega

/-- When no bit is left a request faults: the last line of `descend` is never reached. -/
theorem nextBit_none_left {s : State} (h : ReaderOk s) (h0 : bitsLeft s = 0) :
    nextBit s = formatError .truncated := by
  rw [bitsLeft_eq h] at h0
  rcases nextBit_spec h with ⟨_, h⟩ | ⟨b, t, hb, _⟩
  · exact h
  · simp [hb] at h0

/-- `n` requests (R90, R93): the next `n` bits of the source, or TRUNCATED when there are fewer. -/
theorem nextBits_spec (n : Nat) {s : State} (h : ReaderOk s) :
    ((bitsAhead s).length < n ∧ nextBits n s = formatError .truncated) ∨
      ∃ t, n ≤ (bitsAhead s).length ∧ nextBits n s = .done ((bitsAhead s).take n) t ∧ ReaderOk t ∧
        SameButReader s t ∧ bitsAhead t = (bitsAhead s).drop n ∧ readerPos t = readerPos s + n := by
  induction n generalizing s with
  | zero => exact .inr ⟨s, by simp, by simp [nextBits], h, .refl s, by simp, by simp⟩
  | succ n ih =>
    rcases nextBit_spec h with ⟨h1, h2⟩ | ⟨b, t, h1, h2, h3, h4, h5⟩
    · exact .inl ⟨by simp [h1], by simp [nextBits, h2, formatError]⟩
    · rcases ih h3 with ⟨k1, k2⟩ | ⟨u, k1, k2, k3, k4, k5, k6⟩
      · exact .inl ⟨by simp [h1, k1], by simp [nextBits, h2, k2, formatError]⟩
      · exact .inr ⟨u, by simp [h1, k1], by simp [nextBits, h1, h2, k2], k3, h4.trans k4, by simp [h1, k5],
          by omega⟩

/-- A field read (R91, R92): the value of the next `w` bits, or TRUNCATED. -/
theorem readField_spec (w : Nat) {s : State} (h : ReaderOk s) :
    ((bitsAhead s).length < w ∧ readField w s = formatError .truncated) ∨
      ∃ t, w ≤ (bitsAhead s).length ∧ readField w s = .done (lsbValue ((bitsAhead s).take w)) t ∧ ReaderOk t ∧
        SameButReader s t ∧ bitsAhead t = (bitsAhead s).drop w ∧ readerPos t = readerPos s + w := by
  rcases nextBits_spec w h with ⟨h1, h2⟩ | ⟨t, h1, h2, h3⟩
  · exact .inl ⟨h1, by simp [readField, h2, formatError]⟩
  · exact .inr ⟨t, h1, by simp [readField, h2], h3⟩

/-- A field written by the writer is read back (R93): when the bits ahead begin with the field, its low `w` bits come
out and the reader stands behind it. -/
theorem readField_lsbFirst (w v : Nat) {s : State} {rest : List Bool} (h : ReaderOk s)
    (hb : bitsAhead s = lsbFirst w v ++ rest) :
    ∃ t, readField w s = .done (v % 2 ^ w) t ∧ ReaderOk t ∧ SameButReader s t ∧ bitsAhead t = rest ∧
      readerPos t = readerPos s + w := by
  rcases readField_spec w h with ⟨h1, _⟩ | ⟨t, _, h2, h3, h4, h5, h6⟩
  · simp [hb] at h1
  · refine ⟨t, ?_, h3, h4, ?_, h6⟩
    · rw [h2, hb, List.take_left' (by simp), lsbValue_lsbFirst]
    · rw [h5, hb, List.drop_left' (by simp)]

theorem SameButReader.src {s t : State} (h : SameButReader s t) : t.src = s.src := by rw [h]
theorem SameButReader.freq {s t : State} (h : SameButReader s t) : t.freq = s.freq := by rw [h]
theorem SameButReader.node {s t : State} (h : SameButReader s t) : t.node = s.node := by rw [h]
theorem SameButReader.root {s t : State} (h : SameButReader s t) : t.root = s.root := by rw [h]
theorem SameButReader.rootv {s t : State} (h : SameButReader s t) : t.rootv = s.rootv := by rw [h]
theorem SameButReader.phase {s t : State} (h : SameButReader s t) : t.phase = s.phase := by rw [h]

/-- A reader at the start of its source has all of it ahead (R27, R93). -/
theorem bitsAhead_start {s : State} (h1 : s.sp = 0) (h2 : s.rn = 8) : bitsAhead s = streamBits s.src := by
  simp [bitsAhead, readerPos, h1, h2]

theorem readerOk_start {s : State} (h1 : s.sp = 0) (h2 : s.rn = 8) : ReaderOk s :=
  ⟨by simp [h1], by simp [h2]⟩

end Sys2Proof.Machine
end

