-- ==== Sys2Proof/Laws/BitWriter.lean ====
section
/-! SUPPORT. What the bit writer can do (R80 to R84): each write appends exactly its bits, keeps the writer in order, and
touches nothing but `WBUF`, `WN` and the sink. -/

namespace Sys2Proof.Machine

open Safety

/-- The writer touches `WBUF`, `WN` and the sink, nothing else. -/
def SameButWriter (s t : State) : Prop := t = { s with wbuf := t.wbuf, wn := t.wn, snk := t.snk }

theorem SameButWriter.refl (s : State) : SameButWriter s s := rfl

theorem SameButWriter.trans {s t u : State} (h : SameButWriter s t) (k : SameButWriter t u) : SameButWriter s u := by
  unfold SameButWriter at *
  rw [k, h]

theorem emitByte_frame (s : State) : SameButWriter s (emitByte s) := rfl

theorem placeBit_frame (b : Bool) (s : State) : SameButWriter s (placeBit b s) := rfl

theorem emitIfFull_frame (s : State) : SameButWriter s (emitIfFull s) := by
  unfold emitIfFull; split
  · exact emitByte_frame s
  · exact .refl s

theorem writeBit_frame (b : Bool) (s : State) : SameButWriter s (writeBit b s) :=
  ((emitIfFull_frame s).trans (placeBit_frame b _)).trans (emitIfFull_frame _)

theorem writeBits_frame (bs : List Bool) (s : State) : SameButWriter s (writeBits bs s) := by
  induction bs generalizing s with
  | nil => exact .refl s
  | cons b bs ih => exact (writeBit_frame b s).trans (ih _)

theorem flushWriter_frame (s : State) : SameButWriter s (flushWriter s) := by
  unfold flushWriter; split
  · exact emitByte_frame s
  · exact .refl s

/-- R80: with room in the buffer and fewer than seven bits held, the bit goes into the buffer. -/
theorem writeBit_room {b : Bool} {s : State} (h : s.wn.val < 7) : writeBit b s = placeBit b s := by
  have h1 : s.wn ≠ 8 := fun e => by simp [e] at h
  have h2 : s.wn + 1 ≠ 8 := fun e => by
    have := congrArg (fun i : BitCount => i.val) e
    simp [Fin.val_add] at this; omega
  simp [writeBit, emitIfFull, h1, h2]

/-- R80 corner case 2: the eighth bit makes the byte appear in the sink within the same WBIT. -/
theorem writeBit_last {b : Bool} {s : State} (h : s.wn.val = 7) : writeBit b s = emitByte (placeBit b s) := by
  have e : s.wn = 7 := Fin.ext h
  simp [writeBit, emitIfFull, placeBit, e]

theorem streamBit_zero (k : Nat) : streamBit 0#8 k = false := by simp [streamBit]

theorem take_byteBits_put (b : Byte) (n : Nat) (x : Bool) (h : n < 8) :
    (byteBits (putStreamBit b n x)).take (n + 1) = (byteBits b).take n ++ [x] := by
  apply List.ext_getElem
  · simp; omega
  · intro k h1 h2
    have hk : k < n + 1 := by simp at h1; omega
    rw [List.getElem_take, byteBits_getElem, streamBit_putStreamBit b n k x h (by omega)]
    rcases Nat.lt_or_ge k n with hlt | hge
    · rw [List.getElem_append_left (by simp; omega)]
      simp [byteBits_getElem, Nat.ne_of_lt hlt]
    · have : k = n := by omega
      subst this
      simp [List.getElem_append_right, Nat.min_eq_left (Nat.le_of_lt h)]

/-- One bit written (R80): it is appended to the stream and the writer stays in order. -/
theorem writeBit_spec (b : Bool) {s : State} (h : WriterOk s) :
    WriterOk (writeBit b s) ∧ writtenBits (writeBit b s) = writtenBits s ++ [b] := by
  rcases Nat.lt_or_ge s.wn.val 7 with hlt | hge
  · have hv : (s.wn + 1 : BitCount).val = s.wn.val + 1 := by simp [Fin.val_add]; omega
    rw [writeBit_room hlt]
    refine ⟨⟨by simp only [placeBit_wn]; omega, fun k hk hk8 => ?_⟩, ?_⟩
    · simp only [placeBit_wn, placeBit_wbuf] at *
      rw [streamBit_putStreamBit _ _ _ _ (by omega) hk8, if_neg (by omega)]
      exact h.clean k (by omega) hk8
    · simp only [writtenBits, placeBit_snk, placeBit_wbuf, placeBit_wn, hv]
      rw [take_byteBits_put _ _ _ (by omega), List.append_assoc]
  · have hw : s.wn.val = 7 := by have := h.room; omega
    rw [writeBit_last hw]
    refine ⟨⟨by simp, fun k _ _ => by simp [streamBit_zero]⟩, ?_⟩
    have := take_byteBits_put s.wbuf 7 b (by omega)
    rw [List.take_of_length_le (by simp)] at this
    simp [writtenBits, hw, this]

/-- A bit sequence written (R84): "the sink depends only on the bit sequence, not on how it was cut into operations". -/
theorem writeBits_spec (bs : List Bool) {s : State} (h : WriterOk s) :
    WriterOk (writeBits bs s) ∧ writtenBits (writeBits bs s) = writtenBits s ++ bs := by
  induction bs generalizing s with
  | nil => exact ⟨h, by simp [writeBits]⟩
  | cons b bs ih =>
    obtain ⟨h1, h2⟩ := writeBit_spec b h
    obtain ⟨h3, h4⟩ := ih h1
    exact ⟨h3, by rw [show writeBits (b :: bs) s = writeBits bs (writeBit b s) from rfl, h4, h2]; simp⟩

theorem writeBits_append (as bs : List Bool) (s : State) :
    writeBits (as ++ bs) s = writeBits bs (writeBits as s) := by simp [writeBits]

@[simp] theorem writeBits_nil (s : State) : writeBits [] s = s := rfl

theorem writtenBits_length {s : State} (h : WriterOk s) : (writtenBits s).length = writerPos s := by
  have := h.room
  simp [writtenBits, writerPos]; omega

/-- The written bits determine the writer: they are the sink's bytes and then the partial byte. -/
theorem writer_ext {s t : State} (hs : WriterOk s) (ht : WriterOk t) (h : writtenBits s = writtenBits t) :
    s.snk = t.snk ∧ s.wbuf = t.wbuf ∧ s.wn = t.wn := by
  have hl := congrArg List.length h
  rw [writtenBits_length hs, writtenBits_length ht] at hl
  have h1 := hs.room
  have h2 := ht.room
  simp only [writerPos, State.olen] at hl
  have hn : s.wn = t.wn := Fin.ext (by omega)
  obtain ⟨e1, e2⟩ := List.append_inj h (by simp; omega)
  refine ⟨streamBits_injective e1, byteBits_injective (List.ext_getElem (by simp) fun k hk1 hk2 => ?_), hn⟩
  rw [byteBits_getElem, byteBits_getElem]
  have hk : k < 8 := by simpa using hk1
  rcases Nat.lt_or_ge k s.wn.val with hlt | hge
  · have hk3 : k < ((byteBits s.wbuf).take s.wn.val).length := by simp; omega
    have := List.getElem_of_eq e2 hk3
    simpa [List.getElem_take, byteBits_getElem] using this
  · rw [hs.clean k hge hk, ht.clean k (by omega) hk]

/-- What FLUSH does (R83): with bits held, they are filled up with zeros and emitted. -/
theorem flushWriter_spec {s : State} (h : WriterOk s) :
    WriterOk (flushWriter s) ∧ (flushWriter s).wn = 0 ∧
      writtenBits (flushWriter s) = writtenBits s ++ List.replicate ((8 - s.wn.val) % 8) false := by
  have hr := h.room
  unfold flushWriter
  split
  · rename_i hpos
    refine ⟨⟨by simp, fun k _ _ => by simp [streamBit_zero]⟩, rfl, ?_⟩
    simp only [writtenBits, emitByte_snk, emitByte_wn, streamBits_append, streamBits_cons, streamBits_nil,
      Fin.val_zero, List.take_zero, List.append_nil, List.append_assoc]
    congr 1
    apply List.ext_getElem
    · simp; omega
    · intro k h1 h2
      rw [byteBits_getElem]
      rcases Nat.lt_or_ge k s.wn.val with hlt | hge
      · rw [List.getElem_append_left (by simp; omega)]
        simp [byteBits_getElem]
      · rw [List.getElem_append_right (by simp; omega), List.getElem_replicate]
        exact h.clean k hge (by simpa using h1)
  · have h0 : s.wn = 0 := Fin.ext (by simp; omega)
    exact ⟨h, h0, by simp [h0]⟩

/-- The sink only grows under the writer (R20). -/
theorem writeBit_snk_prefix (b : Bool) (s : State) : s.snk <+: (writeBit b s).snk := by
  unfold writeBit emitIfFull
  split <;> split <;> simp

theorem writeBits_snk_prefix (bs : List Bool) (s : State) : s.snk <+: (writeBits bs s).snk := by
  induction bs generalizing s with
  | nil => exact List.prefix_rfl
  | cons b bs ih => exact (writeBit_snk_prefix b s).trans (ih _)

theorem flushWriter_snk_prefix (s : State) : s.snk <+: (flushWriter s).snk := by
  unfold flushWriter
  split <;> simp

end Sys2Proof.Machine
end

