-- ==== Sys2Proof/Laws/FreqTable.lean ====
section
/-! SUPPORT. The frequency table and the header serializer (R100 to R103): table access, sums, what WHDR writes, what RHDR
reads. -/

namespace Sys2Proof.Machine

open Safety

/-! ### Table access -/

theorem freqOf_setFreq (x y : Byte) (f : Freq) (s : State) :
    freqOf (setFreq x f s).freq y = if y = x then f else freqOf s.freq y := by
  by_cases h : y = x
  · subst h; simp [freqOf]
  · have : x.toNat ≠ y.toNat := fun e => h (BitVec.eq_of_toNat_eq e.symm)
    simp [freqOf, h, this]

theorem freq_ext {f g : Vector Freq 256} (h : ∀ x, freqOf f x = freqOf g x) : f = g := by
  apply Vector.ext
  intro i hi
  have := h (BitVec.ofNat 8 i)
  simpa [freqOf, Nat.mod_eq_of_lt hi] using this

@[simp] theorem freqOf_replicate (x : Byte) : freqOf (Vector.replicate 256 0#31) x = 0#31 := by simp [freqOf]

theorem symbols_map_freqOf (freq : Vector Freq 256) : symbols.map (freqOf freq) = freq.toList := by
  apply List.ext_getElem
  · simp [symbols]
  · intro i h1 h2
    have : i < 256 := by simpa using h2
    simp [symbols, freqOf, Nat.mod_eq_of_lt this]

/-- `total(FREQ)` is the sum over the symbols that are present (R7). -/
theorem total_eq (freq : Vector Freq 256) :
    total freq = ((presentSymbols freq).map fun x => (freqOf freq x).toNat).sum := by
  have h : ∀ l : List Byte, (l.map fun x => (freqOf freq x).toNat).sum =
      ((l.filter fun x => freqOf freq x != 0#31).map fun x => (freqOf freq x).toNat).sum := by
    intro l
    induction l with
    | nil => rfl
    | cons x l ih =>
      by_cases hx : freqOf freq x = 0#31 <;> simp [hx, ih]
  rw [total, ← symbols_map_freqOf, List.map_map]
  exact h symbols

theorem total_eq_zero {freq : Vector Freq 256} : total freq = 0 ↔ ∀ x, freqOf freq x = 0#31 := by
  rw [total_eq, List.sum_eq_zero_iff]
  simp only [List.mem_map, forall_exists_index, and_imp, forall_apply_eq_imp_iff₂, mem_presentSymbols]
  constructor
  · intro h x
    by_contra hx
    exact hx (BitVec.eq_of_toNat_eq (by simpa using h x hx))
  · intro h x hx
    exact absurd (h x) hx

theorem nsym_eq_zero {freq : Vector Freq 256} : nsym freq = 0 ↔ ∀ x, freqOf freq x = 0#31 := by
  rw [nsym, List.length_eq_zero_iff, List.eq_nil_iff_forall_not_mem]
  simp [mem_presentSymbols]

theorem total_pos_iff {freq : Vector Freq 256} : total freq ≠ 0 ↔ nsym freq ≠ 0 := by
  rw [ne_eq, ne_eq, total_eq_zero, nsym_eq_zero]

/-- "256 x (2^31 - 1) < 2^40, so a sum never wraps" (R4, R7). -/
theorem total_lt (freq : Vector Freq 256) : total freq < 2 ^ 39 := by
  have h : ∀ l : List Freq, (l.map BitVec.toNat).sum ≤ l.length * (2 ^ 31 - 1) := by
    intro l
    induction l with
    | nil => simp
    | cons f l ih => have := f.isLt; simp only [List.map_cons, List.sum_cons, List.length_cons]; omega
  have := h freq.toList
  simp only [Vector.length_toList] at this
  exact Nat.lt_of_le_of_lt this (by decide)

theorem le_foldl_max (l : List Nat) (a : Nat) : a ≤ l.foldl max a ∧ ∀ x ∈ l, x ≤ l.foldl max a := by
  induction l generalizing a with
  | nil => simp
  | cons y l ih =>
    obtain ⟨h1, h2⟩ := ih (max a y)
    refine ⟨by simp only [List.foldl_cons]; omega, fun x hx => ?_⟩
    rcases List.mem_cons.mp hx with rfl | hx
    · simp only [List.foldl_cons]; omega
    · exact h2 x hx

theorem freqOf_le_maxf (freq : Vector Freq 256) (x : Byte) : (freqOf freq x).toNat ≤ maxf freq := by
  refine (le_foldl_max _ 0).2 _ (List.mem_map.mpr ⟨freqOf freq x, ?_, rfl⟩)
  rw [← symbols_map_freqOf]
  exact List.mem_map.mpr ⟨x, mem_symbols x, rfl⟩

theorem maxf_lt (freq : Vector Freq 256) : maxf freq < 2 ^ 31 := by
  have h : ∀ (l : List Freq) (a : Nat), a < 2 ^ 31 → (l.map BitVec.toNat).foldl max a < 2 ^ 31 := by
    intro l
    induction l with
    | nil => simp
    | cons f l ih => intro a ha; exact ih _ (by have := f.isLt; omega)
  exact h _ 0 (by decide)

/-- The width WHDR writes is in 1..31 for a table that is not empty (R101). -/
theorem bitlen_maxf_le (freq : Vector Freq 256) : bitlen (maxf freq) ≤ 31 := bitlen_le_of_lt (maxf_lt freq)

/-- R101 corner case 3: every frequency fits its field. -/
theorem freqOf_lt_bitlen (freq : Vector Freq 256) (x : Byte) :
    (freqOf freq x).toNat < 2 ^ bitlen (maxf freq) :=
  Nat.lt_of_le_of_lt (freqOf_le_maxf freq x) (lt_two_pow_bitlen _)

/-! ### TALLY (R100) -/

theorem tally_done {x : Byte} {s : State} (h1 : s.phase = .empty)
    (h2 : (freqOf s.freq x).toNat < Config.maxFreq) :
    tally x s = .done () (setFreq x (freqOf s.freq x + 1#31) s) := by
  simp [tally, h1, h2]

/-! ### WHDR (R101) -/

theorem writePair_eq (bf : Nat) (x : Byte) (s : State) :
    writePair bf x s = writeBits (pairBits bf x (freqOf s.freq x)) s := by
  have : (BitVec.zeroExtend 32 (freqOf s.freq x)).toNat = (freqOf s.freq x).toNat :=
    BitVec.toNat_setWidth_of_le (by decide)
  rw [writePair, writeInt, writeByte, pairBits, writeBits_append, this]

theorem writePairs_eq (bf : Nat) (xs : List Byte) (s : State) :
    writePairs bf xs s = writeBits (xs.flatMap fun x => pairBits bf x (freqOf s.freq x)) s := by
  induction xs generalizing s with
  | nil => rfl
  | cons x xs ih =>
    have hf : (writePair bf x s).freq = s.freq := by
      rw [writePair_eq, writeBits_frame]
    rw [show writePairs bf (x :: xs) s = writePairs bf xs (writePair bf x s) from rfl, ih, hf, writePair_eq]
    simp [writeBits_append]

/-- WHDR writes the header of the table (R101, R65 to R67), and nothing for an empty table. -/
theorem writeHeader_eq (s : State) : writeHeader s = writeBits (headerBits s.freq) s := by
  unfold writeHeader headerBits
  split
  · rfl
  · have h1 : nsym s.freq % 2 ^ 32 = nsym s.freq :=
      Nat.mod_eq_of_lt (Nat.lt_of_le_of_lt (nsym_le s.freq) (by decide))
    have h2 : bitlen (maxf s.freq) % 2 ^ 32 = bitlen (maxf s.freq) :=
      Nat.mod_eq_of_lt (Nat.lt_of_le_of_lt (bitlen_maxf_le s.freq) (by decide))
    simp only [writePairs_eq, writeInt, BitVec.toNat_ofNat, h1, h2, writeBits_append]
    rw [show (writeBits (lsbFirst Config.bfwW (bitlen (maxf s.freq)))
      (writeBits (lsbFirst Config.cntW (nsym s.freq)) s)).freq = s.freq by
        rw [writeBits_frame, writeBits_frame]]

/-! ### RHDR (R102) -/

/-- The reader and the table may differ, nothing else. -/
def SameButTable (s t : State) : Prop := t = { s with rbuf := t.rbuf, rn := t.rn, sp := t.sp, freq := t.freq }

theorem SameButTable.refl (s : State) : SameButTable s s := rfl

theorem SameButTable.trans {s t u : State} (h : SameButTable s t) (k : SameButTable t u) : SameButTable s u := by
  unfold SameButTable at *
  rw [k, h]

theorem SameButReader.table {s t : State} (h : SameButReader s t) : SameButTable s t := by
  unfold SameButReader SameButTable at *
  rw [h]

theorem setFreq_table (x : Byte) (f : Freq) (s : State) : SameButTable s (setFreq x f s) := rfl

/-- The sub-causes a header can fault with (R102, R154). -/
def headerCause (c : FormatCause) : Prop :=
  c = .truncated ∨ c = .zeroCount ∨ c = .countRange ∨ c = .zeroFreq ∨ c = .dupSymbol

/-- What one pair read can do: it sets one empty table entry to a nonzero frequency, or it is a format error. -/
theorem readPair_cases (bf : Nat) {s : State} (h : ReaderOk s) :
    (∃ c, headerCause c ∧ readPair bf s = formatError c) ∨
      ∃ x f t, readPair bf s = .done () (setFreq x f t) ∧ ReaderOk (setFreq x f t) ∧ SameButReader s t ∧
        freqOf s.freq x = 0#31 := by
  unfold readPair
  rcases readField_spec Config.symW h with ⟨_, e⟩ | ⟨t, _, e, ht, hst, _, _⟩
  · exact .inl ⟨.truncated, .inl rfl, by simp [e, formatError]⟩
  · rcases readField_spec bf ht with ⟨_, e'⟩ | ⟨u, _, e', hu, htu, _, _⟩
    · exact .inl ⟨.truncated, .inl rfl, by simp [e, e', formatError]⟩
    · simp only [e, e', bind_done]
      split
      · exact .inl ⟨.zeroFreq, by simp [headerCause], rfl⟩
      · split
        · exact .inl ⟨.dupSymbol, by simp [headerCause], rfl⟩
        · rename_i hz
          have hf : u.freq = s.freq := by rw [htu.freq, hst.freq]
          exact .inr ⟨_, _, u, rfl, ⟨hu.inside, hu.held⟩, hst.trans htu, by
            rw [← hf]; exact not_not.mp hz⟩

/-- What the pairs can do: they are a format error, or they are done with the reader in order. -/
theorem readPairs_cases (bf n : Nat) {s : State} (h : ReaderOk s) :
    (∃ c, headerCause c ∧ readPairs bf n s = formatError c) ∨
      ∃ t, readPairs bf n s = .done () t ∧ ReaderOk t ∧ SameButTable s t := by
  induction n generalizing s with
  | zero => exact .inr ⟨s, rfl, h, .refl s⟩
  | succ n ih =>
    rcases readPair_cases bf h with ⟨c, hc, e⟩ | ⟨x, f, t, e, hu, hst, _⟩
    · exact .inl ⟨c, hc, by simp [readPairs, e, formatError]⟩
    · rcases ih hu with ⟨c, hc, e'⟩ | ⟨w, e', hw, huw⟩
      · exact .inl ⟨c, hc, by simp [readPairs, e, e', formatError]⟩
      · exact .inr ⟨w, by simp [readPairs, e, e'], hw, (hst.table.trans (setFreq_table x f t)).trans huw⟩

/-- What RHDR's body can do (R102): it is a format error, or it is done with the reader in order, and it touches nothing
but the reader and the table. -/
theorem readHeader_cases {s : State} (h : ReaderOk s) :
    (∃ c, headerCause c ∧ readHeader s = formatError c) ∨
      ∃ t, readHeader s = .done () t ∧ ReaderOk t ∧ SameButTable s t := by
  unfold readHeader
  rcases readField_spec Config.cntW h with ⟨_, e⟩ | ⟨t, _, e, ht, hst, _, _⟩
  · exact .inl ⟨.truncated, .inl rfl, by simp [e, formatError]⟩
  · simp only [e, bind_done]
    split
    · exact .inl ⟨.zeroCount, by simp [headerCause], rfl⟩
    · split
      · exact .inl ⟨.countRange, by simp [headerCause], rfl⟩
      · rcases readField_spec Config.bfwW ht with ⟨_, e'⟩ | ⟨u, _, e', hu, htu, _, _⟩
        · exact .inl ⟨.truncated, .inl rfl, by simp [e', formatError]⟩
        · simp only [e', bind_done]
          rcases readPairs_cases (lsbValue ((bitsAhead t).take Config.bfwW))
            (lsbValue ((bitsAhead s).take Config.cntW)) hu with h | ⟨w, e'', hw, huw⟩
          · exact .inl h
          · exact .inr ⟨w, e'', hw, (hst.table.trans htu.table).trans huw⟩

/-- The pairs of a header as bits, in the order given (R65, R67). -/
def pairsBits (bf : Nat) (ps : List (Byte × Freq)) : List Bool := ps.flatMap fun p => pairBits bf p.1 p.2

/-- Reading well-formed pairs, in any order (R67, R102 corner case 1): nonzero frequencies that fit the width, distinct
symbols the table does not hold yet. -/
theorem readPairs_pairsBits (bf : Nat) (ps : List (Byte × Freq)) {s : State} {rest : List Bool} (h : ReaderOk s)
    (hb : bitsAhead s = pairsBits bf ps ++ rest) (hf : ∀ p ∈ ps, p.2 ≠ 0#31 ∧ p.2.toNat < 2 ^ bf)
    (hd : (ps.map Prod.fst).Nodup) (hz : ∀ p ∈ ps, freqOf s.freq p.1 = 0#31) :
    ∃ t, readPairs bf ps.length s = .done () t ∧ ReaderOk t ∧ SameButTable s t ∧ bitsAhead t = rest ∧
      (∀ p ∈ ps, freqOf t.freq p.1 = p.2) ∧
      (∀ x, x ∉ ps.map Prod.fst → freqOf t.freq x = freqOf s.freq x) := by
  induction ps generalizing s with
  | nil => exact ⟨s, rfl, h, .refl s, by simpa [pairsBits] using hb, by simp, by simp⟩
  | cons p ps ih =>
    obtain ⟨x, f⟩ := p
    obtain ⟨hf0, hfb⟩ := hf (x, f) (by simp)
    have hb' : bitsAhead s = lsbFirst Config.symW x.toNat ++ (lsbFirst bf f.toNat ++ (pairsBits bf ps ++ rest)) := by
      rw [hb]; simp [pairsBits, pairBits]
    obtain ⟨t, e1, ht, hst, hbt, _⟩ := readField_lsbFirst Config.symW x.toNat h hb'
    obtain ⟨u, e2, hu, htu, hbu, _⟩ := readField_lsbFirst bf f.toNat ht hbt
    have hx : BitVec.ofNat 8 (x.toNat % 2 ^ Config.symW) = x := by simp
    have hv : f.toNat % 2 ^ bf = f.toNat := Nat.mod_eq_of_lt hfb
    have hn : f.toNat ≠ 0 := fun e => hf0 (BitVec.eq_of_toNat_eq (by simpa using e))
    have hfu : u.freq = s.freq := by rw [htu.freq, hst.freq]
    have e3 : readPair bf s = .done () (setFreq x f u) := by
      have hzx : freqOf u.freq x = 0#31 := by rw [hfu]; exact hz (x, f) (by simp)
      simp [readPair, e1, e2, hv, hn, hzx]
    have hd' := List.nodup_cons.mp hd
    obtain ⟨w, e4, hw, huw, hbw, hin, hout⟩ := ih (s := setFreq x f u) ⟨hu.inside, hu.held⟩ hbu
      (fun p hp => hf p (by simp [hp])) hd'.2 (fun p hp => by
        have hne : p.1 ≠ x := fun e => hd'.1 (List.mem_map.mpr ⟨p, hp, e⟩)
        rw [freqOf_setFreq, if_neg hne, hfu]
        exact hz p (by simp [hp]))
    refine ⟨w, by simp [readPairs, e3, e4], hw,
      ((hst.trans htu).table.trans (setFreq_table x f u)).trans huw, hbw, ?_, ?_⟩
    · intro p hp
      rcases List.mem_cons.mp hp with rfl | hp
      · rw [hout x hd'.1, freqOf_setFreq, if_pos rfl]
      · exact hin p hp
    · intro y hy
      have hy : y ≠ x ∧ y ∉ ps.map Prod.fst := by simpa using hy
      rw [hout y hy.2, freqOf_setFreq, if_neg hy.1, hfu]

/-- The whole header read back (R102, R103): count, width and well-formed pairs in any order, into an empty table. -/
theorem readHeader_bits (bf : Nat) (ps : List (Byte × Freq)) {s : State} {rest : List Bool} (h : ReaderOk s)
    (hn : 1 ≤ ps.length ∧ ps.length ≤ 256) (hbf : bf < 32)
    (hb : bitsAhead s = lsbFirst Config.cntW ps.length ++ lsbFirst Config.bfwW bf ++ pairsBits bf ps ++ rest)
    (hf : ∀ p ∈ ps, p.2 ≠ 0#31 ∧ p.2.toNat < 2 ^ bf) (hd : (ps.map Prod.fst).Nodup)
    (hz : ∀ x, freqOf s.freq x = 0#31) :
    ∃ t, readHeader s = .done () t ∧ ReaderOk t ∧ SameButTable s t ∧ bitsAhead t = rest ∧
      (∀ p ∈ ps, freqOf t.freq p.1 = p.2) ∧ (∀ x, x ∉ ps.map Prod.fst → freqOf t.freq x = 0#31) := by
  rw [List.append_assoc, List.append_assoc] at hb
  obtain ⟨t, e1, ht, hst, hbt, _⟩ := readField_lsbFirst Config.cntW ps.length h hb
  obtain ⟨u, e2, hu, htu, hbu, _⟩ := readField_lsbFirst Config.bfwW bf ht hbt
  have h1 : ps.length % 2 ^ Config.cntW = ps.length := Nat.mod_eq_of_lt (Nat.lt_of_le_of_lt hn.2 (by decide))
  have h2 : bf % 2 ^ Config.bfwW = bf := Nat.mod_eq_of_lt (Nat.lt_of_lt_of_le hbf (by decide))
  have hfu : u.freq = s.freq := by rw [htu.freq, hst.freq]
  obtain ⟨w, e3, hw, huw, hbw, hin, hout⟩ := readPairs_pairsBits bf ps hu hbu hf hd (fun p _ => by rw [hfu]; exact hz _)
  refine ⟨w, ?_, hw, (hst.trans htu).table.trans huw, hbw, hin, fun x hx => by rw [hout x hx, hfu, hz]⟩
  have hn1 : ps.length ≠ 0 := by omega
  have hn2 : ¬ ps.length > Config.nSymbols := by simp only [Config.nSymbols]; omega
  simp only [readHeader, e1, h1, hn1, hn2, e2, h2, e3, bind_done, if_false]

/-- RHDR reads back what WHDR writes (R103 (1)). -/
theorem readHeader_headerBits (freq : Vector Freq 256) {s : State} {rest : List Bool} (h : ReaderOk s)
    (hn : nsym freq ≠ 0) (hb : bitsAhead s = headerBits freq ++ rest) (hz : ∀ x, freqOf s.freq x = 0#31) :
    ∃ t, readHeader s = .done () t ∧ ReaderOk t ∧ SameButTable s t ∧ bitsAhead t = rest ∧ t.freq = freq := by
  let ps := (presentSymbols freq).map fun x => (x, freqOf freq x)
  have hfst : ps.map Prod.fst = presentSymbols freq := by simp [ps, Function.comp_def]
  have hlen : ps.length = nsym freq := by simp [ps, nsym]
  obtain ⟨t, e, ht, hst, hbt, hin, hout⟩ := readHeader_bits (bitlen (maxf freq)) ps (rest := rest) h
    ⟨by omega, by rw [hlen]; exact nsym_le freq⟩ (Nat.lt_succ_of_le (bitlen_maxf_le freq))
    (by rw [hb, hlen]; simp [headerBits, hn, pairsBits, ps, List.flatMap_map])
    (by
      intro p hp
      obtain ⟨x, hx, rfl⟩ := List.mem_map.mp hp
      exact ⟨mem_presentSymbols.mp hx, freqOf_lt_bitlen freq x⟩)
    (by rw [hfst]; exact presentSymbols_nodup freq) hz
  refine ⟨t, e, ht, hst, hbt, freq_ext fun x => ?_⟩
  by_cases hx : freqOf freq x = 0#31
  · rw [hout x (by rw [hfst, mem_presentSymbols]; simpa using hx), hx]
  · exact hin (x, freqOf freq x) (List.mem_map.mpr ⟨x, mem_presentSymbols.mpr hx, rfl⟩)

end Sys2Proof.Machine
end

