-- ==== Sys2Proof/Laws/TreeBuild.lean ====
section
/-! SUPPORT. What BUILD's merge network can do (R110 to R114): pops, node writes, and that the tree it leaves has the shape
of R25. -/

namespace Sys2Proof.Machine

open Safety

/-! ### The arena -/

theorem nodeAt_setNode (i j : NodeIdx) (n : Node) (node : Vector Node 511) :
    nodeAt (setNode i n node) j = if j = i then n else nodeAt node j := by
  by_cases h : j = i
  · subst h; simp [nodeAt, setNode]
  · have : i.val ≠ j.val := fun e => h (Fin.ext e.symm)
    simp [nodeAt, setNode, h, this]

theorem nodeAt_mergeNode {m a b : NodeIdx} (node : Vector Node 511) (hab : a ≠ b) (hma : m ≠ a) (hmb : m ≠ b)
    (j : NodeIdx) :
    nodeAt (mergeNode m a b node) j =
      if j = m then
        { nodeAt node m with
          v := true, count := (nodeAt node a).count + (nodeAt node b).count, pv := false, c0 := a, c1 := b }
      else if j = a ∨ j = b then { nodeAt node j with pv := true, parent := m }
      else nodeAt node j := by
  simp only [mergeNode, linkParent, nodeAt_setNode]
  by_cases hjm : j = m
  · subst hjm; simp [hma, hmb]
  · by_cases hja : j = a
    · subst hja; simp [hjm, hab]
    · by_cases hjb : j = b
      · subst hjb; simp [hjm, hja]
      · simp [hjm, hja, hjb]

/-! ### Pops (R110, R111) -/

/-- `prio` is a strict total order: of two different members exactly one comes first (R111). -/
theorem before_total (node : Vector Node 511) {i j : NodeIdx} (h : i ≠ j) : before node i j = !before node j i := by
  have hv : i.val ≠ j.val := fun e => h (Fin.ext e)
  simp only [before]
  rcases Nat.lt_trichotomy node[i.val].count.toNat node[j.val].count.toNat with hlt | heq | hgt
  · have : node[j.val].count ≠ node[i.val].count := fun e => by rw [e] at hlt; omega
    simp [hlt, this, Nat.le_of_lt hlt]
  · have : node[i.val].count = node[j.val].count := BitVec.eq_of_toNat_eq heq
    rcases Nat.lt_or_gt_of_ne hv with h1 | h1 <;> simp [this, h1] <;> exact Fin.le_def.mpr (Nat.le_of_lt h1)
  · have : node[i.val].count ≠ node[j.val].count := fun e => by rw [e] at hgt; omega
    simp [hgt, this, Nat.le_of_lt hgt]

theorem before_trans (node : Vector Node 511) {i j k : NodeIdx} (h1 : before node i j = true)
    (h2 : before node j k = true) : before node i k = true := by
  simp only [before, Bool.or_eq_true, Bool.and_eq_true, decide_eq_true_eq, beq_iff_eq] at *
  rcases h1 with h1 | ⟨h1, h1'⟩ <;> rcases h2 with h2 | ⟨h2, h2'⟩
  · left; omega
  · left; rw [← h2]; exact h1
  · left; rw [h1]; exact h2
  · right; exact ⟨h1.trans h2, by omega⟩

theorem before_irrefl (node : Vector Node 511) (i : NodeIdx) : before node i i = false := by simp [before]

theorem minOf_spec (node : Vector Node 511) (x : NodeIdx) (ys : List NodeIdx) :
    minOf node x ys ∈ x :: ys ∧ ∀ z ∈ x :: ys, z ≠ minOf node x ys → before node (minOf node x ys) z = true := by
  induction ys generalizing x with
  | nil => simp [minOf]
  | cons y ys ih =>
    simp only [minOf]
    by_cases hyx : before node y x = true
    · obtain ⟨h1, h2⟩ := ih y
      rw [if_pos hyx]
      refine ⟨List.mem_cons_of_mem _ h1, fun z hz hne => ?_⟩
      rcases List.mem_cons.mp hz with rfl | hz
      · by_cases hy : y = minOf node y ys
        · rw [← hy]; exact hyx
        · exact before_trans node (h2 y (by simp) hy) hyx
      · exact h2 z hz hne
    · obtain ⟨h1, h2⟩ := ih x
      rw [if_neg hyx]
      refine ⟨?_, fun z hz hne => ?_⟩
      · rcases List.mem_cons.mp h1 with h1 | h1
        · rw [h1]; simp
        · exact List.mem_cons_of_mem _ (List.mem_cons_of_mem _ h1)
      · rcases List.mem_cons.mp hz with rfl | hz
        · exact h2 z (by simp) hne
        · rcases List.mem_cons.mp hz with rfl | hz
          · by_cases hzx : z = x
            · subst hzx; exact h2 z (by simp) hne
            · have hxz : before node x z = true := by rw [before_total node (Ne.symm hzx)]; simpa using hyx
              by_cases hx : x = minOf node x ys
              · rw [← hx]; exact hxz
              · exact before_trans node (h2 x (by simp) hx) hxz
          · exact h2 z (List.mem_cons_of_mem _ hz) hne

/-- One pop (R110, R111): nothing from an empty structure, else its one member of highest priority, and the rest. -/
theorem pop_spec (node : Vector Node 511) (q : List NodeIdx) :
    (q = [] ∧ pop node q = none) ∨
      ∃ a, pop node q = some (a, q.erase a) ∧ a ∈ q ∧ ∀ z ∈ q, z ≠ a → before node a z = true := by
  cases q with
  | nil => exact .inl ⟨rfl, rfl⟩
  | cons x xs =>
    obtain ⟨h1, h2⟩ := minOf_spec node x xs
    exact .inr ⟨_, rfl, h1, h2⟩

/-! ### The leaves -/

theorem nodeAt_putLeaves (freq : Vector Freq 256) (node : Vector Node 511) (i : NodeIdx) :
    nodeAt (putLeaves freq node) i =
      if isLeaf i = true ∧ freqOf freq (symbolOf i) ≠ 0#31 then
        { nodeAt node i with
          v := true, count := BitVec.zeroExtend 40 (freqOf freq (symbolOf i)), pv := false }
      else nodeAt node i := by
  have h : ∀ (xs : List Byte) (nd : Vector Node 511), xs.Nodup →
      nodeAt (xs.foldl (putLeaf freq) nd) i =
        if isLeaf i = true ∧ symbolOf i ∈ xs then
          { nodeAt nd i with
            v := true, count := BitVec.zeroExtend 40 (freqOf freq (symbolOf i)), pv := false }
        else nodeAt nd i := by
    intro xs
    induction xs with
    | nil => simp
    | cons x xs ih =>
      intro nd hd
      have hd := List.nodup_cons.mp hd
      rw [List.foldl_cons, ih _ hd.2, putLeaf, nodeAt_setNode]
      by_cases hix : i = leafSlot x
      · subst hix
        simp [hd.1]
      · have hsx : ¬ (isLeaf i = true ∧ symbolOf i = x) := by
          rintro ⟨hl, hs⟩
          obtain ⟨y, rfl⟩ := isLeaf_iff.mp hl
          exact hix (by rw [← hs, symbolOf_leafSlot])
        simp only [if_neg hix, List.mem_cons]
        congr 1
        by_cases hl : isLeaf i = true <;> simp_all
  rw [putLeaves, h _ _ (presentSymbols_nodup freq)]
  simp [mem_presentSymbols]

/-! ### The merge loop -/

/-- The sum of the counts of a list of nodes. -/
def countSum (node : Vector Node 511) (q : List NodeIdx) : Nat := (q.map fun i => (nodeAt node i).count.toNat).sum

/-- What holds between two merges: `k` internal nodes exist, `q` holds the nodes without a parent, and the forest under
them has the shape of R25. -/
structure Forest (freq : Vector Freq 256) (k : Nat) (q : List NodeIdx) (node : Vector Node 511) : Prop where
  size : k + q.length = nsym freq
  nodup : q.Nodup
  members : ∀ i, i ∈ q ↔ (nodeAt node i).v = true ∧ (nodeAt node i).pv = false
  leaf_valid : ∀ x : Byte, (nodeAt node (leafSlot x)).v = true ↔ freqOf freq x ≠ 0#31
  leaf_count : ∀ x : Byte, freqOf freq x ≠ 0#31 → (nodeAt node (leafSlot x)).count.toNat = (freqOf freq x).toNat
  internal_valid : ∀ i : NodeIdx, isLeaf i = false → ((nodeAt node i).v = true ↔ i.val < 256 + k)
  sum_count : ∀ i : NodeIdx, isLeaf i = false → (nodeAt node i).v = true →
    (nodeAt node i).count.toNat =
      (nodeAt node (nodeAt node i).c0).count.toNat + (nodeAt node (nodeAt node i).c1).count.toNat
  children_differ : ∀ i : NodeIdx, isLeaf i = false → (nodeAt node i).v = true →
    (nodeAt node i).c0 ≠ (nodeAt node i).c1
  child_link : ∀ (i : NodeIdx) (b : Bool), isLeaf i = false → (nodeAt node i).v = true →
    (nodeAt node (child node i b)).v = true ∧ (nodeAt node (child node i b)).pv = true ∧
      (nodeAt node (child node i b)).parent = i
  child_below : ∀ (i : NodeIdx) (b : Bool), isLeaf i = false → (nodeAt node i).v = true →
    (child node i b).val < i.val
  parent_link : ∀ i : NodeIdx, (nodeAt node i).v = true → (nodeAt node i).pv = true →
    isLeaf (nodeAt node i).parent = false ∧ (nodeAt node (nodeAt node i).parent).v = true ∧
      ((nodeAt node (nodeAt node i).parent).c0 = i ∨ (nodeAt node (nodeAt node i).parent).c1 = i)
  total_count : countSum node q = total freq

theorem child_eq (node : Vector Node 511) (i : NodeIdx) (b : Bool) :
    child node i b = if b then (nodeAt node i).c1 else (nodeAt node i).c0 := rfl

/-- The leaves alone are a forest, from an arena without nodes (R110). -/
theorem forest_leaves (freq : Vector Freq 256) (node : Vector Node 511)
    (h0 : ∀ i : NodeIdx, (nodeAt node i).v = false) :
    Forest freq 0 ((presentSymbols freq).map leafSlot) (putLeaves freq node) := by
  have hv : ∀ i, (nodeAt (putLeaves freq node) i).v = true ↔ isLeaf i = true ∧ freqOf freq (symbolOf i) ≠ 0#31 := by
    intro i; rw [nodeAt_putLeaves]; split <;> simp_all
  have hp : ∀ i, (nodeAt (putLeaves freq node) i).v = true → (nodeAt (putLeaves freq node) i).pv = false := by
    intro i hi
    rw [nodeAt_putLeaves, if_pos ((hv i).mp hi)]
  have hc : ∀ x, freqOf freq x ≠ 0#31 →
      (nodeAt (putLeaves freq node) (leafSlot x)).count.toNat = (freqOf freq x).toNat := by
    intro x hx
    rw [nodeAt_putLeaves, if_pos ⟨isLeaf_leafSlot x, by simpa using hx⟩]
    simp only [symbolOf_leafSlot]
    exact BitVec.toNat_setWidth_of_le (by decide)
  have hin : ∀ i : NodeIdx, isLeaf i = false → (nodeAt (putLeaves freq node) i).v = true → False := by
    intro i hl hi
    have := ((hv i).mp hi).1
    simp [hl] at this
  refine ⟨by simp [nsym], ?_, ?_, ?_, hc, ?_, ?_, ?_, ?_, ?_, ?_, ?_⟩
  · exact (presentSymbols_nodup freq).map fun x y => leafSlot_injective
  · intro i
    simp only [List.mem_map, mem_presentSymbols]
    constructor
    · rintro ⟨x, hx, rfl⟩
      have : (nodeAt (putLeaves freq node) (leafSlot x)).v = true := (hv _).mpr ⟨isLeaf_leafSlot x, by simpa using hx⟩
      exact ⟨this, hp _ this⟩
    · rintro ⟨hi, _⟩
      obtain ⟨hl, hs⟩ := (hv i).mp hi
      obtain ⟨x, rfl⟩ := isLeaf_iff.mp hl
      exact ⟨x, by simpa using hs, rfl⟩
  · intro x; rw [hv]; simp
  · intro i hl
    constructor
    · intro hi; exact (hin i hl hi).elim
    · intro hi; have := isLeaf_eq_false.mp hl; omega
  · intro i hl hi; exact (hin i hl hi).elim
  · intro i hl hi; exact (hin i hl hi).elim
  · intro i b hl hi; exact (hin i hl hi).elim
  · intro i b hl hi; exact (hin i hl hi).elim
  · intro i hi hpv; simp [hp i hi] at hpv
  · rw [countSum, total_eq, List.map_map]
    congr 1
    apply List.map_congr_left
    intro x hx
    exact hc x (mem_presentSymbols.mp hx)

theorem internalSlot_val {k : Nat} (h : k < 255) : (internalSlot k).val = 256 + k := by
  simp [internalSlot, Fin.ofNat, Config.firstInternal]; omega

theorem countSum_perm {node : Vector Node 511} {p q : List NodeIdx} (h : p.Perm q) :
    countSum node p = countSum node q := (h.map _).sum_eq

/-- One merge keeps the forest (R110): two members go, their parent comes. -/
theorem forest_merge {freq : Vector Freq 256} {k : Nat} {q : List NodeIdx} {node : Vector Node 511} {a b : NodeIdx}
    (F : Forest freq k q node) (ha : a ∈ q) (hb : b ∈ q.erase a) :
    Forest freq (k + 1) (internalSlot k :: (q.erase a).erase b) (mergeNode (internalSlot k) a b node) := by
  have hperm : q.Perm (a :: b :: (q.erase a).erase b) :=
    (List.perm_cons_erase ha).trans ((List.perm_cons_erase hb).cons a)
  have hnd : (a :: b :: (q.erase a).erase b).Nodup := hperm.nodup_iff.mp F.nodup
  obtain ⟨hna, hnd'⟩ := List.nodup_cons.mp hnd
  obtain ⟨hnb, hnr⟩ := List.nodup_cons.mp hnd'
  have hlen : q.length = (q.erase a |>.erase b).length + 2 := by have := hperm.length_eq; simpa using this
  have hk : k < 255 := by have := F.size; have := nsym_le freq; omega
  have hab : a ≠ b := fun e => hna (by simp [e])
  have hmemb : b ∈ q := List.mem_of_mem_erase hb
  obtain ⟨hav, hap⟩ := (F.members a).mp ha
  obtain ⟨hbv, hbp⟩ := (F.members b).mp hmemb
  set m := internalSlot k with hm
  have hmv : m.val = 256 + k := internalSlot_val hk
  have hml : isLeaf m = false := isLeaf_eq_false.mpr (by omega)
  have hmnv : (nodeAt node m).v = false := by
    have := (F.internal_valid m hml).not
    simpa [hmv] using this
  have hma : m ≠ a := fun e => by rw [e, hav] at hmnv; cases hmnv
  have hmb : m ≠ b := fun e => by rw [e, hbv] at hmnv; cases hmnv
  have hlow : ∀ i : NodeIdx, (nodeAt node i).v = true → i.val < 256 + k := by
    intro i hi
    by_cases hl : isLeaf i = true
    · have := isLeaf_eq_true.mp hl
      omega
    · exact (F.internal_valid i (by simpa using hl)).mp hi
  have hsum : (nodeAt node a).count.toNat + (nodeAt node b).count.toNat ≤ total freq := by
    rw [← F.total_count, countSum_perm hperm]
    simp only [countSum, List.map_cons, List.sum_cons]; omega
  have hadd : ((nodeAt node a).count + (nodeAt node b).count).toNat =
      (nodeAt node a).count.toNat + (nodeAt node b).count.toNat := by
    rw [BitVec.toNat_add]
    exact Nat.mod_eq_of_lt (Nat.lt_of_le_of_lt hsum (Nat.lt_trans (total_lt freq) (by decide)))
  have H := nodeAt_mergeNode node hab hma hmb
  -- what the merge leaves of an old node
  have hv : ∀ i, (nodeAt (mergeNode m a b node) i).v = true ↔ i = m ∨ (nodeAt node i).v = true := by
    intro i; rw [H]; split
    · simp_all
    · split <;> simp_all
  have hcnt : ∀ i, i ≠ m → (nodeAt (mergeNode m a b node) i).count = (nodeAt node i).count := by
    intro i hi; rw [H, if_neg hi]; split <;> rfl
  have hc0 : ∀ i, i ≠ m → (nodeAt (mergeNode m a b node) i).c0 = (nodeAt node i).c0 := by
    intro i hi; rw [H, if_neg hi]; split <;> rfl
  have hc1 : ∀ i, i ≠ m → (nodeAt (mergeNode m a b node) i).c1 = (nodeAt node i).c1 := by
    intro i hi; rw [H, if_neg hi]; split <;> rfl
  have hch : ∀ i x, i ≠ m → child (mergeNode m a b node) i x = child node i x := by
    intro i x hi; rw [child_eq, child_eq, hc0 i hi, hc1 i hi]
  have hMm : nodeAt (mergeNode m a b node) m =
      { nodeAt node m with
        v := true, count := (nodeAt node a).count + (nodeAt node b).count, pv := false, c0 := a, c1 := b } := by
    rw [H, if_pos rfl]
  have hMab : ∀ i, i = a ∨ i = b → nodeAt (mergeNode m a b node) i = { nodeAt node i with pv := true, parent := m } := by
    intro i hi
    have him : i ≠ m := by rcases hi with rfl | rfl <;> [exact Ne.symm hma; exact Ne.symm hmb]
    rw [H, if_neg him, if_pos hi]
  have hMold : ∀ i, i ≠ m → i ≠ a → i ≠ b → nodeAt (mergeNode m a b node) i = nodeAt node i := by
    intro i h1 h2 h3; rw [H, if_neg h1, if_neg (by tauto)]
  have hold : ∀ i, i ≠ m → (nodeAt (mergeNode m a b node) i).v = true → (nodeAt node i).v = true := by
    intro i hi h; exact ((hv i).mp h).resolve_left hi
  have hvne : ∀ i, (nodeAt node i).v = true → i ≠ m := fun i hi e => by rw [e, hmnv] at hi; cases hi
  refine ⟨?_, ?_, ?_, ?_, ?_, ?_, ?_, ?_, ?_, ?_, ?_, ?_⟩
  · have := F.size; simp only [List.length_cons]; omega
  · refine List.nodup_cons.mpr ⟨fun h => ?_, hnr⟩
    have : m ∈ q := List.mem_of_mem_erase (List.mem_of_mem_erase h)
    have := ((F.members m).mp this).1
    simp [hmnv] at this
  · intro i
    have hq : i ∈ q ↔ i = a ∨ i = b ∨ i ∈ (q.erase a).erase b := by rw [hperm.mem_iff]; simp
    by_cases him : i = m
    · subst him; rw [hMm]; simp
    · rw [List.mem_cons]
      by_cases hia : i = a
      · rw [hMab i (.inl hia)]
        subst hia
        simp [him]
        exact fun h => hna (List.mem_cons_of_mem _ h)
      · by_cases hib : i = b
        · rw [hMab i (.inr hib)]
          subst hib
          simp [him]
          exact fun h => hnb h
        · rw [hMold i him hia hib, ← F.members i, hq]
          simp [him, hia, hib]
  · intro x
    rw [hv, F.leaf_valid]
    have : leafSlot x ≠ m := fun e => by have := isLeaf_leafSlot x; rw [e, hml] at this; cases this
    simp [this]
  · intro x hx
    have : leafSlot x ≠ m := fun e => by have := isLeaf_leafSlot x; rw [e, hml] at this; cases this
    rw [hcnt _ this, F.leaf_count x hx]
  · intro i hl
    rw [hv, F.internal_valid i hl]
    constructor
    · rintro (rfl | h) <;> omega
    · intro h
      by_cases him : i.val = 256 + k
      · left; exact Fin.ext (by omega)
      · right; omega
  · intro i hl hi
    by_cases him : i = m
    · subst him
      rw [hMm]
      simp only
      rw [hcnt a (Ne.symm hma), hcnt b (Ne.symm hmb), hadd]
    · have hi' := hold i him hi
      have h0 := F.child_link i false hl hi'
      have h1 := F.child_link i true hl hi'
      simp only [child_eq] at h0 h1
      rw [hcnt i him, hc0 i him, hc1 i him, hcnt _ (hvne _ (by simpa using h0.1)), hcnt _ (hvne _ (by simpa using h1.1))]
      exact F.sum_count i hl hi'
  · intro i hl hi
    by_cases him : i = m
    · subst him; rw [hMm]; exact hab
    · rw [hc0 i him, hc1 i him]; exact F.children_differ i hl (hold i him hi)
  · intro i x hl hi
    by_cases him : i = m
    · subst him
      have : child (mergeNode m a b node) m x = if x then b else a := by rw [child_eq, hMm]
      rw [this]
      cases x
      · rw [if_neg (by simp), hMab a (.inl rfl)]; exact ⟨hav, rfl, rfl⟩
      · rw [if_pos rfl, hMab b (.inr rfl)]; exact ⟨hbv, rfl, rfl⟩
    · obtain ⟨h1, h2, h3⟩ := F.child_link i x hl (hold i him hi)
      rw [hch i x him]
      have hne : child node i x ≠ a ∧ child node i x ≠ b :=
        ⟨fun e => by simp [e, hap] at h2, fun e => by simp [e, hbp] at h2⟩
      rw [hMold _ (hvne _ h1) hne.1 hne.2]
      exact ⟨h1, h2, h3⟩
  · intro i x hl hi
    by_cases him : i = m
    · subst him
      have : child (mergeNode m a b node) m x = if x then b else a := by rw [child_eq, hMm]
      rw [this, hmv]
      cases x
      · exact hlow a hav
      · exact hlow b hbv
    · rw [hch i x him]; exact F.child_below i x hl (hold i him hi)
  · intro i hi hp
    by_cases him : i = m
    · subst him; rw [hMm] at hp; cases hp
    · by_cases hia : i = a
      · subst hia
        rw [hMab i (.inl rfl)]
        exact ⟨hml, (hv m).mpr (.inl rfl), .inl (by rw [hMm])⟩
      · by_cases hib : i = b
        · subst hib
          rw [hMab i (.inr rfl)]
          exact ⟨hml, (hv m).mpr (.inl rfl), .inr (by rw [hMm])⟩
        · rw [hMold i him hia hib] at hi hp ⊢
          obtain ⟨h1, h2, h3⟩ := F.parent_link i hi hp
          exact ⟨h1, (hv _).mpr (.inr h2), by rw [hc0 _ (hvne _ h2), hc1 _ (hvne _ h2)]; exact h3⟩
  · rw [← F.total_count, countSum_perm hperm]
    have hrest : countSum (mergeNode m a b node) ((q.erase a).erase b) = countSum node ((q.erase a).erase b) := by
      unfold countSum
      congr 1
      apply List.map_congr_left
      intro i hi
      have : i ∈ q := List.mem_of_mem_erase (List.mem_of_mem_erase hi)
      rw [hcnt i (hvne i ((F.members i).mp this).1)]
    have e : ∀ (nd : Vector Node 511) (x : NodeIdx) (l : List NodeIdx),
        countSum nd (x :: l) = (nodeAt nd x).count.toNat + countSum nd l := fun _ _ _ => rfl
    rw [e, e, e, hrest, hMm, ← Nat.add_assoc]
    simp only [hadd]

/-! ### The tree -/

theorem walk_append (node : Vector Node 511) (i : NodeIdx) (as bs : List Bool) :
    walk node i (as ++ bs) = (walk node i as).bind fun j => walk node j bs := by
  induction as generalizing i with
  | nil => rfl
  | cons a as ih =>
    simp only [List.cons_append, walk]
    split
    · rfl
    · exact ih _

/-- A forest of one tree has the shape of R25. -/
theorem forest_tree {freq : Vector Freq 256} {k : Nat} {r : NodeIdx} {node : Vector Node 511}
    (F : Forest freq k [r] node) : TreeShape freq node r true := by
  have hr := (F.members r).mp (by simp)
  have hn : nsym freq = k + 1 := by have := F.size; simpa using this.symm
  have hroot : ∀ i : NodeIdx, (nodeAt node i).v = true → ((nodeAt node i).pv = false ↔ i = r) := by
    intro i hi
    have := F.members i
    simp only [List.mem_singleton, hi, true_and] at this
    exact this.symm
  refine ⟨F.leaf_valid, F.leaf_count, ?_, F.sum_count, F.children_differ, F.child_link, F.child_below, F.parent_link,
    by simp [hn], fun _ => ⟨hroot, hr.1, ?_⟩, ?_⟩
  · intro i hl; rw [F.internal_valid i hl, hn]; omega
  · have := F.total_count
    simpa [countSum] using this
  · -- climb from the node to the root, whose index is greater at every step
    have key : ∀ n : Nat, ∀ i : NodeIdx, 511 - i.val ≤ n → (nodeAt node i).v = true →
        ∃ bs, walk node r bs = some i := by
      intro n
      induction n with
      | zero => intro i hi; have := i.isLt; omega
      | succ n ih =>
        intro i hi hv
        cases hp : (nodeAt node i).pv with
        | false => exact ⟨[], by rw [(hroot i hv).mp hp]; rfl⟩
        | true =>
          obtain ⟨h1, h2, h3⟩ := F.parent_link i hv hp
          obtain ⟨x, hx⟩ : ∃ x, child node (nodeAt node i).parent x = i := by
            rcases h3 with h | h
            · exact ⟨false, by rw [child_eq]; simpa using h⟩
            · exact ⟨true, by rw [child_eq]; simpa using h⟩
          have hlt := F.child_below _ x h1 h2
          rw [hx] at hlt
          obtain ⟨bs, hbs⟩ := ih (nodeAt node i).parent (by omega) h2
          refine ⟨bs ++ [x], ?_⟩
          rw [walk_append, hbs]
          simp [walk, h1, hx]
    intro i hv
    exact key _ i (Nat.le_refl _) hv

/-- The merge loop turns a forest into one tree, with as many rounds as `q` has members (R110, R114). -/
theorem mergeLoop_spec {freq : Vector Freq 256} (n : Nat) {k : Nat} {q : List NodeIdx} {node : Vector Node 511}
    (F : Forest freq k q node) (hq : q ≠ []) (hn : q.length ≤ n) :
    ∃ r node', mergeLoop n k q node = (some r, node') ∧ TreeShape freq node' r true ∧
      (r ∈ q ∨ 256 + k ≤ r.val) ∧ Forest freq (nsym freq - 1) [r] node' := by
  induction n generalizing k q node with
  | zero => exact absurd (List.length_eq_zero_iff.mp (by omega)) hq
  | succ n ih =>
    rcases pop_spec node q with ⟨h, _⟩ | ⟨a, e1, ha, _⟩
    · exact absurd h hq
    · rcases pop_spec node (q.erase a) with ⟨h, e2⟩ | ⟨b, e2, hb, _⟩
      · have hq1 : q = [a] := by
          have hp := List.perm_cons_erase ha
          rw [h] at hp
          exact List.perm_singleton.mp hp
        subst hq1
        have hk : nsym freq - 1 = k := by have := F.size; simp at this; omega
        exact ⟨a, node, by simp [mergeLoop, pop, minOf], forest_tree F, .inl (by simp), by rw [hk]; exact F⟩
      · have F' := forest_merge F ha hb
        have hl : ((q.erase a).erase b).length + 2 = q.length := by
          rw [List.length_erase_of_mem hb, List.length_erase_of_mem ha]
          have := List.length_pos_of_mem hb
          rw [List.length_erase_of_mem ha] at this
          omega
        obtain ⟨r, node', h1, h2, h3, h4⟩ := ih F' (by simp) (by simp only [List.length_cons]; omega)
        have hk : k < 255 := by have := F.size; have := nsym_le freq; omega
        refine ⟨r, node', by simp [mergeLoop, e1, e2, h1], h2, ?_, h4⟩
        rcases h3 with h3 | h3
        · rcases List.mem_cons.mp h3 with rfl | h3
          · right; rw [internalSlot_val hk]
          · left; exact List.mem_of_mem_erase (List.mem_of_mem_erase h3)
        · right; omega

/-- BUILD's tree has the shape of R25, from an arena without nodes (R110, R114). -/
theorem buildTree_spec (freq : Vector Freq 256) (node : Vector Node 511)
    (h0 : ∀ i : NodeIdx, (nodeAt node i).v = false) (hn : nsym freq ≠ 0) :
    ∃ r node', buildTree freq node = (some r, node') ∧ TreeShape freq node' r true := by
  have F := forest_leaves freq node h0
  have hq : (presentSymbols freq).map leafSlot ≠ [] := by
    intro e
    have := congrArg List.length e
    rw [List.length_map] at this
    exact hn this
  obtain ⟨r, node', h1, h2, _⟩ := mergeLoop_spec _ F hq (Nat.le_refl _)
  exact ⟨r, node', h1, h2⟩

/-- On an empty table BUILD writes no node and finds no root (R113 (2)). -/
theorem buildTree_empty (freq : Vector Freq 256) (node : Vector Node 511) (hn : nsym freq = 0) :
    buildTree freq node = (none, node) := by
  have : presentSymbols freq = [] := List.length_eq_zero_iff.mp hn
  simp [buildTree, this, putLeaves, mergeLoop]

/-- The tree of an empty table (R25 (4), R113 (2)). -/
theorem treeShape_empty {freq : Vector Freq 256} {node : Vector Node 511} {r : NodeIdx}
    (h0 : ∀ i : NodeIdx, (nodeAt node i).v = false) (hn : nsym freq = 0) : TreeShape freq node r false := by
  have hz := nsym_eq_zero.mp hn
  refine ⟨?_, ?_, ?_, ?_, ?_, ?_, ?_, ?_, by simp [hn], fun h => absurd hn h, ?_⟩
  · intro x; simp [h0, hz]
  · intro x hx; exact absurd (hz x) hx
  · intro i hl; have := isLeaf_eq_false.mp hl; simp [h0, hn]; omega
  · intro i _ hi; simp [h0] at hi
  · intro i _ hi; simp [h0] at hi
  · intro i _ _ hi; simp [h0] at hi
  · intro i _ _ hi; simp [h0] at hi
  · intro i hi; simp [h0] at hi
  · intro i hi; simp [h0] at hi

/-- The body of BUILD (R110): it always ends with `PHASE` = BUILT, writes only the tree, and from an arena without nodes
leaves the shape of R25. -/
theorem buildBody_spec (s : State) (h0 : ∀ i : NodeIdx, (nodeAt s.node i).v = false) :
    ∃ node root rootv, buildBody s = { s with node := node, root := root, rootv := rootv, phase := .built } ∧
      TreeShape s.freq node root rootv := by
  by_cases hn : nsym s.freq = 0
  · exact ⟨s.node, s.root, false, by simp [buildBody, buildTree_empty _ _ hn], treeShape_empty h0 hn⟩
  · obtain ⟨r, node, h1, h2⟩ := buildTree_spec s.freq s.node h0 hn
    exact ⟨node, r, true, by simp [buildBody, h1], h2⟩

end Sys2Proof.Machine
end

