-- ==== Sys2Proof/Laws/Traverse.lean ====
section
/-! SUPPORT. What the tree traversal can do (R120 to R123): ENC's walk finds the code of a present symbol, DEC's walk reads
it back, codes are prefix-free. -/

namespace Sys2Proof.Machine

open Safety

variable {freq : Vector Freq 256} {node : Vector Node 511} {root : NodeIdx} {rootv : Bool}

/-- A branch label leads back to the child it was recorded for (R120 corner case 2). -/
theorem child_branchLabel (T : TreeShape freq node root rootv) {i : NodeIdx} (hv : (nodeAt node i).v = true)
    (hp : (nodeAt node i).pv = true) :
    child node (nodeAt node i).parent (branchLabel node (nodeAt node i).parent i) = i := by
  obtain ⟨h1, h2, h3⟩ := T.parent_link i hv hp
  rw [child_eq]
  by_cases h : (nodeAt node (nodeAt node i).parent).c1 = i
  · have : branchLabel node (nodeAt node i).parent i = true := by simpa [branchLabel, nodeAt] using h
    rw [this, if_pos rfl, h]
  · have : branchLabel node (nodeAt node i).parent i = false := by simpa [branchLabel, nodeAt] using h
    rw [this, if_neg (by simp)]
    exact h3.resolve_right h

/-- ENC's walk from a node of the tree (R120): it ends at the root, and the bits it recorded lead from the root to the node
and on along the bits recorded before. It never runs out of the code register (R123: each step goes to a greater index). -/
theorem climb_spec (T : TreeShape freq node root rootv) (hn : nsym freq ≠ 0) (room : Nat) {i j : NodeIdx}
    {acc : List Bool} (hv : (nodeAt node i).v = true) (hroom : 510 ≤ room + i.val ∨ (isLeaf i = true ∧ 255 ≤ room))
    (hacc : walk node i acc = some j) :
    ∃ bs, climb node room i acc = some bs ∧ walk node root bs = some j := by
  induction room generalizing i acc with
  | zero =>
    cases hp : (nodeAt node i).pv with
    | false =>
      have : i = root := ((T.root_only hn).1 i hv).mp hp
      exact ⟨acc, by simp [climb, hp], this ▸ hacc⟩
    | true =>
      obtain ⟨h1, h2, _⟩ := T.parent_link i hv hp
      have hlt := T.child_below _ (branchLabel node (nodeAt node i).parent i) h1 h2
      rw [child_branchLabel T hv hp] at hlt
      have := (nodeAt node i).parent.isLt
      rcases hroom with h | ⟨_, h⟩ <;> omega
  | succ room ih =>
    cases hp : (nodeAt node i).pv with
    | false =>
      have : i = root := ((T.root_only hn).1 i hv).mp hp
      exact ⟨acc, by simp [climb, hp], this ▸ hacc⟩
    | true =>
      obtain ⟨h1, h2, _⟩ := T.parent_link i hv hp
      have hlt := T.child_below _ (branchLabel node (nodeAt node i).parent i) h1 h2
      rw [child_branchLabel T hv hp] at hlt
      have hge := isLeaf_eq_false.mp h1
      obtain ⟨bs, e1, e2⟩ := ih (i := (nodeAt node i).parent)
        (acc := branchLabel node (nodeAt node i).parent i :: acc) h2
        (by rcases hroom with h | ⟨_, h⟩ <;> left <;> omega)
        (by simp only [walk, h1, child_branchLabel T hv hp]; simpa using hacc)
      exact ⟨bs, by simp [climb, hp, e1], e2⟩

/-- A leaf is the root only in the degenerate tree (R113, R120 corner case 1). -/
theorem root_leaf (T : TreeShape freq node root rootv) {x : Byte} (hx : freqOf freq x ≠ 0#31)
    (hl : isLeaf root = true) : root = leafSlot x := by
  have hn : nsym freq ≠ 0 := fun e => hx (nsym_eq_zero.mp e x)
  have hv := (T.leaf_valid x).mpr hx
  obtain ⟨bs, hbs⟩ := T.reachable _ hv
  cases bs with
  | nil => simpa [walk] using hbs
  | cons b bs => simp [walk, hl] at hbs

/-- Every present symbol has a code (R120, R122 (1), (2)). -/
theorem codeOf_spec (T : TreeShape freq node root rootv) {x : Byte} (hx : freqOf freq x ≠ 0#31) :
    ∃ bs, codeOf node root x = some bs ∧ IsCode node root x bs := by
  have hn : nsym freq ≠ 0 := fun e => hx (nsym_eq_zero.mp e x)
  have hv := (T.leaf_valid x).mpr hx
  by_cases hr : root = leafSlot x
  · exact ⟨[false], by simp [codeOf, hr], by simp [IsCode, hr]⟩
  · have hl : isLeaf root = false := by
      cases h : isLeaf root with
      | false => rfl
      | true => exact absurd (root_leaf T hx h) hr
    obtain ⟨bs, e1, e2⟩ := climb_spec T hn Config.maxDepth (j := leafSlot x) (acc := []) hv
      (.inr ⟨isLeaf_leafSlot x, Nat.le_refl _⟩) rfl
    exact ⟨bs, by simp [codeOf, hr, e1], by simp [IsCode, hl, e2]⟩

/-- Codes are prefix-free from any node: two walks that end on leaves along comparable bits are one walk (R69, R122 (3)). -/
theorem walk_prefix_free (node : Vector Node 511) {i j k : NodeIdx} {as bs : List Bool}
    (h1 : walk node i as = some j) (hj : isLeaf j = true) (h2 : walk node i (as ++ bs) = some k) : bs = [] ∧ j = k := by
  rw [walk_append, h1] at h2
  cases bs with
  | nil => exact ⟨rfl, by simpa [walk] using h2⟩
  | cons b bs => simp [walk, hj] at h2

/-- Every node a walk from a valid node reaches is valid (R25 (3)). -/
theorem walk_valid (T : TreeShape freq node root rootv) {as : List Bool} {i j : NodeIdx}
    (hv : (nodeAt node i).v = true) (h : walk node i as = some j) : (nodeAt node j).v = true := by
  induction as generalizing i with
  | nil => simp only [walk, Option.some.injEq] at h; rwa [← h]
  | cons a as ih =>
    cases hl : isLeaf i with
    | true => simp [walk, hl] at h
    | false =>
      simp only [walk, hl] at h
      exact ih (T.child_link i a hl hv).1 (by simpa using h)

/-- The last step of a walk. -/
theorem walk_snoc (node : Vector Node 511) {i j : NodeIdx} {as : List Bool} {a : Bool}
    (h : walk node i (as ++ [a]) = some j) :
    ∃ p, walk node i as = some p ∧ isLeaf p = false ∧ child node p a = j := by
  rw [walk_append] at h
  obtain ⟨p, h1, h2⟩ := Option.bind_eq_some_iff.mp h
  cases hl : isLeaf p with
  | true => simp [walk, hl] at h2
  | false => exact ⟨p, h1, hl, by simpa [walk, hl] using h2⟩

/-- A node of the tree has one path from the root (R25 (5), R122). -/
theorem path_unique (T : TreeShape freq node root rootv) (hn : nsym freq ≠ 0) {as bs : List Bool} {j : NodeIdx}
    (h1 : walk node root as = some j) (h2 : walk node root bs = some j) : as = bs := by
  obtain ⟨hroot, hrv, _⟩ := T.root_only hn
  have hrp : (nodeAt node root).pv = false := (hroot root hrv).mpr rfl
  have last : ∀ {cs : List Bool} {c : Bool} {k : NodeIdx}, walk node root (cs ++ [c]) = some k →
      (nodeAt node k).pv = true ∧ walk node root cs = some (nodeAt node k).parent ∧
        isLeaf (nodeAt node k).parent = false ∧ child node (nodeAt node k).parent c = k := by
    intro cs c k h
    obtain ⟨p, e1, e2, e3⟩ := walk_snoc node h
    obtain ⟨_, h4, h5⟩ := T.child_link p c e2 (walk_valid T hrv e1)
    rw [e3] at h4 h5
    rw [h5]
    exact ⟨h4, e1, e2, e3⟩
  induction as using List.reverseRecOn generalizing bs j with
  | nil =>
    simp only [walk, Option.some.injEq] at h1
    subst h1
    rcases List.eq_nil_or_concat' bs with rfl | ⟨cs, c, rfl⟩
    · rfl
    · rw [(last h2).1] at hrp; cases hrp
  | append_singleton as a ih =>
    obtain ⟨_, e1, e2, e3⟩ := last h1
    rcases List.eq_nil_or_concat' bs with rfl | ⟨cs, c, rfl⟩
    · simp only [walk, Option.some.injEq] at h2
      subst h2
      rw [(last h1).1] at hrp; cases hrp
    · obtain ⟨_, f1, _, f3⟩ := last h2
      have hd := T.children_differ _ e2 (walk_valid T hrv e1)
      have hac : a = c := by
        rw [child_eq] at e3 f3
        cases a <;> cases c <;> simp_all
      rw [ih e1 f1, hac]

/-- The code ENC writes is the one code of the symbol (R122 (1)). -/
theorem codeOf_eq_iff (T : TreeShape freq node root rootv) {x : Byte} (hx : freqOf freq x ≠ 0#31) {bs : List Bool} :
    codeOf node root x = some bs ↔ IsCode node root x bs := by
  obtain ⟨cs, h1, h2⟩ := codeOf_spec T hx
  have hn : nsym freq ≠ 0 := fun e => hx (nsym_eq_zero.mp e x)
  constructor
  · intro h
    rw [h1] at h
    rwa [← Option.some.inj h]
  · intro h
    rw [h1]
    unfold IsCode at h h2
    split at h
    · rw [if_pos (by assumption)] at h2
      rw [h.2, h2.2]
    · rw [if_neg (by assumption)] at h2
      rw [path_unique T hn h2 h]

/-! ### DEC (R121) -/

/-- DEC's walk along a path to a leaf that the reader's next bits spell (R121, R122 (4)): it arrives there and consumes
exactly those bits. -/
theorem descend_walk {bs rest : List Bool} {n : Nat} {i j : NodeIdx} {s : State} (h : ReaderOk s)
    (hw : walk s.node i bs = some j) (hj : isLeaf j = true) (hb : bitsAhead s = bs ++ rest) (hn : bs.length ≤ n) :
    ∃ t, descend n i s = .done j t ∧ ReaderOk t ∧ SameButReader s t ∧ bitsAhead t = rest := by
  induction bs generalizing n i s with
  | nil =>
    simp only [walk, Option.some.injEq] at hw
    subst hw
    refine ⟨s, ?_, h, .refl s, by simpa using hb⟩
    cases n <;> simp [descend, hj]
  | cons b bs ih =>
    cases hl : isLeaf i with
    | true => simp [walk, hl] at hw
    | false =>
      simp only [walk, hl] at hw
      cases n with
      | zero => simp at hn
      | succ n =>
        rcases nextBit_spec h with ⟨h1, _⟩ | ⟨c, t, h1, h2, h3, h4, _⟩
        · simp [h1] at hb
        · rw [hb] at h1
          obtain ⟨rfl, hbt⟩ := List.cons.inj h1
          obtain ⟨u, k1, k2, k3, k4⟩ := ih (n := n) (i := child t.node i b) h3
            (by rw [h4.node]; simpa using hw) hbt.symm (by simpa using hn)
          exact ⟨u, by simp [descend, hl, h2, k1], k2, h4.trans k3, k4⟩

/-- What DEC's walk can do from any node of any arena: it arrives on a leaf, or the source ends (R121). It never stops the
model. -/
theorem descend_cases (n : Nat) {i : NodeIdx} {s : State} (h : ReaderOk s) (hn : (bitsAhead s).length ≤ n) :
    descend n i s = formatError .truncated ∨
      ∃ x t, descend n i s = .done (leafSlot x) t ∧ ReaderOk t ∧ SameButReader s t ∧
        (isLeaf i = false → (bitsAhead t).length < (bitsAhead s).length) ∧
        (bitsAhead t).length ≤ (bitsAhead s).length := by
  induction n generalizing i s with
  | zero =>
    cases hl : isLeaf i with
    | true =>
      obtain ⟨x, rfl⟩ := isLeaf_iff.mp hl
      exact .inr ⟨x, s, by simp [descend], h, .refl s, by simp, Nat.le_refl _⟩
    | false =>
      left
      rcases nextBit_spec h with ⟨_, e⟩ | ⟨b, t, e, _⟩
      · simp [descend, hl, e, formatError]
      · simp [e] at hn
  | succ n ih =>
    cases hl : isLeaf i with
    | true =>
      obtain ⟨x, rfl⟩ := isLeaf_iff.mp hl
      exact .inr ⟨x, s, by simp [descend], h, .refl s, by simp, Nat.le_refl _⟩
    | false =>
      rcases nextBit_spec h with ⟨_, e⟩ | ⟨b, t, e, e2, ht, hst, _⟩
      · left; simp [descend, hl, e, formatError]
      · have hlen : (bitsAhead s).length = (bitsAhead t).length + 1 := by rw [e]; simp
        rcases ih (i := child t.node i b) ht (by omega) with e' | ⟨x, u, e', hu, htu, _, hle⟩
        · left; simp [descend, hl, e2, e', formatError]
        · exact .inr ⟨x, u, by simp [descend, hl, e2, e'], hu, hst.trans htu, fun _ => by omega, by omega⟩

/-- The walk's bound covers the bits the reader has left: the bound itself never shows. -/
theorem descend_bitsLeft {s : State} (h : ReaderOk s) : (bitsAhead s).length ≤ bitsLeft s :=
  Nat.le_of_eq (bitsLeft_eq h).symm

/-- What DEC's body can do (R121): a symbol and at least one bit consumed, or a format error. -/
theorem decodeSymbol_cases {s : State} (h : ReaderOk s) :
    (∃ c, (c = .truncated ∨ c = .degenBit) ∧ decodeSymbol s = formatError c) ∨
      ∃ x t, decodeSymbol s = .done (leafSlot x) t ∧ ReaderOk t ∧ SameButReader s t ∧
        (bitsAhead t).length < (bitsAhead s).length := by
  unfold decodeSymbol
  cases hl : isLeaf s.root with
  | true =>
    rcases nextBit_spec h with ⟨_, e⟩ | ⟨b, t, e, e2, ht, hst, _⟩
    · exact .inl ⟨.truncated, .inl rfl, by simp [e, formatError]⟩
    · cases b with
      | true => exact .inl ⟨.degenBit, .inr rfl, by simp [e2]⟩
      | false =>
        obtain ⟨x, hx⟩ := isLeaf_iff.mp hl
        exact .inr ⟨x, t, by simp [e2, hst.root, hx], ht, hst, by rw [e]; simp⟩
  | false =>
    rcases descend_cases (bitsLeft s) (i := s.root) h (descend_bitsLeft h) with
      e | ⟨x, t, e, ht, hst, hlt, _⟩
    · exact .inl ⟨.truncated, .inl rfl, by simpa using e⟩
    · exact .inr ⟨x, t, by simpa using e, ht, hst, hlt hl⟩

/-- DEC reads back a code (R122 (4)): the symbol comes out and exactly the code's bits are consumed. -/
theorem decodeSymbol_code {s : State} {x : Byte} {bs rest : List Bool} (h : ReaderOk s)
    (hc : IsCode s.node s.root x bs) (hb : bitsAhead s = bs ++ rest) :
    ∃ t, decodeSymbol s = .done (leafSlot x) t ∧ ReaderOk t ∧ SameButReader s t ∧ bitsAhead t = rest := by
  unfold IsCode at hc
  unfold decodeSymbol
  split at hc
  · rename_i hl
    obtain ⟨hr, rfl⟩ := hc
    rcases nextBit_spec h with ⟨e, _⟩ | ⟨b, t, e, e2, ht, hst, _⟩
    · simp [hb] at e
    · rw [hb] at e
      obtain ⟨hb0, hbt⟩ := List.cons.inj e
      exact ⟨t, by simp [e2, ← hb0, hst.root, hr], ht, hst, hbt.symm⟩
  · rename_i hl
    have hn : bs.length ≤ bitsLeft s := by rw [bitsLeft_eq h, hb]; simp
    obtain ⟨t, e1, e2, e3, e4⟩ := descend_walk h hc (isLeaf_leafSlot x) hb hn
    exact ⟨t, by simpa [hl] using e1, e2, e3, e4⟩

end Sys2Proof.Machine
end

