-- ==== Sys2Proof/Laws/Container.lean ====
section
/-! SUPPORT. The parts of COMPRESS and DECOMPRESS (R130, R131): the tally pass, the encode pass, the decode pass. -/

namespace Sys2Proof.Machine

open Safety

/-! ### Fresh sessions (R172) -/

theorem freqClear_iff {freq : Vector Freq 256} : freqClear freq = true ↔ ∀ x, freqOf freq x = 0#31 := by
  rw [freqClear, ← symbols_map_freqOf]
  simp [mem_symbols]

theorem nodesClear_iff {node : Vector Node 511} :
    nodesClear node = true ↔ ∀ i : NodeIdx, (nodeAt node i).v = false ∧ (nodeAt node i).pv = false := by
  simp only [nodesClear, List.all_eq_true, Bool.and_eq_true, Bool.not_eq_true', nodeAt]
  constructor
  · intro h i
    exact h _ (by simp)
  · intro h n hn
    obtain ⟨i, hi, rfl⟩ := List.getElem_of_mem hn
    have hi : i < 511 := by simpa using hi
    simpa using h ⟨i, hi⟩

/-- What Fresh says of each element (R172). -/
theorem fresh_iff {s : State} : fresh s = true ↔
    s.fault = .ok ∧ s.finfo = 0#8 ∧ s.phase = .empty ∧ s.wbuf = 0#8 ∧ s.wn = 0 ∧ s.rbuf = 0#8 ∧ s.rn = 8 ∧ s.sp = 0 ∧
      s.snk = [] ∧ (∀ x, freqOf s.freq x = 0#31) ∧
      (∀ i : NodeIdx, (nodeAt s.node i).v = false ∧ (nodeAt s.node i).pv = false) ∧ s.root = 0 ∧ s.rootv = false := by
  simp only [fresh, Bool.and_eq_true, beq_iff_eq, freqClear_iff, nodesClear_iff, List.isEmpty_iff, Bool.not_eq_true',
    and_assoc]

theorem fresh_reset (src : Memory) : fresh (freshSession src) = true := by
  rw [fresh_iff]
  refine ⟨rfl, rfl, rfl, rfl, rfl, rfl, rfl, rfl, rfl, fun x => freqOf_replicate x, fun i => ?_, rfl, rfl⟩
  have : nodeAt (freshSession src).node i = Node.unused := by simp [nodeAt, freshSession, State.reset]
  rw [this]; exact ⟨rfl, rfl⟩

theorem writerOk_fresh {s : State} (h1 : s.wbuf = 0#8) (h2 : s.wn = 0) : WriterOk s :=
  ⟨by simp [h2], fun k _ _ => by rw [h1]; exact streamBit_zero k⟩

theorem writtenBits_fresh {s : State} (h1 : s.snk = []) (h2 : s.wn = 0) : writtenBits s = [] := by
  simp [writtenBits, h1, h2]

/-! ### The tally pass -/

/-- Only the table differs. -/
def SameButFreq (s t : State) : Prop := t = { s with freq := t.freq }

/-- Tallying an input (R100, R130 step 1): every counter grows by the symbol's occurrences, when none overflows. -/
theorem tallyAll_spec (xs : List Byte) {s : State} (hp : s.phase = .empty)
    (hc : ∀ x, (freqOf s.freq x).toNat + xs.count x ≤ Config.maxFreq) :
    ∃ t, tallyAll xs s = .done () t ∧ SameButFreq s t ∧
      ∀ x, (freqOf t.freq x).toNat = (freqOf s.freq x).toNat + xs.count x := by
  induction xs generalizing s with
  | nil => exact ⟨s, rfl, rfl, by simp⟩
  | cons y xs ih =>
    have hy : (freqOf s.freq y).toNat < Config.maxFreq := by
      have := hc y
      simp only [List.count_cons_self] at this
      omega
    have hcount : ∀ x, (y :: xs).count x = xs.count x + if x = y then 1 else 0 := by
      intro x
      rw [List.count_cons]
      by_cases h : x = y
      · subst h; simp
      · have h' : ¬ y = x := fun e => h e.symm
        simp [h, h']
    have hinc : (freqOf s.freq y + 1#31).toNat = (freqOf s.freq y).toNat + 1 := by
      rw [BitVec.toNat_add]
      simp only [Config.maxFreq] at hy
      exact Nat.mod_eq_of_lt (by simp; omega)
    have hf : ∀ x, (freqOf (setFreq y (freqOf s.freq y + 1#31) s).freq x).toNat =
        (freqOf s.freq x).toNat + if x = y then 1 else 0 := by
      intro x
      rw [freqOf_setFreq]
      split
      · subst_vars; exact hinc
      · simp
    obtain ⟨t, e, hst, ht⟩ := ih (s := setFreq y (freqOf s.freq y + 1#31) s) hp (fun x => by
      have := hc x
      rw [hcount x] at this
      rw [hf x]; omega)
    refine ⟨t, by simp [tallyAll, tally_done hp hy, e], ?_, fun x => by rw [ht x, hf x, hcount x]; omega⟩
    unfold SameButFreq at *
    rw [hst]; rfl

/-- What the tally pass can do in an EMPTY session: it is done, or a counter would overflow (R100, R130). -/
theorem tallyAll_cases (xs : List Byte) {s : State} (hp : s.phase = .empty) :
    (∃ x ∈ xs, tallyAll xs s = .raised .body .countOverflow x) ∨
      ∃ t, tallyAll xs s = .done () t ∧ SameButFreq s t ∧
        ∀ x, (freqOf t.freq x).toNat = (freqOf s.freq x).toNat + xs.count x := by
  induction xs generalizing s with
  | nil => exact .inr ⟨s, rfl, rfl, by simp⟩
  | cons y xs ih =>
    by_cases hy : (freqOf s.freq y).toNat < Config.maxFreq
    · rcases ih (s := setFreq y (freqOf s.freq y + 1#31) s) hp with ⟨x, hx, e⟩ | ⟨t, e, hst, ht⟩
      · exact .inl ⟨x, by simp [hx], by simp [tallyAll, tally_done hp hy, e]⟩
      · refine .inr ⟨t, by simp [tallyAll, tally_done hp hy, e], ?_, fun x => ?_⟩
        · unfold SameButFreq at *
          rw [hst]; rfl
        · rw [ht x, freqOf_setFreq, List.count_cons]
          by_cases h : x = y
          · subst h
            have : (freqOf s.freq x + 1#31).toNat = (freqOf s.freq x).toNat + 1 := by
              rw [BitVec.toNat_add]
              simp only [Config.maxFreq] at hy
              exact Nat.mod_eq_of_lt (by simp; omega)
            simp only [if_pos, this, beq_self_eq_true]; omega
          · have h' : ¬ y = x := fun e => h e.symm
            simp [h, h']
    · left
      exact ⟨y, by simp, by simp [tallyAll, tally, hp, hy]⟩

theorem tallyAll_append (xs ys : List Byte) (s : State) :
    tallyAll (xs ++ ys) s = (tallyAll xs s).bind fun _ t => tallyAll ys t := by
  induction xs generalizing s with
  | nil => rfl
  | cons x xs ih =>
    simp only [List.cons_append, tallyAll]
    cases (tally x s).inner <;> simp [ih]

/-- The tally pass faults on the first byte whose counter is at its top (R100, R130 step 1). -/
theorem tallyAll_overflow {pre rest : List Byte} {x : Byte} {s : State} (hp : s.phase = .empty)
    (hc : ∀ y, (freqOf s.freq y).toNat + pre.count y ≤ Config.maxFreq)
    (hx : (freqOf s.freq x).toNat + pre.count x = Config.maxFreq) :
    tallyAll (pre ++ x :: rest) s = .raised .body .countOverflow x := by
  obtain ⟨t, e, hst, ht⟩ := tallyAll_spec pre hp hc
  have hpt : t.phase = .empty := by rw [hst]; exact hp
  have hxt : ¬ (freqOf t.freq x).toNat < Config.maxFreq := by rw [ht x, hx]; exact Nat.lt_irrefl _
  rw [tallyAll_append, e, bind_done]
  simp [tallyAll, tally, hpt, hxt]

/-! ### The encode pass -/

/-- The payload of an input under a tree: the codes of its symbols in order (R65, R130 step 5). -/
def payload (node : Vector Node 511) (root : NodeIdx) (xs : List Byte) : List Bool :=
  xs.flatMap fun x => (codeOf node root x).getD []

theorem enc_done {x : Byte} {s : State} {bs : List Bool} (hp : s.phase = .built) (hr : s.rootv = true)
    (hv : (nodeAt s.node (leafSlot x)).v = true) (hc : codeOf s.node s.root x = some bs) :
    enc x s = .done () (writeBits bs s) := by
  simp [enc, hp, hr, hv, hc]

/-- Encoding an input whose symbols all have a code (R120, R130 step 5) writes its payload. -/
theorem encAll_spec (xs : List Byte) {s : State} (hp : s.phase = .built)
    (T : TreeShape s.freq s.node s.root s.rootv) (hx : ∀ x ∈ xs, freqOf s.freq x ≠ 0#31) :
    encAll xs s = .done () (writeBits (payload s.node s.root xs) s) := by
  induction xs generalizing s with
  | nil => rfl
  | cons y xs ih =>
    have hy : freqOf s.freq y ≠ 0#31 := hx y (by simp)
    have hn : nsym s.freq ≠ 0 := fun e => hy (nsym_eq_zero.mp e y)
    obtain ⟨bs, hc, _⟩ := codeOf_spec T hy
    have e := enc_done hp (T.root_valid.mpr hn) ((T.leaf_valid y).mpr hy) hc
    have hfr : SameButWriter s (writeBits bs s) := writeBits_frame bs s
    have h1 : (writeBits bs s).phase = s.phase := by rw [hfr]
    have h2 : (writeBits bs s).freq = s.freq := by rw [hfr]
    have h3 : (writeBits bs s).node = s.node := by rw [hfr]
    have h4 : (writeBits bs s).root = s.root := by rw [hfr]
    have h5 : (writeBits bs s).rootv = s.rootv := by rw [hfr]
    have := ih (s := writeBits bs s) (by rw [h1, hp]) (by rw [h2, h3, h4, h5]; exact T)
      (fun x h => by rw [h2]; exact hx x (by simp [h]))
    rw [encAll, e, inner_done, bind_done, this, h3, h4]
    simp [payload, hc, writeBits_append]

/-! ### The decode pass -/

/-- The reader, `RES` and the sink may differ, nothing else. -/
def SameButDecoder (s t : State) : Prop :=
  t = { s with res := t.res, rbuf := t.rbuf, rn := t.rn, sp := t.sp, snk := t.snk }

theorem SameButDecoder.refl (s : State) : SameButDecoder s s := rfl

theorem SameButDecoder.trans {s t u : State} (h : SameButDecoder s t) (k : SameButDecoder t u) :
    SameButDecoder s u := by
  unfold SameButDecoder at *
  rw [k, h]

theorem SameButReader.decoder {s t : State} (h : SameButReader s t) (v : Word32) (b : Byte) :
    SameButDecoder s (snkPut b { t with res := v }) := by
  unfold SameButReader SameButDecoder at *
  rw [h]; rfl

theorem resByte (x : Byte) : (BitVec.ofNat 32 (leafSlot x).val).extractLsb' 0 8 = x := by
  apply BitVec.eq_of_toNat_eq
  simp [BitVec.extractLsb']
  omega

/-- DEC as an operation, from its body (R121). -/
theorem dec_done {s t : State} {x : Byte} (hp : s.phase = .built) (hr : s.rootv = true)
    (e : decodeSymbol s = .done (leafSlot x) t) :
    dec s = .done () { t with res := BitVec.ofNat 32 (leafSlot x).val } := by
  simp [dec, hp, hr, e, setRes]

theorem dec_raised {s : State} {p : RaisePoint} {c : FaultCode} {i : Byte} (hp : s.phase = .built)
    (hr : s.rootv = true) (e : decodeSymbol s = .raised p c i) : dec s = .raised p c i := by
  simp [dec, hp, hr, e]

/-- Decoding a payload (R121, R131 step 5): the symbols go to the sink in order and exactly their codes are consumed. -/
theorem decAll_spec (xs : List Byte) {s : State} {rest : List Bool} (h : ReaderOk s) (hp : s.phase = .built)
    (hr : s.rootv = true) (hc : ∀ x ∈ xs, ∃ bs, codeOf s.node s.root x = some bs ∧ IsCode s.node s.root x bs)
    (hb : bitsAhead s = payload s.node s.root xs ++ rest) :
    ∃ t, decAll xs.length s = .done () t ∧ ReaderOk t ∧ SameButDecoder s t ∧ bitsAhead t = rest ∧
      t.snk = s.snk ++ xs := by
  induction xs generalizing s with
  | nil => exact ⟨s, rfl, h, .refl s, by simpa [payload] using hb, by simp⟩
  | cons x xs ih =>
    obtain ⟨bs, hc1, hc2⟩ := hc x (by simp)
    have hb' : bitsAhead s = bs ++ (payload s.node s.root xs ++ rest) := by
      rw [hb]; simp [payload, hc1]
    obtain ⟨t, e, ht, hst, hbt⟩ := decodeSymbol_code h hc2 hb'
    let u : State := snkPut x { t with res := BitVec.ofNat 32 (leafSlot x).val }
    have hu : SameButDecoder s u := hst.decoder _ _
    have hnode : u.node = s.node := hst.node
    have hroot : u.root = s.root := hst.root
    obtain ⟨w, e', hw, huw, hbw, hsnk⟩ := ih (s := u) ⟨ht.inside, ht.held⟩ (hst.phase.trans hp) (hst.rootv.trans hr)
      (fun y hy => by rw [hnode, hroot]; exact hc y (by simp [hy])) (by rw [hnode, hroot]; exact hbt)
    refine ⟨w, ?_, hw, hu.trans huw, hbw, ?_⟩
    · rw [List.length_cons, decAll, dec_done hp hr e, inner_done, bind_done]
      simp only [resByte]
      exact e'
    · rw [hsnk]
      have : t.snk = s.snk := by rw [hst]
      simp [u, this]

/-- What the decode pass can do in a BUILT session with a tree (R121, R131): it is done with `n` bytes in the sink, or the
source is malformed. -/
theorem decAll_cases (n : Nat) {s : State} (h : ReaderOk s) (hp : s.phase = .built) (hr : s.rootv = true) :
    (∃ c, (c = .truncated ∨ c = .degenBit) ∧ decAll n s = formatError c) ∨
      ∃ t xs, decAll n s = .done () t ∧ ReaderOk t ∧ SameButDecoder s t ∧ t.snk = s.snk ++ xs ∧ xs.length = n := by
  induction n generalizing s with
  | zero => exact .inr ⟨s, [], rfl, h, .refl s, by simp, rfl⟩
  | succ n ih =>
    rcases decodeSymbol_cases h with ⟨c, hc, e⟩ | ⟨x, t, e, ht, hst, _⟩
    · exact .inl ⟨c, hc, by simp [decAll, dec_raised hp hr e, formatError]⟩
    · let u : State := snkPut x { t with res := BitVec.ofNat 32 (leafSlot x).val }
      have hd : decAll (n + 1) s = decAll n u := by
        rw [decAll, dec_done hp hr e, inner_done, bind_done]
        simp only [resByte, u]
      rcases ih (s := u) ⟨ht.inside, ht.held⟩ (hst.phase.trans hp) (hst.rootv.trans hr) with
        ⟨c, hc, e'⟩ | ⟨w, xs, e', hw, huw, hsnk, hlen⟩
      · exact .inl ⟨c, hc, by rw [hd, e']⟩
      · refine .inr ⟨w, x :: xs, by rw [hd, e'], hw, (hst.decoder _ _).trans huw, ?_, by simp [hlen]⟩
        rw [hsnk]
        have : t.snk = s.snk := by rw [hst]
        simp [u, this]

end Sys2Proof.Machine
end

