-- ==== Sys2Proof/Laws/Frames.lean ====
section
/-! SUPPORT. What the bodies that read the source can do from ANY state, reached or not: what they leave alone when they
are done, the format errors they can raise, and the one way they can stop the model. -/

namespace Sys2Proof.Machine

open Sys2Proof.Safety

variable {α β : Type}

/-- How a reading body ends: done in a state with `P`, or a FORMAT_ERROR with a sub-cause in `C` raised inside the body, or
the model stops at a source byte that does not exist. -/
def Ends (C : FormatCause → Prop) (P : State → Prop) : Result α → Prop
  | .done _ t => P t
  | .raised p c i => p = .body ∧ c = .formatError ∧ ∃ k, C k ∧ i = causeInfo k
  | .stopped f => f = .noSuchSourceByte

theorem Ends.bind {C : FormatCause → Prop} {P Q : State → Prop} {r : Result α} {k : α → State → Result β}
    (h : Ends C P r) (hk : ∀ a t, P t → Ends C Q (k a t)) : Ends C Q (r.bind k) := by
  cases r with
  | done a t => exact hk a t h
  | raised p c i => exact h
  | stopped f => exact h

theorem Ends.inner {C : FormatCause → Prop} {P : State → Prop} {r : Result α} (h : Ends C P r) : Ends C P r.inner := by
  cases r with
  | done a t => exact h
  | raised p c i => exact ⟨rfl, h.2⟩
  | stopped f => exact h

theorem Ends.mono {C D : FormatCause → Prop} {P Q : State → Prop} {r : Result α} (h : Ends C P r)
    (hc : ∀ c, C c → D c) (hp : ∀ t, P t → Q t) : Ends D Q r := by
  cases r with
  | done a t => exact hp t h
  | raised p c i => obtain ⟨h1, h2, k, h3, h4⟩ := h; exact ⟨h1, h2, k, hc k h3, h4⟩
  | stopped f => exact h

theorem formatError_ends {C : FormatCause → Prop} {P : State → Prop} {c : FormatCause} (h : C c) :
    Ends C P (formatError c : Result α) := ⟨rfl, rfl, c, h, rfl⟩

/-! ### Reader -/

theorem nextBit_ends (s : State) : Ends (· = .truncated) (SameButReader s) (nextBit s) := by
  refine Ends.bind (P := SameButReader s) ?_ fun _ t h => ?_
  · unfold refillIfUsed refill
    split
    · split
      · exact formatError_ends rfl
      · split
        · exact rfl
        · exact rfl
    · exact SameButReader.refl s
  · exact h.trans rfl

theorem nextBits_ends (n : Nat) (s : State) : Ends (· = .truncated) (SameButReader s) (nextBits n s) := by
  induction n generalizing s with
  | zero => exact SameButReader.refl s
  | succ n ih =>
    exact (nextBit_ends s).bind fun _ t ht => ((ih t).bind (Q := SameButReader s) fun _ u hu => ht.trans hu)

theorem readField_ends (w : Nat) (s : State) : Ends (· = .truncated) (SameButReader s) (readField w s) :=
  (nextBits_ends w s).bind fun _ _ h => h

/-! ### Header -/

theorem truncated_headerCause (c : FormatCause) (h : c = .truncated) : headerCause c := .inl h

theorem readPair_ends (bf : Nat) (s : State) : Ends headerCause (SameButTable s) (readPair bf s) := by
  refine ((readField_ends Config.symW s).mono truncated_headerCause fun _ h => h).bind fun x t ht => ?_
  refine ((readField_ends bf t).mono truncated_headerCause fun _ h => h).bind fun f u hu => ?_
  split
  · exact formatError_ends (by simp [headerCause])
  · split
    · exact formatError_ends (by simp [headerCause])
    · exact (ht.trans hu).table.trans (setFreq_table _ _ u)

theorem readPairs_ends (bf n : Nat) (s : State) : Ends headerCause (SameButTable s) (readPairs bf n s) := by
  induction n generalizing s with
  | zero => exact SameButTable.refl s
  | succ n ih => exact (readPair_ends bf s).bind fun _ t ht => (ih t).mono (fun _ h => h) fun _ hu => ht.trans hu

theorem readHeader_ends (s : State) : Ends headerCause (SameButTable s) (readHeader s) := by
  refine ((readField_ends Config.cntW s).mono truncated_headerCause fun _ h => h).bind fun n t ht => ?_
  split
  · exact formatError_ends (by simp [headerCause])
  · split
    · exact formatError_ends (by simp [headerCause])
    · refine ((readField_ends Config.bfwW t).mono truncated_headerCause fun _ h => h).bind fun bf u hu => ?_
      exact (readPairs_ends bf n u).mono (fun _ h => h) fun _ hv => (ht.trans hu).table.trans hv

/-! ### Decoding -/

/-- The sub-causes a code can fault with (R121, R154). -/
def codeCause (c : FormatCause) : Prop := c = .truncated ∨ c = .degenBit

theorem truncated_codeCause (c : FormatCause) (h : c = .truncated) : codeCause c := .inl h

theorem descend_ends (n : Nat) (i : NodeIdx) (s : State) : Ends codeCause (SameButReader s) (descend n i s) := by
  induction n generalizing i s with
  | zero =>
    unfold descend
    split
    · exact SameButReader.refl s
    · exact ((nextBit_ends s).mono truncated_codeCause fun _ h => h).bind fun _ _ _ => rfl
  | succ n ih =>
    unfold descend
    split
    · exact SameButReader.refl s
    · exact ((nextBit_ends s).mono truncated_codeCause fun _ h => h).bind fun b t ht =>
        (ih (child t.node i b) t).mono (fun _ h => h) fun _ hu => ht.trans hu

theorem decodeSymbol_ends (s : State) : Ends codeCause (SameButReader s) (decodeSymbol s) := by
  unfold decodeSymbol
  split
  · refine ((nextBit_ends s).mono truncated_codeCause fun _ h => h).bind fun b t ht => ?_
    cases b
    · exact ht
    · exact formatError_ends (.inr rfl)
  · exact descend_ends _ _ s

/-- The decode pass of DECOMPRESS from any BUILT session with a tree. -/
theorem decAll_ends (n : Nat) {s : State} (hp : s.phase = .built) (hr : s.rootv = true) :
    Ends codeCause (fun t => SameButDecoder s t ∧ s.snk <+: t.snk) (decAll n s) := by
  induction n generalizing s with
  | zero => exact ⟨.refl s, List.prefix_rfl⟩
  | succ n ih =>
    have hd : Ends codeCause (fun t => ∃ u v, SameButReader s u ∧ t = { u with res := v }) (dec s) := by
      unfold dec
      rw [hp, hr]
      exact (decodeSymbol_ends s).bind fun i t ht => ⟨t, _, ht, rfl⟩
    refine hd.inner.bind fun _ t ht => ?_
    obtain ⟨u, v, hu, rfl⟩ := ht
    have h1 := hu.decoder v (({ u with res := v } : State).res.extractLsb' 0 8)
    have hs : u.snk = s.snk := by rw [hu]
    refine (ih (s := snkPut (({ u with res := v } : State).res.extractLsb' 0 8) { u with res := v })
      (hu.phase.trans hp) (hu.rootv.trans hr)).mono (fun _ h => h) fun w hw => ⟨h1.trans hw.1, ?_⟩
    exact List.IsPrefix.trans (by simp [hs]) hw.2

end Sys2Proof.Machine
end

