-- ==== Sys2Proof/Laws/WholeStream.lean ====
section
/-! SUPPORT. Everything COMPRESS and DECOMPRESS can do in a Fresh session with a source (R130, R131), said once. -/

namespace Sys2Proof.Machine

open Safety

/-- The session after BUILD (R110): the old one with a tree of the shape R25 gives, and `PHASE` = BUILT. -/
structure BuiltFrom (s t : State) : Prop where
  frame : t = { s with node := t.node, root := t.root, rootv := t.rootv, phase := .built }
  tree : TreeShape s.freq t.node t.root t.rootv

theorem buildBody_builtFrom {s : State} (h0 : ∀ i : NodeIdx, (nodeAt s.node i).v = false) :
    BuiltFrom s (buildBody s) := by
  obtain ⟨node, root, rootv, e, T⟩ := buildBody_spec s h0
  exact ⟨by rw [e], by rw [e]; exact T⟩

theorem BuiltFrom.phase {s t : State} (h : BuiltFrom s t) : t.phase = .built := by rw [h.frame]
theorem BuiltFrom.freq {s t : State} (h : BuiltFrom s t) : t.freq = s.freq := by rw [h.frame]
theorem BuiltFrom.src {s t : State} (h : BuiltFrom s t) : t.src = s.src := by rw [h.frame]
theorem BuiltFrom.shape {s t : State} (h : BuiltFrom s t) : TreeShape t.freq t.node t.root t.rootv := by
  rw [h.freq]; exact h.tree

/-! ### RHDR leaves a table that is not empty -/

/-- A pair read sets one entry to a nonzero frequency and clears none. -/
theorem readPair_nonzero {bf : Nat} (hbf : bf ≤ 31) {s t : State} (h : ReaderOk s) (e : readPair bf s = .done () t) :
    (∃ x, freqOf t.freq x ≠ 0#31) ∧ ∀ x, freqOf s.freq x ≠ 0#31 → freqOf t.freq x ≠ 0#31 := by
  unfold readPair at e
  rcases readField_spec Config.symW h with ⟨_, e1⟩ | ⟨u, _, e1, hu, hsu, _, _⟩
  · simp [e1, formatError] at e
  · rcases readField_spec bf hu with ⟨_, e2⟩ | ⟨v, hlen, e2, hv, huv, _, _⟩
    · simp [e1, e2, formatError] at e
    · simp only [e1, e2, bind_done] at e
      split at e
      · simp [formatError] at e
      · split at e
        · simp [formatError] at e
        · rename_i hf hz
          simp only [Result.done.injEq, true_and] at e
          subst e
          have hfv : v.freq = s.freq := by rw [huv.freq, hsu.freq]
          have hlt : lsbValue ((bitsAhead u).take bf) < 2 ^ 31 := by
            refine Nat.lt_of_lt_of_le (lsbValue_lt _) (Nat.pow_le_pow_right (by decide) ?_)
            simp only [List.length_take]; omega
          have hne : BitVec.ofNat 31 (lsbValue ((bitsAhead u).take bf)) ≠ 0#31 := by
            intro hzero
            have := congrArg BitVec.toNat hzero
            rw [BitVec.toNat_ofNat, Nat.mod_eq_of_lt hlt] at this
            exact hf this
          refine ⟨⟨_, by rw [freqOf_setFreq, if_pos rfl]; exact hne⟩, fun x hx => ?_⟩
          rw [freqOf_setFreq]
          split
          · exact hne
          · rw [hfv]; exact hx

theorem readPairs_nonzero {bf : Nat} (hbf : bf ≤ 31) (n : Nat) {s t : State} (h : ReaderOk s)
    (e : readPairs bf n s = .done () t) :
    (n ≠ 0 → ∃ x, freqOf t.freq x ≠ 0#31) ∧ ∀ x, freqOf s.freq x ≠ 0#31 → freqOf t.freq x ≠ 0#31 := by
  induction n generalizing s with
  | zero =>
    simp only [readPairs, Result.done.injEq, true_and] at e
    subst e
    exact ⟨fun h => absurd rfl h, fun x hx => hx⟩
  | succ n ih =>
    rcases readPair_cases bf h with ⟨c, _, e1⟩ | ⟨x, f, u, e1, hu, _, _⟩
    · simp [readPairs, e1, formatError] at e
    · have h1 := readPair_nonzero hbf h e1
      simp only [readPairs, e1, bind_done] at e
      have h2 := ih hu e
      obtain ⟨y, hy⟩ := h1.1
      exact ⟨fun _ => ⟨y, h2.2 y hy⟩, fun x hx => h2.2 x (h1.2 x hx)⟩

/-- When RHDR's body is done, the table is not empty (R102): the count is at least 1 and every frequency is nonzero. -/
theorem readHeader_nonzero {s t : State} (h : ReaderOk s) (e : readHeader s = .done () t) : nsym t.freq ≠ 0 := by
  unfold readHeader at e
  rcases readField_spec Config.cntW h with ⟨_, e1⟩ | ⟨u, _, e1, hu, _, _, _⟩
  · simp [e1, formatError] at e
  · simp only [e1, bind_done] at e
    split at e
    · simp [formatError] at e
    · rename_i hn
      split at e
      · simp [formatError] at e
      · rcases readField_spec Config.bfwW hu with ⟨_, e2⟩ | ⟨v, hlen, e2, hv, _, _, _⟩
        · simp [e2, formatError] at e
        · simp only [e2, bind_done] at e
          have hlt : lsbValue ((bitsAhead u).take Config.bfwW) < 2 ^ 5 := by
            refine Nat.lt_of_lt_of_le (lsbValue_lt _) (Nat.pow_le_pow_right (by decide) ?_)
            simp
          obtain ⟨x, hx⟩ := (readPairs_nonzero (by omega) _ hv e).1 hn
          exact fun h0 => hx (nsym_eq_zero.mp h0 x)

/-! ### COMPRESS -/

/-- Everything COMPRESS can do in a Fresh session with a source (R130): a counter overflows in the tally pass, or it is
done: the table counts the source, the tree is BUILD's, and header, payload and flush have been written. -/
theorem compress_cases {s : State} (hf : fresh s = true) (hl : s.slen ≠ 0) :
    (∃ x ∈ s.src, compress s = .raised .body .countOverflow x) ∨
      ∃ t b, SameButFreq s t ∧ (∀ x, (freqOf t.freq x).toNat = s.src.count x) ∧ b = buildBody t ∧ BuiltFrom t b ∧
        tallyAll s.src s = .done () t ∧
        compress s =
          .done () (flushWriter (writeBits (payload b.node b.root s.src) (writeBits (headerBits t.freq) b))) := by
  obtain ⟨h1, _, h3, _, _, _, _, _, _, h10, h11, _, _⟩ := fresh_iff.mp hf
  have hc : compress s = (tallyAll s.src s).bind fun _ t => (build t).inner.bind fun _ u => (whdr u).inner.bind
      fun _ v => (encAll v.src v).bind fun _ x => (flush x).inner := by
    rw [compress, hf, require_true, if_neg hl]
  rcases tallyAll_cases s.src h3 with ⟨x, hx, e⟩ | ⟨t, e, hst, ht⟩
  · exact .inl ⟨x, hx, by rw [hc, e, bind_raised]⟩
  · have ht' : ∀ x, (freqOf t.freq x).toNat = s.src.count x := fun x => by rw [ht x, h10 x]; simp
    have hnode : t.node = s.node := by rw [hst]
    have hphase : t.phase = .empty := by rw [hst]; exact h3
    have B : BuiltFrom t (buildBody t) := buildBody_builtFrom fun i => by rw [hnode]; exact (h11 i).1
    have hw : whdr (buildBody t) = .done () (writeBits (headerBits t.freq) (buildBody t)) := by
      rw [whdr, B.phase, writeHeader_eq, B.freq]; rfl
    have hfr := writeBits_frame (headerBits t.freq) (buildBody t)
    have hsrc : (writeBits (headerBits t.freq) (buildBody t)).src = s.src := by rw [hfr]; exact B.src.trans (by rw [hst])
    have henc := encAll_spec s.src (s := writeBits (headerBits t.freq) (buildBody t)) (by rw [hfr]; exact B.phase)
      (by rw [hfr]; exact B.shape) (fun x hx hz => by
        have hz' : freqOf t.freq x = 0#31 := by rw [hfr] at hz; rw [← B.freq]; exact hz
        have := ht' x
        rw [hz'] at this
        exact List.count_eq_zero.mp this.symm hx)
    have hn : (writeBits (headerBits t.freq) (buildBody t)).node = (buildBody t).node := by rw [hfr]
    have hr : (writeBits (headerBits t.freq) (buildBody t)).root = (buildBody t).root := by rw [hfr]
    have hb : build t = .done () (buildBody t) := by rw [build, hphase]; rfl
    refine .inr ⟨t, buildBody t, hst, ht', rfl, B, e, ?_⟩
    rw [hc, e, bind_done, hb, inner_done, bind_done, hw, inner_done, bind_done, hsrc, henc, bind_done, hn, hr]
    rfl

/-! ### DECOMPRESS -/

/-- DECOMPRESS in a Fresh session with a source is its lines, one after the other (R131). -/
theorem decompress_lines {s : State} (hf : fresh s = true) (hl : s.slen ≠ 0) :
    decompress s = (rhdr s).inner.bind fun _ t => (build t).inner.bind fun _ u => decAll (total u.freq) u := by
  rw [decompress, hf, require_true, if_neg hl]

/-- DECOMPRESS behind the header it has read (R131): the table is not empty, BUILD's tree is made of it, and what is left
is the decode pass. -/
theorem decompress_header {s t : State} (hf : fresh s = true) (hl : s.slen ≠ 0) (e : rhdr s = .done () t) :
    SameButTable s t ∧ ReaderOk t ∧ nsym t.freq ≠ 0 ∧ BuiltFrom t (buildBody t) ∧
      build t = .done () (buildBody t) ∧ decompress s = decAll (total t.freq) (buildBody t) := by
  obtain ⟨h1, _, h3, _, _, _, h7, h8, h9, h10, h11, _, _⟩ := fresh_iff.mp hf
  have hr : rhdr s = readHeader s := by
    rw [rhdr, h3, total_eq_zero.mpr h10]; rfl
  rcases readHeader_cases (readerOk_start h8 h7) with ⟨c, _, e'⟩ | ⟨u, e', hu, hsu⟩
  · rw [hr, e'] at e; cases e
  · obtain rfl : t = u := by simpa [← hr, e] using e'
    have hnode : t.node = s.node := by rw [hsu]
    have hphase : t.phase = .empty := by rw [hsu]; exact h3
    have B : BuiltFrom t (buildBody t) := buildBody_builtFrom fun i => by rw [hnode]; exact (h11 i).1
    have hb : build t = .done () (buildBody t) := by rw [build, hphase]; rfl
    refine ⟨hsu, hu, readHeader_nonzero (readerOk_start h8 h7) e', B, hb, ?_⟩
    rw [decompress_lines hf hl, e, inner_done, bind_done, hb, inner_done, bind_done, B.freq]

/-- Everything DECOMPRESS can do in a Fresh session with a source (R131): a format error of the header or of a code, or it
is done: the header's table, BUILD's tree, and as many decoded bytes in the sink as the table's total says. -/
theorem decompress_cases {s : State} (hf : fresh s = true) (hl : s.slen ≠ 0) :
    (∃ c, (headerCause c ∨ c = .degenBit) ∧ decompress s = formatError c) ∨
      ∃ t b u, rhdr s = .done () t ∧ SameButTable s t ∧ ReaderOk t ∧ nsym t.freq ≠ 0 ∧ b = buildBody t ∧
        BuiltFrom t b ∧ decAll (total t.freq) b = .done () u ∧ ReaderOk u ∧ SameButDecoder b u ∧
        u.olen = total t.freq ∧ decompress s = .done () u := by
  obtain ⟨_, _, h3, _, _, _, h7, h8, h9, h10, _, _, _⟩ := fresh_iff.mp hf
  have hr : rhdr s = readHeader s := by
    rw [rhdr, h3, total_eq_zero.mpr h10]; rfl
  rcases readHeader_cases (readerOk_start h8 h7) with ⟨c, hc, e⟩ | ⟨t, e, _, _⟩
  · exact .inl ⟨c, .inl hc, by rw [decompress_lines hf hl, hr, e]; rfl⟩
  · rw [← hr] at e
    obtain ⟨hst, ht, hn, B, _, hd⟩ := decompress_header hf hl e
    have hok : ReaderOk (buildBody t) := by rw [B.frame]; exact ⟨ht.inside, ht.held⟩
    rcases decAll_cases (total t.freq) hok B.phase (B.tree.root_valid.mpr hn) with
      ⟨c, hc, e'⟩ | ⟨u, xs, e', hu, hbu, hx, hxl⟩
    · refine .inl ⟨c, ?_, by rw [hd, e']⟩
      rcases hc with rfl | rfl
      · exact .inl (.inl rfl)
      · exact .inr rfl
    · refine .inr ⟨t, buildBody t, u, e, hst, ht, hn, rfl, B, e', hu, hbu, ?_, by rw [hd, e']⟩
      have : (buildBody t).snk = [] := by rw [B.frame]; exact (congrArg State.snk hst).trans h9
      rw [State.olen, hx, this]; simpa using hxl

end Sys2Proof.Machine
end

