-- ==== Sys2Proof/Laws/Agree.lean ====
section
/-! SUPPORT. The fields of the arena that have no meaning (R22) are never looked at: two arenas that agree where R22 gives a
field a meaning get the same tree and the same codes (R115). -/

namespace Sys2Proof.Machine

open Safety

theorem SameNodes.refl (a : Vector Node 511) : SameNodes a a :=
  fun _ => ⟨rfl, fun _ => ⟨rfl, rfl, fun _ => rfl, fun _ => ⟨rfl, rfl⟩⟩⟩

/-- Arenas without nodes hold the same nodes: none. -/
theorem agree_of_empty {a b : Vector Node 511} (ha : ∀ i : NodeIdx, (nodeAt a i).v = false)
    (hb : ∀ i : NodeIdx, (nodeAt b i).v = false) : SameNodes a b :=
  fun i => ⟨by rw [ha, hb], fun h => by simp [ha] at h⟩

theorem agree_putLeaves (freq : Vector Freq 256) {a b : Vector Node 511} (h : SameNodes a b) :
    SameNodes (putLeaves freq a) (putLeaves freq b) := by
  intro i
  rw [nodeAt_putLeaves, nodeAt_putLeaves]
  split
  · rename_i hl
    exact ⟨rfl, fun _ => ⟨rfl, rfl, fun h => by simp at h, fun hi => by simp [hl.1] at hi⟩⟩
  · exact h i

theorem agree_before {a b : Vector Node 511} (h : SameNodes a b) {i j : NodeIdx} (hi : (nodeAt a i).v = true)
    (hj : (nodeAt a j).v = true) : before a i j = before b i j := by
  have h1 := ((h i).2 hi).1
  have h2 := ((h j).2 hj).1
  simp only [nodeAt] at h1 h2
  simp only [before, h1, h2]

theorem agree_minOf {a b : Vector Node 511} (h : SameNodes a b) (x : NodeIdx) (ys : List NodeIdx)
    (hv : ∀ i ∈ x :: ys, (nodeAt a i).v = true) : minOf a x ys = minOf b x ys := by
  induction ys generalizing x with
  | nil => rfl
  | cons y ys ih =>
    simp only [minOf]
    rw [agree_before h (hv y (by simp)) (hv x (by simp))]
    refine ih _ fun i hi => ?_
    rcases List.mem_cons.mp hi with rfl | hi
    · split
      · exact hv y (by simp)
      · exact hv x (by simp)
    · exact hv i (by simp [hi])

theorem agree_pop {a b : Vector Node 511} (h : SameNodes a b) (q : List NodeIdx)
    (hv : ∀ i ∈ q, (nodeAt a i).v = true) : pop a q = pop b q := by
  cases q with
  | nil => rfl
  | cons x xs => simp only [pop, agree_minOf h x xs hv]

theorem agree_linkParent {a b : Vector Node 511} (h : SameNodes a b) (m i : NodeIdx) :
    SameNodes (linkParent m i a) (linkParent m i b) := by
  intro j
  simp only [linkParent, nodeAt_setNode]
  split
  · obtain ⟨h1, h2⟩ := h i
    subst_vars
    exact ⟨h1, fun hv => ⟨(h2 hv).1, rfl, fun _ => rfl, (h2 hv).2.2.2⟩⟩
  · exact h j

theorem agree_mergeNode {a b : Vector Node 511} (h : SameNodes a b) (m : NodeIdx) {x y : NodeIdx}
    (hx : (nodeAt a x).v = true) (hy : (nodeAt a y).v = true) : SameNodes (mergeNode m x y a) (mergeNode m x y b) := by
  refine agree_linkParent (agree_linkParent (fun j => ?_) m x) m y
  simp only [nodeAt_setNode]
  split
  · exact ⟨rfl, fun _ => ⟨by rw [((h x).2 hx).1, ((h y).2 hy).1], rfl, fun h => by simp at h, fun _ => ⟨rfl, rfl⟩⟩⟩
  · exact h j

/-- The merge loop chooses the same root and builds the same nodes (R115). -/
theorem agree_mergeLoop {freq : Vector Freq 256} (n : Nat) {k : Nat} {q : List NodeIdx} {a b : Vector Node 511}
    (F : Forest freq k q a) (hv : ∀ i ∈ q, (nodeAt a i).v = true) (h : SameNodes a b) :
    (mergeLoop n k q a).1 = (mergeLoop n k q b).1 ∧ SameNodes (mergeLoop n k q a).2 (mergeLoop n k q b).2 := by
  induction n generalizing k q a b with
  | zero => exact ⟨rfl, h⟩
  | succ n ih =>
    have e1 := agree_pop h q hv
    unfold mergeLoop
    rw [← e1]
    rcases pop_spec a q with ⟨_, e⟩ | ⟨x, e, hx, _⟩
    · rw [e]; exact ⟨rfl, h⟩
    · have hv2 : ∀ i ∈ q.erase x, (nodeAt a i).v = true := fun i hi => hv i (List.mem_of_mem_erase hi)
      have e2 := agree_pop h (q.erase x) hv2
      simp only [e]
      rw [← e2]
      rcases pop_spec a (q.erase x) with ⟨_, e'⟩ | ⟨y, e', hy, _⟩
      · rw [e']; exact ⟨rfl, h⟩
      · simp only [e']
        have F' := forest_merge F hx hy
        exact ih F' (fun i hi => (F'.members i).mp hi |>.1) (agree_mergeNode h _ (hv x hx) (hv2 y hy))

/-- BUILD from two arenas without nodes (R115): the same root, the same nodes. -/
theorem agree_buildTree (freq : Vector Freq 256) {a b : Vector Node 511} (ha : ∀ i : NodeIdx, (nodeAt a i).v = false)
    (hb : ∀ i : NodeIdx, (nodeAt b i).v = false) :
    (buildTree freq a).1 = (buildTree freq b).1 ∧ SameNodes (buildTree freq a).2 (buildTree freq b).2 := by
  have F := forest_leaves freq a ha
  exact agree_mergeLoop _ F (fun i hi => ((F.members i).mp hi).1) (agree_putLeaves freq (agree_of_empty ha hb))

/-- ENC's walk looks at nothing but the nodes (R120). -/
theorem agree_climb {freq : Vector Freq 256} {a b : Vector Node 511} {root : NodeIdx} {rootv : Bool}
    (T : TreeShape freq a root rootv) (h : SameNodes a b) (room : Nat) {i : NodeIdx} (hv : (nodeAt a i).v = true)
    (acc : List Bool) : climb a room i acc = climb b room i acc := by
  induction room generalizing i acc with
  | zero =>
    unfold climb
    rw [((h i).2 hv).2.1]
  | succ room ih =>
    unfold climb
    rw [← ((h i).2 hv).2.1]
    split
    · rename_i hp
      obtain ⟨h1, h2, _⟩ := T.parent_link i hv hp
      have hpar := ((h i).2 hv).2.2.1 hp
      have hbl : branchLabel a (nodeAt a i).parent i = branchLabel b (nodeAt b i).parent i := by
        rw [← hpar]
        have := (((h _).2 h2).2.2.2 h1).2
        simp only [nodeAt] at this
        simp only [branchLabel, nodeAt, this]
      simp only [hbl, ← hpar]
      exact ih h2 _
    · rfl

theorem agree_codeOf {freq : Vector Freq 256} {a b : Vector Node 511} {root : NodeIdx} {rootv : Bool}
    (T : TreeShape freq a root rootv) (h : SameNodes a b) {x : Byte} (hx : freqOf freq x ≠ 0#31) :
    codeOf a root x = codeOf b root x := by
  unfold codeOf
  rw [agree_climb T h Config.maxDepth ((T.leaf_valid x).mpr hx) []]

end Sys2Proof.Machine
end

