-- ==== Sys2Proof/Laws/BuildOrder.lean ====
section
/-! SUPPORT. In which order the merge loop joins the nodes (R110, R111, R112), read off the tree it leaves. -/

namespace Sys2Proof.Machine

open Safety

/-- What a later merge leaves of a node that exists: its count, its parent link once it has one, its children. -/
structure Keeps (a b : Vector Node 511) (i : NodeIdx) : Prop where
  v : (nodeAt b i).v = true
  count : (nodeAt b i).count = (nodeAt a i).count
  parent : (nodeAt a i).pv = true → (nodeAt b i).pv = true ∧ (nodeAt b i).parent = (nodeAt a i).parent
  children : (nodeAt b i).c0 = (nodeAt a i).c0 ∧ (nodeAt b i).c1 = (nodeAt a i).c1

theorem Keeps.trans {a b c : Vector Node 511} {i : NodeIdx} (h : Keeps a b i) (k : Keeps b c i) : Keeps a c i where
  v := k.v
  count := k.count.trans h.count
  parent := fun hp => by
    obtain ⟨h1, h2⟩ := h.parent hp
    exact ⟨(k.parent h1).1, (k.parent h1).2.trans h2⟩
  children := ⟨k.children.1.trans h.children.1, k.children.2.trans h.children.2⟩

/-- The merge of two members of `q`: where the new node stands, and what it leaves alone. -/
theorem merge_facts {freq : Vector Freq 256} {k : Nat} {q : List NodeIdx} {node : Vector Node 511} {a b : NodeIdx}
    (F : Forest freq k q node) (ha : a ∈ q) (hb : b ∈ q.erase a) :
    (internalSlot k).val = 256 + k ∧ a ≠ b ∧ (nodeAt (mergeNode (internalSlot k) a b node) (internalSlot k)).c0 = a ∧
      (nodeAt (mergeNode (internalSlot k) a b node) (internalSlot k)).c1 = b ∧
      (nodeAt (mergeNode (internalSlot k) a b node) (internalSlot k)).v = true ∧
      ∀ i, (nodeAt node i).v = true → Keeps node (mergeNode (internalSlot k) a b node) i := by
  have hmemb : b ∈ q := List.mem_of_mem_erase hb
  have hab : a ≠ b := by
    rintro rfl
    exact (List.Nodup.mem_erase_iff F.nodup).mp hb |>.1 rfl
  have hk : k < 255 := by
    have h1 := F.size
    have h2 := nsym_le freq
    have h3 := List.length_pos_of_mem hb
    rw [List.length_erase_of_mem ha] at h3
    omega
  obtain ⟨hav, hap⟩ := (F.members a).mp ha
  obtain ⟨hbv, hbp⟩ := (F.members b).mp hmemb
  have hmv := internalSlot_val hk
  have hml : isLeaf (internalSlot k) = false := isLeaf_eq_false.mpr (by omega)
  have hmnv : (nodeAt node (internalSlot k)).v = false := by
    have := (F.internal_valid _ hml).not
    simpa [hmv] using this
  have hma : internalSlot k ≠ a := fun e => by rw [e, hav] at hmnv; cases hmnv
  have hmb : internalSlot k ≠ b := fun e => by rw [e, hbv] at hmnv; cases hmnv
  have H := nodeAt_mergeNode node hab hma hmb
  refine ⟨hmv, hab, by rw [H, if_pos rfl], by rw [H, if_pos rfl], by rw [H, if_pos rfl], fun i hi => ?_⟩
  have him : i ≠ internalSlot k := fun e => by rw [← e, hi] at hmnv; cases hmnv
  by_cases hi2 : i = a ∨ i = b
  · have e : nodeAt (mergeNode (internalSlot k) a b node) i =
        { nodeAt node i with pv := true, parent := internalSlot k } := by rw [H, if_neg him, if_pos hi2]
    have hpv : (nodeAt node i).pv = false := by rcases hi2 with rfl | rfl <;> assumption
    exact ⟨by rw [e]; exact hi, by rw [e], fun h => absurd h (by simp [hpv]), by rw [e]; exact ⟨rfl, rfl⟩⟩
  · have e : nodeAt (mergeNode (internalSlot k) a b node) i = nodeAt node i := by rw [H, if_neg him, if_neg hi2]
    exact ⟨by rw [e]; exact hi, by rw [e], fun h => (by rw [e]; exact ⟨h, rfl⟩), by rw [e]; exact ⟨rfl, rfl⟩⟩

/-- The merge loop leaves the nodes that exist as they are, but for the parent links it adds. -/
theorem mergeLoop_keeps {freq : Vector Freq 256} (n : Nat) {k : Nat} {q : List NodeIdx} {node : Vector Node 511}
    (F : Forest freq k q node) {i : NodeIdx} (hi : (nodeAt node i).v = true) :
    Keeps node (mergeLoop n k q node).2 i := by
  have base : Keeps node node i := ⟨hi, rfl, fun h => ⟨h, rfl⟩, rfl, rfl⟩
  induction n generalizing k q node with
  | zero => exact base
  | succ n ih =>
    unfold mergeLoop
    rcases pop_spec node q with ⟨_, e⟩ | ⟨x, e, hx, _⟩
    · rw [e]; exact base
    · rcases pop_spec node (q.erase x) with ⟨_, e'⟩ | ⟨y, e', hy, _⟩
      · simp only [e, e']; exact base
      · simp only [e, e']
        have h1 := (merge_facts F hx hy).2.2.2.2.2 i hi
        exact h1.trans (ih (forest_merge F hx hy) h1.v ⟨h1.v, rfl, fun h => ⟨h, rfl⟩, rfl, rfl⟩)

theorem before_keeps {a b : Vector Node 511} {i j : NodeIdx} (hi : Keeps a b i) (hj : Keeps a b j) :
    before b i j = before a i j := by
  have h1 := hi.count
  have h2 := hj.count
  simp only [nodeAt] at h1 h2
  simp only [before, h1, h2]

/-- The order of the merges (R110, R111): when the internal node `m` was made, its child-0 came before its child-1, and
child-1 before every other node that waited for a parent then. -/
def MergedInOrder (node : Vector Node 511) (m : NodeIdx) : Prop :=
  before node (nodeAt node m).c0 (nodeAt node m).c1 = true ∧
    ∀ j : NodeIdx, (nodeAt node j).v = true → j.val < m.val →
      j ≠ (nodeAt node m).c0 → j ≠ (nodeAt node m).c1 →
      ((nodeAt node j).pv = false ∨ m.val < (nodeAt node j).parent.val) →
      before node (nodeAt node m).c1 j = true

theorem mergeLoop_order {freq : Vector Freq 256} (n : Nat) {k : Nat} {q : List NodeIdx} {node : Vector Node 511}
    (F : Forest freq k q node) (hn : q.length ≤ n) {m : NodeIdx} (hm : 256 + k ≤ m.val)
    (hv : (nodeAt (mergeLoop n k q node).2 m).v = true) :
    MergedInOrder (mergeLoop n k q node).2 m := by
  have nokeep : (nodeAt node m).v = true → False := by
    intro h
    have hl : isLeaf m = false := isLeaf_eq_false.mpr (by omega)
    have := (F.internal_valid m hl).mp h
    omega
  induction n generalizing k q node with
  | zero => exact absurd hv nokeep
  | succ n ih =>
    unfold mergeLoop at hv ⊢
    rcases pop_spec node q with ⟨_, e⟩ | ⟨x, e, hx, hminx⟩
    · rw [e] at hv; exact absurd hv nokeep
    · rcases pop_spec node (q.erase x) with ⟨_, e'⟩ | ⟨y, e', hy, hminy⟩
      · simp only [e, e'] at hv; exact absurd hv nokeep
      · simp only [e, e'] at hv ⊢
        have F' := forest_merge F hx hy
        obtain ⟨hs, hxy, hc0, hc1, hsv, hkeep⟩ := merge_facts F hx hy
        have hyq : y ∈ q := List.mem_of_mem_erase hy
        have hlen : (internalSlot k :: (q.erase x).erase y).length ≤ n := by
          have h1 := List.length_erase_of_mem hx
          have h2 := List.length_erase_of_mem hy
          have h3 := List.length_pos_of_mem hy
          simp only [List.length_cons]
          omega
        rcases Nat.lt_or_ge (256 + k) m.val with hlt | hge
        · refine ih F' hlen (by omega) hv fun h => ?_
          have hl : isLeaf m = false := isLeaf_eq_false.mpr (by omega)
          have := (F'.internal_valid m hl).mp h
          omega
        · have hms : m = internalSlot k := Fin.ext (by omega)
          subst hms
          have K := mergeLoop_keeps n F' hsv
          have hall : ∀ i, (nodeAt node i).v = true →
              Keeps node (mergeLoop n (k + 1) (internalSlot k :: (q.erase x).erase y)
                (mergeNode (internalSlot k) x y node)).2 i :=
            fun i hi => (hkeep i hi).trans (mergeLoop_keeps n F' (hkeep i hi).v)
          have hxv := ((F.members x).mp hx).1
          have hyv := ((F.members y).mp hyq).1
          unfold MergedInOrder
          rw [K.children.1, K.children.2, hc0, hc1]
          refine ⟨?_, fun j hj hjm hjx hjy hw => ?_⟩
          · rw [before_keeps (hall x hxv) (hall y hyv)]
            exact hminx y hyq hxy.symm
          · have hjn : (nodeAt node j).v = true := by
              by_cases hl : isLeaf j = true
              · obtain ⟨s, rfl⟩ := isLeaf_iff.mp hl
                obtain ⟨r, node', e1, T, _⟩ := mergeLoop_spec n F' (by simp) hlen
                rw [e1] at hj
                exact (F.leaf_valid s).mpr ((T.leaf_valid s).mp hj)
              · exact (F.internal_valid j (by simpa using hl)).mpr (by omega)
            have hjp : (nodeAt node j).pv = false := by
              cases hp : (nodeAt node j).pv with
              | false => rfl
              | true =>
                obtain ⟨h1, h2⟩ := (hall j hjn).parent hp
                obtain ⟨p1, p2, _⟩ := F.parent_link j hjn hp
                have := (F.internal_valid _ p1).mp p2
                rcases hw with hw | hw
                · rw [h1] at hw; cases hw
                · rw [h2] at hw; omega
            rw [before_keeps (hall y hyv) (hall j hjn)]
            have hjq := (F.members j).mpr ⟨hjn, hjp⟩
            exact hminy j ((List.Nodup.mem_erase_iff F.nodup).mpr ⟨hjx, hjq⟩) hjy

end Sys2Proof.Machine
end

