-- ==== Sys2Proof/Laws/Huffman.lean ====
section
/-! SUPPORT. Huffman's argument (R114), apart from the machine: lengths that meet Kraft's inequality can be changed, at no
cost, so that two lightest members are siblings at the bottom. -/

namespace Sys2Proof.Machine

section Lengths

variable {α : Type} [DecidableEq α]

/-- Kraft's inequality for the lengths `l` of the members of `q`, in whole numbers. -/
def Kraft (q : Finset α) (l : α → Nat) : Prop :=
  ∃ n, (∀ i ∈ q, l i ≤ n) ∧ ∑ i ∈ q, 2 ^ (n - l i) ≤ 2 ^ n

/-- The weighted sum of the lengths. -/
def lengthSum (q : Finset α) (w l : α → Nat) : Nat := ∑ i ∈ q, w i * l i

omit [DecidableEq α] in
theorem kraft_scale {q : Finset α} {l : α → Nat} {n : Nat} (d : Nat) (hn : ∀ i ∈ q, l i ≤ n) :
    ∑ i ∈ q, 2 ^ (n + d - l i) = 2 ^ d * ∑ i ∈ q, 2 ^ (n - l i) := by
  rw [Finset.mul_sum]
  refine Finset.sum_congr rfl fun i hi => ?_
  have := hn i hi
  rw [← Nat.pow_add]
  congr 1
  omega

omit [DecidableEq α] in
/-- Kraft's inequality holds in every unit or in none. -/
theorem kraft_at {q : Finset α} {l : α → Nat} {n : Nat} (h : Kraft q l) (hn : ∀ i ∈ q, l i ≤ n) :
    ∑ i ∈ q, 2 ^ (n - l i) ≤ 2 ^ n := by
  obtain ⟨m, hm, hs⟩ := h
  rcases Nat.le_total m n with hle | hle
  · obtain ⟨d, rfl⟩ := Nat.exists_eq_add_of_le hle
    rw [kraft_scale d hm, Nat.pow_add, Nat.mul_comm (2 ^ m)]
    exact Nat.mul_le_mul_left _ hs
  · obtain ⟨d, rfl⟩ := Nat.exists_eq_add_of_le hle
    rw [kraft_scale d hn, Nat.pow_add, Nat.mul_comm (2 ^ n)] at hs
    exact Nat.le_of_mul_le_mul_left hs (Nat.two_pow_pos d)

theorem kraft_swap {q : Finset α} {l : α → Nat} {x y : α} (hx : x ∈ q) (hy : y ∈ q) (h : Kraft q l) :
    Kraft q (fun i => l (Equiv.swap x y i)) := by
  obtain ⟨n, hn, hs⟩ := h
  have hmem : ∀ i, i ∈ q ↔ Equiv.swap x y i ∈ q := by
    intro i
    by_cases h1 : i = x
    · subst h1; simp [hx, hy]
    · by_cases h2 : i = y
      · subst h2; simp [hx, hy]
      · rw [Equiv.swap_apply_of_ne_of_ne h1 h2]
  refine ⟨n, fun i hi => hn _ ((hmem i).mp hi), ?_⟩
  rw [Finset.sum_equiv (Equiv.swap x y) (t := q) (g := fun i => 2 ^ (n - l i)) hmem (fun i _ => rfl)]
  exact hs

/-- Giving the lighter of two members the longer length costs nothing. -/
theorem lengthSum_swap {q : Finset α} {w l : α → Nat} {x y : α} (hx : x ∈ q) (hy : y ∈ q) (hw : w x ≤ w y)
    (hl : l x ≤ l y) : lengthSum q w (fun i => l (Equiv.swap x y i)) ≤ lengthSum q w l := by
  by_cases hxy : x = y
  · subst hxy; simp
  · have hy' : y ∈ q.erase x := Finset.mem_erase.mpr ⟨Ne.symm hxy, hy⟩
    unfold lengthSum
    rw [← Finset.add_sum_erase q _ hx, ← Finset.add_sum_erase _ _ hy', ← Finset.add_sum_erase q (fun i => w i * l i) hx,
      ← Finset.add_sum_erase (q.erase x) (fun i => w i * l i) hy']
    have hrest : ∑ i ∈ (q.erase x).erase y, w i * l (Equiv.swap x y i) = ∑ i ∈ (q.erase x).erase y, w i * l i := by
      refine Finset.sum_congr rfl fun i hi => ?_
      obtain ⟨h1, h2⟩ := Finset.mem_erase.mp hi
      obtain ⟨h3, _⟩ := Finset.mem_erase.mp h2
      rw [Equiv.swap_apply_of_ne_of_ne h3 h1]
    rw [hrest]
    simp only [Equiv.swap_apply_left, Equiv.swap_apply_right]
    obtain ⟨c, hc⟩ := Nat.exists_eq_add_of_le hw
    obtain ⟨d, hd⟩ := Nat.exists_eq_add_of_le hl
    rw [hc, hd]
    nlinarith [Nat.zero_le (c * d)]

/-- Huffman's exchange: lengths that meet Kraft's inequality can be changed, at no cost, so that two members lighter than all
others have the same length, at least 1. -/
theorem huffman_exchange {q : Finset α} {w : α → Nat} {a b : α} (ha : a ∈ q) (hb : b ∈ q) (hab : a ≠ b)
    (hwa : ∀ z ∈ q, w a ≤ w z) (hwb : ∀ z ∈ q, z ≠ a → w b ≤ w z) (l : α → Nat) (hk : Kraft q l) :
    ∃ l', Kraft q l' ∧ lengthSum q w l' ≤ lengthSum q w l ∧ l' a = l' b ∧ 1 ≤ l' a := by
  induction hs : ∑ i ∈ q, l i using Nat.strong_induction_on generalizing l with
  | _ s ih =>
    obtain ⟨c, hc, hmax⟩ := Finset.exists_max_image q l ⟨a, ha⟩
    have hK := kraft_at hk hmax
    have hpos : 1 ≤ l c := by
      by_contra h0
      have h0 : l c = 0 := by omega
      rw [h0] at hK
      simp only [Nat.zero_sub, pow_zero, Finset.sum_const, smul_eq_mul, mul_one] at hK
      have : 2 ≤ q.card := Finset.one_lt_card.mpr ⟨a, ha, b, hb, hab⟩
      omega
    by_cases hd : ∃ d ∈ q, d ≠ c ∧ l d = l c
    · obtain ⟨d, hdq, hdc, hdl⟩ := hd
      let l1 := fun i => l (Equiv.swap a c i)
      have hk1 : Kraft q l1 := kraft_swap ha hc hk
      have hc1 : lengthSum q w l1 ≤ lengthSum q w l := lengthSum_swap ha hc (hwa c hc) (hmax a ha)
      have h1a : l1 a = l c := by simp [l1]
      let e := Equiv.swap a c d
      have hea : e ≠ a := by
        intro h
        have : d = c := by
          have h2 := congrArg (Equiv.swap a c) h
          simpa [e] using h2
        exact hdc this
      have heq : e ∈ q := by
        simp only [e]
        by_cases h1 : d = a
        · subst h1; simpa using hc
        · rw [Equiv.swap_apply_of_ne_of_ne h1 hdc]; exact hdq
      have h1e : l1 e = l c := by simp [l1, e, hdl]
      have h1le : ∀ i ∈ q, l1 i ≤ l c := by
        intro i hi
        simp only [l1]
        by_cases h1 : i = a
        · subst h1; simp
        · by_cases h2 : i = c
          · subst h2; simpa using hmax a ha
          · rw [Equiv.swap_apply_of_ne_of_ne h1 h2]; exact hmax i hi
      refine ⟨fun i => l1 (Equiv.swap b e i), kraft_swap hb heq hk1,
        (lengthSum_swap hb heq (hwb e heq hea) (by rw [h1e]; exact h1le b hb)).trans hc1, ?_, ?_⟩
      · show l1 (Equiv.swap b e a) = l1 (Equiv.swap b e b)
        rw [Equiv.swap_apply_of_ne_of_ne hab hea.symm, Equiv.swap_apply_left, h1a, h1e]
      · show 1 ≤ l1 (Equiv.swap b e a)
        rw [Equiv.swap_apply_of_ne_of_ne hab hea.symm, h1a]; exact hpos
    · have hlt : ∀ i ∈ q.erase c, l i < l c := by
        intro i hi
        obtain ⟨h1, h2⟩ := Finset.mem_erase.mp hi
        exact Nat.lt_of_le_of_ne (hmax i h2) fun e => hd ⟨i, h2, h1, e⟩
      let l1 := Function.update l c (l c - 1)
      have hrest : ∀ f : α → Nat → Nat, ∑ i ∈ q.erase c, f i (l1 i) = ∑ i ∈ q.erase c, f i (l i) := fun f =>
        Finset.sum_congr rfl fun i hi => by simp [l1, Function.update_of_ne (Finset.ne_of_mem_erase hi)]
      have h1c : l1 c = l c - 1 := by simp [l1]
      have hle : ∀ i, l1 i ≤ l i := by
        intro i
        by_cases h : i = c
        · subst h; omega
        · simp [l1, Function.update_of_ne h]
      have hk1 : Kraft q l1 := by
        refine ⟨l c, fun i hi => (hle i).trans (hmax i hi), ?_⟩
        rw [← Finset.add_sum_erase q _ hc] at hK ⊢
        rw [hrest (fun _ v => 2 ^ (l c - v)), h1c]
        have heven : ∃ t, ∑ i ∈ q.erase c, 2 ^ (l c - l i) = 2 * t := by
          refine ⟨∑ i ∈ q.erase c, 2 ^ (l c - l i - 1), ?_⟩
          rw [Finset.mul_sum]
          refine Finset.sum_congr rfl fun i hi => ?_
          have := hlt i hi
          rw [← Nat.pow_succ']
          congr 1
          omega
        obtain ⟨t, ht⟩ := heven
        rw [ht] at hK ⊢
        have h2 : 2 ^ l c = 2 * 2 ^ (l c - 1) := by rw [← Nat.pow_succ']; congr 1; omega
        have h3 : l c - (l c - 1) = 1 := by omega
        rw [h3]
        rw [Nat.sub_self, pow_zero, h2] at hK
        omega
      have hs1 : ∑ i ∈ q, l1 i < s := by
        rw [← hs, ← Finset.add_sum_erase q l hc, ← Finset.add_sum_erase q l1 hc, hrest (fun _ v => v), h1c]
        omega
      have hc1 : lengthSum q w l1 ≤ lengthSum q w l :=
        Finset.sum_le_sum fun i _ => Nat.mul_le_mul_left _ (hle i)
      obtain ⟨l', h1, h2, h3, h4⟩ := ih _ hs1 l1 hk1 rfl
      exact ⟨l', h1, h2.trans hc1, h3, h4⟩

omit [DecidableEq α] in
/-- A code in which no word is a prefix of another member's meets Kraft's inequality. -/
theorem kraft_of_prefixFree [DecidableEq α] (q : Finset α) (code : α → List Bool)
    (hp : ∀ x ∈ q, ∀ y ∈ q, code x <+: code y → x = y) : Kraft q fun i => (code i).length := by
  have key : ∀ (n : Nat) (q : Finset α) (code : α → List Bool),
      (∀ x ∈ q, ∀ y ∈ q, code x <+: code y → x = y) → (∀ x ∈ q, (code x).length ≤ n) →
      ∑ i ∈ q, 2 ^ (n - (code i).length) ≤ 2 ^ n := by
    intro n
    induction n with
    | zero =>
      intro q code hp hl
      have hc : q.card ≤ 1 := Finset.card_le_one.mpr fun x hx y hy => hp x hx y hy (by
        have h1 : code x = [] := List.length_eq_zero_iff.mp (by have := hl x hx; omega)
        rw [h1]; exact List.nil_prefix)
      simpa using hc
    | succ n ih =>
      intro q code hp hl
      by_cases he : ∃ x ∈ q, code x = []
      · obtain ⟨x, hx, h0⟩ := he
        have hq : q = {x} := Finset.eq_singleton_iff_unique_mem.mpr
          ⟨hx, fun y hy => (hp x hx y hy (by rw [h0]; exact List.nil_prefix)).symm⟩
        rw [hq]; simp [h0]
      · have part : ∀ b : Bool, ∑ i ∈ q.filter (fun i => (code i).head? = some b), 2 ^ (n + 1 - (code i).length) ≤ 2 ^ n := by
          intro b
          have hcons : ∀ i ∈ q.filter (fun i => (code i).head? = some b), code i = b :: (code i).tail := by
            intro i hi
            have := (Finset.mem_filter.mp hi).2
            cases h : code i with
            | nil => simp [h] at this
            | cons c cs => simp [h] at this; simp [this]
          have := ih (q.filter (fun i => (code i).head? = some b)) (fun i => (code i).tail)
            (fun x hx y hy h => hp x (Finset.mem_filter.mp hx).1 y (Finset.mem_filter.mp hy).1 (by
              rw [hcons x hx, hcons y hy]
              exact (List.prefix_cons_inj b).mpr h))
            (fun x hx => by
              have := hl x (Finset.mem_filter.mp hx).1
              simp only [List.length_tail]; omega)
          refine Nat.le_trans (Nat.le_of_eq (Finset.sum_congr rfl fun i hi => ?_)) this
          have h1 := congrArg List.length (hcons i hi)
          simp only [List.length_cons] at h1
          rw [h1]; congr 1; omega
        have hsplit : q = q.filter (fun i => (code i).head? = some false) ∪ q.filter (fun i => (code i).head? = some true) := by
          ext i
          simp only [Finset.mem_union, Finset.mem_filter]
          constructor
          · intro hi
            cases h : code i with
            | nil => exact absurd ⟨i, hi, h⟩ he
            | cons c cs => cases c <;> simp [hi]
          · rintro (h | h) <;> exact h.1
        have hdis : Disjoint (q.filter (fun i => (code i).head? = some false)) (q.filter (fun i => (code i).head? = some true)) :=
          Finset.disjoint_filter.mpr fun i _ h1 h2 => by rw [h1] at h2; simp at h2
        rw [hsplit, Finset.sum_union hdis]
        have h1 := part false
        have h2 := part true
        rw [Nat.pow_succ]; omega
  obtain ⟨n, hn⟩ : ∃ n, ∀ x ∈ q, (code x).length ≤ n :=
    ⟨q.sup fun x => (code x).length, fun x hx => Finset.le_sup (f := fun x => (code x).length) hx⟩
  exact ⟨n, hn, key n q code hp hn⟩

end Lengths

/-! ### The tree BUILD makes -/

open Safety

variable {freq : Vector Freq 256} {node : Vector Node 511} {root : NodeIdx} {rootv : Bool}

/-- The nodes that wait for a parent after `k` merges, read off the finished tree. -/
def waiting (node : Vector Node 511) (k : Nat) : Finset NodeIdx :=
  Finset.univ.filter fun j => (nodeAt node j).v = true ∧ j.val < 256 + k ∧
    ((nodeAt node j).pv = false ∨ 256 + k ≤ (nodeAt node j).parent.val)

theorem mem_waiting {k : Nat} {j : NodeIdx} : j ∈ waiting node k ↔ (nodeAt node j).v = true ∧ j.val < 256 + k ∧
    ((nodeAt node j).pv = false ∨ 256 + k ≤ (nodeAt node j).parent.val) := by simp [waiting]

/-- A parent is created after its children (R123). -/
theorem parent_above (T : TreeShape freq node root rootv) {i : NodeIdx} (hv : (nodeAt node i).v = true)
    (hp : (nodeAt node i).pv = true) : i.val < (nodeAt node i).parent.val := by
  obtain ⟨h1, h2, h3⟩ := T.parent_link i hv hp
  rcases h3 with h3 | h3
  · have := T.child_below _ false h1 h2
    rw [child_eq] at this
    simpa [h3] using this
  · have := T.child_below _ true h1 h2
    rw [child_eq] at this
    simpa [h3] using this

/-- One merge seen from the finished tree: the two children of the node made stop waiting, the node starts. -/
theorem waiting_step (T : TreeShape freq node root rootv) {k : Nat} {m : NodeIdx} (hm : m.val = 256 + k)
    (hv : (nodeAt node m).v = true) :
    (nodeAt node m).c0 ∈ waiting node k ∧ (nodeAt node m).c1 ∈ (waiting node k).erase (nodeAt node m).c0 ∧
      m ∉ ((waiting node k).erase (nodeAt node m).c0).erase (nodeAt node m).c1 ∧
      waiting node (k + 1) = insert m (((waiting node k).erase (nodeAt node m).c0).erase (nodeAt node m).c1) := by
  have hl : isLeaf m = false := isLeaf_eq_false.mpr (by omega)
  have hlink : ∀ b, (nodeAt node (child node m b)).v = true ∧ (nodeAt node (child node m b)).pv = true ∧
      (nodeAt node (child node m b)).parent = m := fun b => T.child_link m b hl hv
  have hin : ∀ b, child node m b ∈ waiting node k := by
    intro b
    obtain ⟨h1, _, h3⟩ := hlink b
    have := T.child_below m b hl hv
    exact mem_waiting.mpr ⟨h1, by omega, .inr (by rw [h3]; omega)⟩
  have hne := T.children_differ m hl hv
  have h0 : (nodeAt node m).c0 ∈ waiting node k := hin false
  have h1 : (nodeAt node m).c1 ∈ waiting node k := hin true
  refine ⟨h0, Finset.mem_erase.mpr ⟨hne.symm, h1⟩, ?_, ?_⟩
  · intro h
    have := (mem_waiting.mp (Finset.mem_of_mem_erase (Finset.mem_of_mem_erase h))).2.1
    omega
  · ext j
    simp only [Finset.mem_insert, Finset.mem_erase, mem_waiting]
    constructor
    · rintro ⟨j1, j2, j3⟩
      by_cases hj : j = m
      · exact .inl hj
      · have hlt : j.val < 256 + k := by
          have : j.val ≠ m.val := fun e => hj (Fin.ext e)
          omega
        have hpar : ∀ b, j ≠ child node m b := by
          rintro b rfl
          obtain ⟨_, p2, p3⟩ := hlink b
          rw [p2, p3] at j3
          rcases j3 with j3 | j3
          · cases j3
          · omega
        exact .inr ⟨hpar true, hpar false, j1, hlt, j3.imp id fun h => by omega⟩
    · rintro (rfl | ⟨jc1, jc0, j1, j2, j3⟩)
      · refine ⟨hv, by omega, ?_⟩
        cases hp : (nodeAt node j).pv with
        | false => exact .inl rfl
        | true => exact .inr (by have := parent_above T hv hp; omega)
      · refine ⟨j1, by omega, ?_⟩
        cases hp : (nodeAt node j).pv with
        | false => exact .inl rfl
        | true =>
          refine .inr ?_
          rw [hp] at j3
          rcases j3 with j3 | j3
          · cases j3
          · rcases Nat.lt_or_ge (256 + k) (nodeAt node j).parent.val with h | h
            · omega
            · have hpm : (nodeAt node j).parent = m := Fin.ext (by omega)
              obtain ⟨_, _, q3⟩ := T.parent_link j j1 hp
              rw [hpm] at q3
              rcases q3 with q3 | q3
              · exact absurd q3.symm jc0
              · exact absurd q3.symm jc1

theorem before_count {i j : NodeIdx} (h : before node i j = true) :
    (nodeAt node i).count.toNat ≤ (nodeAt node j).count.toNat := by
  simp only [before, Bool.or_eq_true, decide_eq_true_eq, Bool.and_eq_true, beq_iff_eq] at h
  simp only [nodeAt]
  rcases h with h | ⟨h, _⟩
  · omega
  · rw [h]

theorem merge_cost (u v p e r s : Nat) (h : (u + v) * p + r ≤ (u + v) * e + s) :
    u * (p + 1) + (v * (p + 1) + r) ≤ u * (1 + e) + (v * (1 + e) + s) := by nlinarith

/-- Huffman's theorem (R114): in a tree whose merges went in order the depths weigh no more than any lengths that meet
Kraft's inequality, over the nodes that wait after any number of merges. -/
theorem depths_minimal (T : TreeShape freq node root rootv) (hn : nsym freq ≠ 0)
    (O : ∀ m : NodeIdx, isLeaf m = false → (nodeAt node m).v = true → MergedInOrder node m)
    (path : NodeIdx → List Bool) (hpath : ∀ i, (nodeAt node i).v = true → walk node root (path i) = some i)
    (d : Nat) {k : Nat} (hk : k + d + 1 = nsym freq) (l : NodeIdx → Nat) (hl : Kraft (waiting node k) l) :
    lengthSum (waiting node k) (fun i => (nodeAt node i).count.toNat) (fun i => (path i).length) ≤
      lengthSum (waiting node k) (fun i => (nodeAt node i).count.toNat) l := by
  induction d generalizing k l with
  | zero =>
    have hall : ∀ i ∈ waiting node k, i = root := by
      intro i hi
      obtain ⟨h1, h2, h3⟩ := mem_waiting.mp hi
      cases hp : (nodeAt node i).pv with
      | false => exact ((T.root_only hn).1 i h1).mp hp
      | true =>
        obtain ⟨p1, p2, _⟩ := T.parent_link i h1 hp
        have := (T.internal_valid _ p1).mp p2
        rw [hp] at h3
        rcases h3 with h3 | h3
        · cases h3
        · omega
    have hnil : path root = [] := path_unique T hn (hpath root (T.root_only hn).2.1) rfl
    have : lengthSum (waiting node k) (fun i => (nodeAt node i).count.toNat) (fun i => (path i).length) = 0 :=
      Finset.sum_eq_zero fun i hi => by simp [hall i hi, hnil]
    omega
  | succ d ih =>
    have hnle := nsym_le freq
    let m : NodeIdx := ⟨256 + k, by omega⟩
    have hml : isLeaf m = false := isLeaf_eq_false.mpr (by simp [m])
    have hmv : (nodeAt node m).v = true := (T.internal_valid m hml).mpr (by simp only [m]; omega)
    obtain ⟨ha, hb, hnm, hstep⟩ := waiting_step T (k := k) (m := m) rfl hmv
    obtain ⟨o1, o2⟩ := O m hml hmv
    have hdiff := T.children_differ m hml hmv
    have hsum := T.sum_count m hml hmv
    generalize hea : (nodeAt node m).c0 = a at *
    generalize heb : (nodeAt node m).c1 = b at *
    have hbw : b ∈ waiting node k := Finset.mem_of_mem_erase hb
    have hother : ∀ z ∈ waiting node k, z ≠ a → z ≠ b → before node b z = true := by
      intro z hz h1 h2
      obtain ⟨z1, z2, z3⟩ := mem_waiting.mp hz
      refine o2 z z1 z2 h1 h2 ?_
      cases hp : (nodeAt node z).pv with
      | false => exact .inl rfl
      | true =>
        refine .inr ?_
        rw [hp] at z3
        rcases z3 with z3 | z3
        · cases z3
        · rcases Nat.lt_or_ge (256 + k) (nodeAt node z).parent.val with h | h
          · exact h
          · have hpm : (nodeAt node z).parent = m := Fin.ext (by simp only [m]; omega)
            obtain ⟨_, _, q3⟩ := T.parent_link z z1 hp
            rw [hpm, hea, heb] at q3
            rcases q3 with q3 | q3
            · exact absurd q3.symm h1
            · exact absurd q3.symm h2
    obtain ⟨l', k1, k2, k3, k4⟩ := huffman_exchange (w := fun i => (nodeAt node i).count.toNat) ha hbw hdiff
      (by
        intro z hz
        by_cases h1 : z = a
        · subst h1; exact Nat.le_refl _
        · by_cases h2 : z = b
          · subst h2; exact before_count o1
          · exact (before_count o1).trans (before_count (hother z hz h1 h2)))
      (by
        intro z hz h1
        by_cases h2 : z = b
        · subst h2; exact Nat.le_refl _
        · exact before_count (hother z hz h1 h2)) l hl
    refine Nat.le_trans ?_ k2
    have hrest : ∀ i ∈ ((waiting node k).erase a).erase b, Function.update l' m (l' a - 1) i = l' i :=
      fun i hi => Function.update_of_ne (fun e => hnm (by rw [← e]; exact hi)) _ _
    have hkr : Kraft (waiting node (k + 1)) (Function.update l' m (l' a - 1)) := by
      obtain ⟨n, n1, n2⟩ := k1
      refine ⟨n, ?_, ?_⟩
      · intro i hi
        rw [hstep] at hi
        rcases Finset.mem_insert.mp hi with rfl | hi
        · rw [Function.update_self]; have := n1 a ha; omega
        · rw [hrest i hi]; exact n1 i (Finset.mem_of_mem_erase (Finset.mem_of_mem_erase hi))
      · rw [hstep, Finset.sum_insert hnm, Function.update_self,
          Finset.sum_congr rfl fun i hi => by rw [hrest i hi]]
        rw [← Finset.add_sum_erase _ _ ha, ← Finset.add_sum_erase _ _ hb, ← k3] at n2
        have := n1 a ha
        have e : 2 ^ (n - (l' a - 1)) = 2 ^ (n - l' a) + 2 ^ (n - l' a) := by
          rw [show n - (l' a - 1) = (n - l' a) + 1 by omega, Nat.pow_succ]; omega
        omega
    have hI := ih (k := k + 1) (by omega) _ hkr
    have hpa : ∀ b, path (child node m b) = path m ++ [b] := by
      intro c
      refine path_unique T hn (hpath _ (T.child_link m c hml hmv).1) ?_
      rw [walk_append, hpath m hmv]
      simp [walk, hml]
    have hp0 : (path a).length = (path m).length + 1 := by
      have := hpa false
      rw [child_eq] at this
      simp only [Bool.false_eq_true, if_false, hea] at this
      rw [this]; simp
    have hp1 : (path b).length = (path m).length + 1 := by
      have := hpa true
      rw [child_eq] at this
      simp only [if_true, heb] at this
      rw [this]; simp
    unfold lengthSum at hI ⊢
    have hr : ∑ i ∈ ((waiting node k).erase a).erase b,
          (nodeAt node i).count.toNat * Function.update l' m (l' a - 1) i =
        ∑ i ∈ ((waiting node k).erase a).erase b, (nodeAt node i).count.toNat * l' i :=
      Finset.sum_congr rfl fun i hi => by rw [hrest i hi]
    rw [hstep, Finset.sum_insert hnm, Finset.sum_insert hnm, Function.update_self, hr] at hI
    simp only [hsum] at hI
    rw [← Finset.add_sum_erase _ _ ha, ← Finset.add_sum_erase _ _ hb, ← Finset.add_sum_erase _ _ ha,
      ← Finset.add_sum_erase _ _ hb]
    simp only [hp0, hp1, ← k3]
    obtain ⟨e, he⟩ := Nat.exists_eq_add_of_le k4
    rw [he] at hI ⊢
    rw [Nat.add_sub_cancel_left] at hI
    exact merge_cost _ _ _ _ _ _ hI

/-- The leaves are what waits before the first merge. -/
theorem lengthSum_leaves (T : TreeShape freq node root rootv) (l : NodeIdx → Nat) :
    lengthSum (waiting node 0) (fun i => (nodeAt node i).count.toNat) l =
      ((presentSymbols freq).map fun x => (freqOf freq x).toNat * l (leafSlot x)).sum := by
  have hw : waiting node 0 = ((presentSymbols freq).map leafSlot).toFinset := by
    ext i
    simp only [mem_waiting, List.mem_toFinset, List.mem_map, mem_presentSymbols]
    constructor
    · rintro ⟨h1, h2, _⟩
      obtain ⟨x, rfl⟩ := isLeaf_iff.mp (isLeaf_eq_true.mpr h2)
      exact ⟨x, (T.leaf_valid x).mp h1, rfl⟩
    · rintro ⟨x, hx, rfl⟩
      have hv := (T.leaf_valid x).mpr hx
      refine ⟨hv, x.isLt, ?_⟩
      cases hp : (nodeAt node (leafSlot x)).pv with
      | false => exact .inl rfl
      | true => exact .inr (isLeaf_eq_false.mp (T.parent_link _ hv hp).1)
  have hnd : ((presentSymbols freq).map leafSlot).Nodup :=
    (presentSymbols_nodup freq).map fun x y => leafSlot_injective
  rw [lengthSum, hw, List.sum_toFinset _ hnd, List.map_map]
  congr 1
  refine List.map_congr_left fun x hx => ?_
  simp only [Function.comp_apply, T.leaf_count x (mem_presentSymbols.mp hx)]

/-- The weighted path length of the codes is minimal among the prefix codes (R114, R122 (5)). -/
theorem codes_minimal (T : TreeShape freq node root rootv)
    (O : ∀ m : NodeIdx, isLeaf m = false → (nodeAt node m).v = true → MergedInOrder node m)
    (code : Byte → List Bool) (hc : PrefixCode freq code) :
    payloadLength freq node root ≤ weightedLength freq code := by
  by_cases hn : nsym freq = 0
  · have : presentSymbols freq = [] := List.length_eq_zero_iff.mp hn
    simp [payloadLength, weightedLength, this]
  cases hr : isLeaf root with
  | true =>
    refine List.sum_le_sum fun x hx => Nat.mul_le_mul_left _ ?_
    have hx := mem_presentSymbols.mp hx
    have h1 : codeOf node root x = some [false] := by simp [codeOf, root_leaf T hx hr]
    simp only [h1]
    exact List.length_pos_of_ne_nil (hc.1 x hx)
  | false =>
    have hex : ∀ i : NodeIdx, ∃ bs, (nodeAt node i).v = true → walk node root bs = some i := by
      intro i
      by_cases hv : (nodeAt node i).v = true
      · obtain ⟨bs, h⟩ := T.reachable i hv
        exact ⟨bs, fun _ => h⟩
      · exact ⟨[], fun h => absurd h hv⟩
    choose path hpath using hex
    have hcode : ∀ x, freqOf freq x ≠ 0#31 → (codeOf node root x).getD [] = path (leafSlot x) := by
      intro x hx
      obtain ⟨bs, h1, h2⟩ := codeOf_spec T hx
      rw [IsCode, hr] at h2
      rw [h1]
      exact path_unique T hn h2 (hpath _ ((T.leaf_valid x).mpr hx))
    let l : NodeIdx → Nat := fun i => (code (symbolOf i)).length
    have hk : Kraft (waiting node 0) l := by
      refine kraft_of_prefixFree _ (fun i => code (symbolOf i)) fun x hx y hy h => ?_
      obtain ⟨x1, x2, _⟩ := mem_waiting.mp hx
      obtain ⟨y1, y2, _⟩ := mem_waiting.mp hy
      obtain ⟨x, rfl⟩ := isLeaf_iff.mp (isLeaf_eq_true.mpr x2)
      obtain ⟨y, rfl⟩ := isLeaf_iff.mp (isLeaf_eq_true.mpr y2)
      rw [symbolOf_leafSlot, symbolOf_leafSlot] at h
      rw [hc.2 x y ((T.leaf_valid x).mp x1) ((T.leaf_valid y).mp y1) h]
    have h := depths_minimal T hn O path hpath (nsym freq - 1) (k := 0) (by omega) l hk
    rw [lengthSum_leaves T, lengthSum_leaves T] at h
    have e1 : payloadLength freq node root =
        ((presentSymbols freq).map fun x => (freqOf freq x).toNat * (path (leafSlot x)).length).sum := by
      rw [payloadLength, weightedLength]
      congr 1
      exact List.map_congr_left fun x hx => by rw [hcode x (mem_presentSymbols.mp hx)]
    rw [e1]
    simpa only [l, symbolOf_leafSlot, weightedLength] using h

end Sys2Proof.Machine
end

