-- ==== Sys2Proof/Laws/PerInstr.lean ====
section
/-! SUPPORT. Statements for all instructions, one lemma per constructor: the encoder fills the three fields of the
command word (R60, R71). -/

namespace Sys2Proof.Laws.Fields

/-- The encoded word carries the instruction's `op` code, `w` operand and `d` operand, each in its own field. -/
def Statement (i : Instr) : Prop :=
  opField (encode i) = opcode i ∧ wField (encode i) = wOperand i ∧ dField (encode i) = dOperand i

theorem fields_assemble (op w : Byte) (d : Word32) :
    opField (assemble op w d) = op ∧ wField (assemble op w d) = w ∧ dField (assemble op w d) = d := by
  refine ⟨?_, ?_, ?_⟩ <;> apply BitVec.eq_of_getLsbD_eq <;> intro k hk
  · have h1 : ¬ 40 + k < 32 := by omega
    have h2 : ¬ 40 + k - 32 < 8 := by omega
    have h3 : 40 + k - 32 - 8 = k := by omega
    simp only [opField, assemble, BitVec.getLsbD_extractLsb', BitVec.getLsbD_append, hk, h1, h2, h3, decide_true,
      Bool.true_and, if_false]
  · have h1 : ¬ 32 + k < 32 := by omega
    have h3 : 32 + k - 32 = k := by omega
    simp only [wField, assemble, BitVec.getLsbD_extractLsb', BitVec.getLsbD_append, hk, h1, h3, decide_true,
      Bool.true_and, if_true, if_false]
  · simp only [dField, assemble, BitVec.getLsbD_extractLsb', BitVec.getLsbD_append, hk, Nat.zero_add, decide_true,
      Bool.true_and, if_true]

theorem statement (i : Instr) : Statement i := fields_assemble (opcode i) (wOperand i) (dOperand i)

theorem wbit (b : Bool) : Statement (.wbit b) := statement _
theorem wbyte (v : Byte) : Statement (.wbyte v) := statement _
theorem wint (v : Word32) (w : Byte) : Statement (.wint v w) := statement _
theorem flush : Statement .flush := statement _
theorem rbit : Statement .rbit := statement _
theorem rbyte : Statement .rbyte := statement _
theorem rint (w : Byte) : Statement (.rint w) := statement _
theorem tally (sym : Byte) : Statement (.tally sym) := statement _
theorem whdr : Statement .whdr := statement _
theorem rhdr : Statement .rhdr := statement _
theorem build : Statement .build := statement _
theorem enc (sym : Byte) : Statement (.enc sym) := statement _
theorem dec : Statement .dec := statement _
theorem compress : Statement .compress := statement _
theorem decompress : Statement .decompress := statement _
theorem sreset : Statement .sreset := statement _

end Sys2Proof.Laws.Fields
end

