-- ==== Sys2Proof/Laws/Step.lean ====
section
/-! SUPPORT. What an operation and a step can do, said once: the cases in which they answer a next state or stop. -/

namespace Sys2Proof.Machine

/-- The operation behind an instruction; SRESET, which no fault can refuse, has none. -/
def opOf : Instr → State → Result Unit
  | .wbit b => wbit b
  | .wbyte v => wbyte v
  | .wint v w => wint v w
  | .flush => flush
  | .rbit => rbit
  | .rbyte => rbyte
  | .rint w => rint w
  | .tally x => tally x
  | .whdr => whdr
  | .rhdr => rhdr
  | .build => build
  | .enc x => enc x
  | .dec => dec
  | .compress => compress
  | .decompress => decompress
  | .sreset => fun s => .done () (newSession s)

/-- Every instruction but SRESET is one command (R151). -/
theorem exec_eq_command {i : Instr} (h : i ≠ .sreset) (s : State) : exec i s = command (opOf i) s := by
  cases i <;> first | rfl | exact absurd rfl h

theorem exec_faulted {i : Instr} {s : State} (hi : i ≠ .sreset) (h : s.fault ≠ .ok) : exec i s = .next s := by
  rw [exec_eq_command hi, command_faulted h]

theorem exec_done {i : Instr} {s t : State} (h : s.fault = .ok) (ho : opOf i s = .done () t) : exec i s = .next t := by
  by_cases hi : i = .sreset
  · subst hi
    simp only [opOf, Result.done.injEq, true_and] at ho
    rw [← ho]; rfl
  · rw [exec_eq_command hi, command_done h ho]

theorem exec_raised {i : Instr} {s : State} {p : RaisePoint} {c : FaultCode} {info : Byte} (h : s.fault = .ok)
    (ho : opOf i s = .raised p c info) : exec i s = .next (takeFault p c info s) := by
  have hi : i ≠ .sreset := by rintro rfl; simp [opOf] at ho
  rw [exec_eq_command hi, command_raised h ho]

theorem exec_sreset (s : State) : exec .sreset s = .next (newSession s) := rfl

/-- Everything an instruction can end in when it answers a next state (R140, R151, R152). -/
theorem exec_cases {i : Instr} {s t : State} (h : exec i s = .next t) :
    (i = .sreset ∧ t = newSession s) ∨
      (i ≠ .sreset ∧ ((s.fault ≠ .ok ∧ t = s) ∨
        (s.fault = .ok ∧ (opOf i s = .done () t ∨
          ∃ p c info, opOf i s = .raised p c info ∧ t = takeFault p c info s)))) := by
  by_cases hi : i = .sreset
  · subst hi
    exact .inl ⟨rfl, (Host.Outcome.next.inj h).symm⟩
  · rw [exec_eq_command hi] at h
    exact .inr ⟨hi, command_cases h⟩

/-- No instruction is refused. -/
theorem exec_not_refused (i : Instr) (s : State) (r : Refusal) : exec i s ≠ .refused r := by
  by_cases hi : i = .sreset
  · subst hi
    simp [exec_sreset]
  · rw [exec_eq_command hi]
    exact command_not_refused _ s r

/-- An instruction stops the model exactly when its operation does, in a session without a fault. -/
theorem exec_eq_fault {i : Instr} {s : State} {f : Fault} :
    exec i s = .fault f ↔ i ≠ .sreset ∧ s.fault = .ok ∧ opOf i s = .stopped f := by
  by_cases hi : i = .sreset
  · subst hi
    simp [exec_sreset]
  · rw [exec_eq_command hi, command_eq_fault]
    simp [hi]

/-- Everything a step can do (R8, R9). -/
theorem step_cases {s : State} :
    (s.pending = [] ∧ step s = .next s) ∨
      ∃ a rest, s.pending = a :: rest ∧ step s = takeAction a { s with pending := rest } := by
  unfold step
  cases hp : s.pending with
  | nil => exact .inl ⟨rfl, rfl⟩
  | cons a rest => exact .inr ⟨a, rest, rfl, rfl⟩

/-- Everything a host action can do. -/
theorem takeAction_cases (a : HostAction) (s : State) :
    (∃ bytes, a = .present bytes ∧ takeAction a s = .next { s with src := bytes }) ∨
      (a = .reset ∧ takeAction a s = exec .sreset s) ∨
      (∃ c i, a = .command c ∧ decode c = .instr i ∧ takeAction a s = exec i s) ∨
      (∃ c op, a = .command c ∧ decode c = .reserved op ∧ takeAction a s = illegalCommand s) := by
  cases a with
  | present bytes => exact .inl ⟨bytes, rfl, rfl⟩
  | reset => exact .inr (.inl ⟨rfl, rfl⟩)
  | command c =>
    cases hd : decode c with
    | instr i => exact .inr (.inr (.inl ⟨c, i, rfl, hd, by simp [takeAction, runWord, hd]⟩))
    | reserved op => exact .inr (.inr (.inr ⟨c, op, rfl, hd, by simp [takeAction, runWord, hd]⟩))

theorem illegalCommand_ok {s : State} (h : s.fault = .ok) :
    illegalCommand s = .next { s with fault := .illegalCmd, finfo := 0#8 } := by
  simp [illegalCommand, command, h, takeFault, setFault]

theorem illegalCommand_faulted {s : State} (h : s.fault ≠ .ok) : illegalCommand s = .next s := command_faulted h

/-- The word put before the host's other actions is the one the next step runs. -/
theorem step_withFetchWord (s : State) (nbits w : Nat) :
    step (s.withFetchWord nbits w) = runWord (BitVec.ofNat 48 (w % 2 ^ nbits)) s := rfl

end Sys2Proof.Machine
end

