-- ==== Sys2Proof/Laws/Sink.lean ====
section
/-! SUPPORT. DEC does not look at the sink, so DECOMPRESS's decode pass is DECs one after another, up to the sink (R131,
R135). -/

namespace Sys2Proof.Machine

open Safety

variable {α β : Type}

/-- The same end, with another sink. -/
def Result.withSnk (l : Memory) : Result α → Result α
  | .done a s => .done a { s with snk := l }
  | .raised p c i => .raised p c i
  | .stopped f => .stopped f

@[simp] theorem withSnk_done (l : Memory) (a : α) (s : State) :
    (Result.done a s).withSnk l = .done a { s with snk := l } := rfl

@[simp] theorem withSnk_raised (l : Memory) (p : RaisePoint) (c : FaultCode) (i : Byte) :
    (Result.raised p c i : Result α).withSnk l = .raised p c i := rfl

@[simp] theorem withSnk_stopped (l : Memory) (f : Fault) : (Result.stopped f : Result α).withSnk l = .stopped f := rfl

/-- Lines that do not look at the sink, one after the other. -/
theorem bind_withSnk {l : Memory} {r r' : Result α} {k k' : α → State → Result β} (hr : r' = r.withSnk l)
    (hk : ∀ a t, k' a { t with snk := l } = (k a t).withSnk l) : r'.bind k' = (r.bind k).withSnk l := by
  subst hr
  cases r with
  | done a t => exact hk a t
  | raised p c i => rfl
  | stopped f => rfl

theorem nextBit_withSnk (l : Memory) (s : State) : nextBit { s with snk := l } = (nextBit s).withSnk l := by
  refine bind_withSnk ?_ fun _ _ => rfl
  unfold refillIfUsed refill srcByte State.slen
  dsimp only
  split
  · split
    · rfl
    · split <;> simp_all
  · rfl

theorem descend_withSnk (l : Memory) (n : Nat) (i : NodeIdx) (s : State) :
    descend n i { s with snk := l } = (descend n i s).withSnk l := by
  induction n generalizing i s with
  | zero =>
    unfold descend
    split
    · rfl
    · exact bind_withSnk (nextBit_withSnk l s) fun _ _ => rfl
  | succ n ih =>
    unfold descend
    split
    · rfl
    · exact bind_withSnk (nextBit_withSnk l s) fun b t => ih (child t.node i b) t

/-- DEC does not look at the sink (R121). -/
theorem dec_withSnk (l : Memory) (s : State) : dec { s with snk := l } = (dec s).withSnk l := by
  unfold dec decodeSymbol require
  dsimp only
  split
  · split
    · refine bind_withSnk ?_ fun _ _ => rfl
      split
      · refine bind_withSnk (nextBit_withSnk l s) fun b t => ?_
        cases b <;> rfl
      · exact descend_withSnk l _ _ s
    · rfl
  · rfl

/-- What DEC raises is a fault. -/
theorem dec_raised_code {s : State} {p : RaisePoint} {c : FaultCode} {i : Byte} (e : dec s = .raised p c i) :
    c ≠ .ok := by
  simp only [dec, require_eq_raised, bind_eq_raised] at e
  rcases e with ⟨_, _, rfl, _⟩ | ⟨_, ⟨_, _, rfl, _⟩ | ⟨_, e | ⟨_, _, _, e⟩⟩⟩
  · decide
  · decide
  · have := decodeSymbol_ends s
    rw [e] at this
    obtain ⟨_, rfl, _⟩ := this
    decide
  · cases e

theorem decAll_succ (n : Nat) (s : State) :
    decAll (n + 1) s = (decAll n s).bind fun _ t => (dec t).inner.bind fun _ u =>
      .done () (snkPut (u.res.extractLsb' 0 8) u) := by
  induction n generalizing s with
  | zero => rfl
  | succ n ih =>
    rw [decAll]
    conv_rhs => rw [decAll]
    cases (dec s).inner with
    | done a t => exact ih _
    | raised p c i => rfl
    | stopped f => rfl

/-- A decode pass that faults at some symbol faults there however many more are wanted (R131, R152). -/
theorem decAll_raised {k n : Nat} {s : State} {p : RaisePoint} {c : FaultCode} {i : Byte} (h : k ≤ n)
    (e : decAll k s = .raised p c i) : decAll n s = .raised p c i := by
  induction n, h using Nat.le_induction with
  | base => exact e
  | succ n _ ih => rw [decAll_succ, ih, bind_raised]

theorem execAll_append (is js : List Instr) (s : State) :
    execAll (is ++ js) s = match execAll is s with
      | .next t => execAll js t
      | .fault f => .fault f
      | .refused r => .refused r := by
  induction is generalizing s with
  | nil => rfl
  | cons i is ih =>
    simp only [List.cons_append, execAll]
    cases exec i s <;> simp [ih]

/-- In a session with a fault commands other than SRESET change nothing (R151 (1)). -/
theorem execAll_faulted {is : List Instr} {s : State} (hi : .sreset ∉ is) (h : s.fault ≠ .ok) :
    execAll is s = .next s := by
  induction is with
  | nil => rfl
  | cons i is ih =>
    simp only [List.mem_cons, not_or] at hi
    rw [execAll, exec_faulted (Ne.symm hi.1) h]
    exact ih hi.2

/-- When the decode pass is done, nothing but the reader, `RES` and the sink differs. -/
theorem decAll_decoder {n : Nat} {s t : State} (hp : s.phase = .built) (hr : s.rootv = true)
    (e : decAll n s = .done () t) : SameButDecoder s t := by
  have := decAll_ends n hp hr
  rw [e] at this
  exact this.1

/-- DECs one after another, in a BUILT session with a tree (R121, R135): as long as they complete they are the decode pass
with the sink left alone. -/
theorem execAll_decs (n : Nat) {s : State} (h : s.fault = .ok) (hp : s.phase = .built) (hr : s.rootv = true)
    {t : State} : (∃ w, decAll n s = .done () w ∧ t = { w with snk := s.snk }) ↔
      execAll (List.replicate n .dec) s = .next t ∧ t.fault = .ok := by
  induction n generalizing t with
  | zero =>
    simp only [decAll, List.replicate_zero, execAll, Result.done.injEq, true_and, Host.Outcome.next.injEq]
    constructor
    · rintro ⟨w, rfl, rfl⟩; exact ⟨rfl, h⟩
    · rintro ⟨rfl, _⟩; exact ⟨s, rfl, rfl⟩
  | succ n ih =>
    rw [List.replicate_succ', execAll_append]
    constructor
    · rintro ⟨w, e, rfl⟩
      rw [decAll_succ, bind_eq_done] at e
      obtain ⟨_, v, e1, e2⟩ := e
      rw [bind_eq_done] at e2
      obtain ⟨_, u, e2, e3⟩ := e2
      obtain ⟨k1, k2⟩ := ih.mp ⟨v, e1, rfl⟩
      simp only [Result.done.injEq, true_and] at e3
      have e4 : dec { v with snk := s.snk } = .done () { u with snk := s.snk } := by
        rw [dec_withSnk, inner_eq_done.mp e2, withSnk_done]
      have hu : u.fault = .ok := by
        have := decAll_decoder hp hr (n := n + 1) (t := w) (by
          rw [decAll_succ, e1, bind_done, e2, bind_done, e3])
        have hw : w.fault = s.fault := by rw [this]
        rw [← e3] at hw
        exact hw.trans h
      rw [k1]
      subst e3
      exact ⟨by simp [execAll, exec_done (i := .dec) k2 e4], hu⟩
    · rintro ⟨e, ht⟩
      cases hx : execAll (List.replicate n .dec) s with
      | fault f => simp [hx] at e
      | refused r => simp [hx] at e
      | next v =>
        rw [hx] at e
        have e : exec .dec v = .next t := by
          revert e
          simp only [execAll]
          cases exec .dec v <;> simp
        rcases exec_cases e with ⟨h0, _⟩ | ⟨_, ⟨hf, rfl⟩ | ⟨hf, hd | ⟨p, c, i, hd, rfl⟩⟩⟩
        · cases h0
        · exact absurd ht hf
        · obtain ⟨w, e1, rfl⟩ := ih.mpr ⟨hx, hf⟩
          have hd : (dec w).withSnk s.snk = .done () t := by rw [← dec_withSnk]; exact hd
          cases hw : dec w with
          | raised p c i => simp [hw] at hd
          | stopped f => simp [hw] at hd
          | done a u =>
            rw [hw] at hd
            simp only [withSnk_done, Result.done.injEq, true_and] at hd
            exact ⟨snkPut (u.res.extractLsb' 0 8) u, by rw [decAll_succ, e1, bind_done, hw, inner_done, bind_done],
              hd.symm⟩
        · exfalso
          exact dec_raised_code hd (by simpa using ht)

end Sys2Proof.Machine
end

