-- ==== Sys2Proof/Tests/Slice0.lean ====
section
/-! SUPPORT. Tests of the model on the spec's own examples (95_test_vectors.md: the vector's name stands in each comment),
the well-formedness smoke test, and for every obligation with hypotheses a state and operands that meet them. -/

namespace Sys2Proof.Tests

open Sys2Proof.Machine Sys2Proof.Safety

set_option Elab.async false

/-! ### Helpers -/

/-- The outcome is a next state and the state has the property. -/
def after (o : Host.Outcome State Fault Refusal) (p : State → Bool) : Bool :=
  match o with
  | .next t => p t
  | .fault _ | .refused _ => false

/-- A session with a writer that holds bits. -/
def writing (buf : Byte) (n : BitCount) : State := { State.reset with wbuf := buf, wn := n }

/-- A session with a source. -/
def reading (src : List Byte) : State := { State.reset with src := src }

/-- A table with the given entries. -/
def tableOf (ps : List (Byte × Freq)) : Vector Freq 256 :=
  ps.foldl (fun f p => f.set p.1.toNat p.2 p.1.isLt) State.reset.freq

/-- A session in which the given table has been counted. -/
def counted (ps : List (Byte × Freq)) (src : List Byte) : State :=
  { State.reset with freq := tableOf ps, src := src }

/-- An arena with the given nodes. -/
def arenaOf (ns : List (NodeIdx × Node)) : Vector Node 511 :=
  ns.foldl (fun a p => a.set p.1.val p.2) State.reset.node

/-- T1 built: the table of H1 and its tree, written out from the vector. -/
def t1 : State :=
  { counted [(0x61#8, 3#31), (0x62#8, 1#31)] [] with
    phase := .built, root := 256, rootv := true
    node := arenaOf
      [(0x61, { Node.unused with v := true, count := 3#40, pv := true, parent := 256 }),
        (0x62, { Node.unused with v := true, count := 1#40, pv := true, parent := 256 }),
        (256, { Node.unused with v := true, count := 4#40, c0 := 0x62, c1 := 0x61 })] }

/-- T4 built, written out from the vector, over the source of E17. -/
def t4 : State :=
  { counted [(0x61#8, 1#31), (0x62#8, 1#31), (0x63#8, 2#31)] [0xB0#8] with
    phase := .built, root := 257, rootv := true
    node := arenaOf
      [(0x61, { Node.unused with v := true, count := 1#40, pv := true, parent := 256 }),
        (0x62, { Node.unused with v := true, count := 1#40, pv := true, parent := 256 }),
        (0x63, { Node.unused with v := true, count := 2#40, pv := true, parent := 257 }),
        (256, { Node.unused with v := true, count := 2#40, pv := true, parent := 257, c0 := 0x61, c1 := 0x62 }),
        (257, { Node.unused with v := true, count := 4#40, c0 := 0x63, c1 := 256 })] }

/-- T3 built: one symbol. -/
def t3 : State :=
  { counted [(0x61#8, 4#31)] [] with
    phase := .built, root := 0x61, rootv := true
    node := arenaOf [(0x61, { Node.unused with v := true, count := 4#40 })] }

/-- T7 built: an empty table. -/
def t7 : State := { State.reset with phase := .built }

/-- The container of V1. -/
def v1 : List Byte := [0x40#8, 0x22#8, 0x1B#8, 0x46#8, 0xB8#8]

/-- The source of V1, "aaab". -/
def aaab : List Byte := [0x61#8, 0x61#8, 0x61#8, 0x62#8]

/-! ### Well-formedness: an ill-formed term for each check (R62, R63) -/

theorem test_wellFormed_wint : WellFormed (.wint 0#32 32#8) = true ∧ WellFormed (.wint 0#32 33#8) = false := by decide

theorem test_wellFormed_rint : WellFormed (.rint 32#8) = true ∧ WellFormed (.rint 33#8) = false := by decide

/-! ### Decoding: words written out from R60 and R61, field by field: op ++ w ++ d -/

theorem test_decode_wbit : decode (0x01#8 ++ 0xFF#8 ++ 0x00000001#32) = .instr (.wbit true) := by decide

theorem test_decode_wbyte : decode (0x02#8 ++ 0x00#8 ++ 0x12345661#32) = .instr (.wbyte 0x61#8) := by decide

theorem test_decode_wint : decode (0x03#8 ++ 0x20#8 ++ 0x12345678#32) = .instr (.wint 0x12345678#32 32#8) := by decide

theorem test_decode_flush : decode (0x04#8 ++ 0x00#8 ++ 0x00000000#32) = .instr .flush := by decide

theorem test_decode_rbit : decode (0x11#8 ++ 0x00#8 ++ 0x00000000#32) = .instr .rbit := by decide

theorem test_decode_rbyte : decode (0x12#8 ++ 0x00#8 ++ 0x00000000#32) = .instr .rbyte := by decide

theorem test_decode_rint : decode (0x13#8 ++ 0x09#8 ++ 0x00000000#32) = .instr (.rint 9#8) := by decide

theorem test_decode_tally : decode (0x20#8 ++ 0x00#8 ++ 0x001234FF#32) = .instr (.tally 0xFF#8) := by decide

theorem test_decode_whdr : decode (0x21#8 ++ 0x00#8 ++ 0x00000000#32) = .instr .whdr := by decide

theorem test_decode_rhdr : decode (0x22#8 ++ 0x00#8 ++ 0x00000000#32) = .instr .rhdr := by decide

theorem test_decode_build : decode (0x30#8 ++ 0x00#8 ++ 0x00000000#32) = .instr .build := by decide

theorem test_decode_enc : decode (0x31#8 ++ 0x00#8 ++ 0xFFFFFF61#32) = .instr (.enc 0x61#8) := by decide

theorem test_decode_dec : decode (0x32#8 ++ 0x00#8 ++ 0x00000000#32) = .instr .dec := by decide

theorem test_decode_compress : decode (0x40#8 ++ 0x00#8 ++ 0x00000000#32) = .instr .compress := by decide

theorem test_decode_decompress : decode (0x41#8 ++ 0x00#8 ++ 0x00000000#32) = .instr .decompress := by decide

theorem test_decode_sreset : decode (0x50#8 ++ 0xFF#8 ++ 0xFFFFFFFF#32) = .instr .sreset := by decide

/-- F1, F2: the words with a reserved `op`. -/
theorem test_decode_reserved :
    [0x00, 0x05, 0x10, 0x14, 0x23, 0x33, 0x42, 0x51, 0xFF].all (fun op =>
      decode (BitVec.ofNat 48 (op * 2 ^ 40)) == .reserved (BitVec.ofNat 8 op)) = true := by decide

/-- The table's numbering is the command word's own (R60). -/
theorem test_decodeTableWord :
    decodeTableWord 48 0x032012345678 = some (.wint 0x12345678#32 32#8) ∧ decodeTableWord 48 0xFF0000000000 = none := by
  decide

/-! ### Bit writer -/

/-- W17: the first bit lands in bit 7; an unused `w` is ignored. -/
theorem test_wbit_first : after (step (State.reset.withFetchWord 48 0x01FF00000001))
    (fun t => t.wbuf == 0x80#8 && t.wn == 1 && t.olen == 0) = true := by decide +kernel

/-- W3: the eighth bit emits the byte at once. -/
theorem test_wbit_eighth : after (exec (.wbit true) (writing 0xFE#8 7))
    (fun t => t.wbuf == 0#8 && t.wn == 0 && t.snk == [0xFF#8]) = true := by decide +kernel

/-- W4: a byte-aligned WBYTE emits the bit reversal. -/
theorem test_wbyte_aligned : after (exec (.wbyte 0x61#8) State.reset)
    (fun t => t.snk == [0x86#8] && t.wn == 0) = true := by decide +kernel

/-- W10, second command: an unaligned byte. -/
theorem test_wbyte_unaligned : after (exec (.wbyte 0x61#8) (writing 0x80#8 1))
    (fun t => t.snk == [0xC3#8] && t.wbuf == 0#8 && t.wn == 1) = true := by decide +kernel

/-- W5: bytes least significant first, each reversed. -/
theorem test_wint_32 : after (exec (.wint 0x12345678#32 32#8) State.reset)
    (fun t => t.snk == [0x1E#8, 0x6A#8, 0x2C#8, 0x48#8] && t.wn == 0) = true := by decide +kernel

/-- W15: `w` = 33 faults and writes nothing. -/
theorem test_wint_33 : after (exec (.wint 0#32 33#8) State.reset)
    (fun t => t.fault == .badOperand && t.finfo == 0#8 && t.wn == 0 && t.olen == 0) = true := by decide +kernel

/-- W2, last command: zero padding. -/
theorem test_flush_partial : after (exec .flush (writing 0xE0#8 3))
    (fun t => t.snk == [0xE0#8] && t.wbuf == 0#8 && t.wn == 0) = true := by decide +kernel

/-- W12: FLUSH with `WN` = 0 emits nothing. -/
theorem test_flush_empty : after (exec .flush State.reset) (fun t => t.wn == 0 && t.olen == 0) = true := by decide +kernel

/-! ### Bit reader -/

/-- B12, first command: a lazy refill, then one bit. -/
theorem test_rbit_refill : after (exec .rbit (reading [0x80#8]))
    (fun t => t.res == 1#32 && t.sp == 1 && t.rn == 1 && t.rbuf == 0x80#8) = true := by decide +kernel

/-- B7: the source is empty. -/
theorem test_rbit_truncated : after (exec .rbit (reading []))
    (fun t => t.fault == .formatError && t.finfo == 1#8) = true := by decide +kernel

/-- B3: the inverse of W4. -/
theorem test_rbyte : after (exec .rbyte (reading [0x86#8]))
    (fun t => t.res == 0x61#32 && t.sp == 1 && t.rn == 8) = true := by decide +kernel

/-- B5: no little-endian load: each byte is bit-reversed. -/
theorem test_rint_32 : after (exec (.rint 32#8) (reading [0x78#8, 0x56#8, 0x34#8, 0x12#8]))
    (fun t => t.res == 0x482C6A1E#32 && t.sp == 4 && t.rn == 8) = true := by decide +kernel

/-- B10: the ninth bit is missing. -/
theorem test_rint_truncated : after (exec (.rint 9#8) (reading [0xFF#8]))
    (fun t => t.fault == .formatError && t.finfo == 1#8) = true := by decide +kernel

/-! ### Frequency table and header -/

/-- H4: only `d[7:0]` is used. -/
theorem test_tally : after (step (State.reset.withFetchWord 48 0x2000001234FF))
    (fun t => freqOf t.freq 0xFF#8 == 1#31 && freqOf t.freq 0xFE#8 == 0#31) = true := by decide +kernel

/-- H20, second command: the counter does not wrap. -/
theorem test_tally_overflow : after (exec (.tally 0x61#8) (counted [(0x61#8, 0x7FFFFFFF#31)] []))
    (fun t => t.fault == .countOverflow && t.finfo == 0x61#8 && freqOf t.freq 0x61#8 == 0x7FFFFFFF#31) = true := by
  decide +kernel

/-- H2, last command: the 34 header bits. -/
theorem test_whdr : after (exec .whdr t1)
    (fun t => t.snk == [0x40#8, 0x22#8, 0x1B#8, 0x46#8] && t.wbuf == 0x80#8 && t.wn == 2) = true := by decide +kernel

/-- H5: WHDR before BUILD. -/
theorem test_whdr_phase : after (exec .whdr State.reset)
    (fun t => t.fault == .badPhase && t.finfo == 0#8) = true := by decide +kernel

/-- H8: the header of V1. -/
theorem test_rhdr : after (exec .rhdr (reading v1))
    (fun t => freqOf t.freq 0x61#8 == 3#31 && freqOf t.freq 0x62#8 == 1#31 && total t.freq == 4 && t.sp == 5 &&
      t.rn == 2 && t.rbuf == 0xB8#8 && t.res == 0#32) = true := by decide +kernel

/-- H10 to H16: DUP_SYMBOL, COUNT_RANGE, ZERO_COUNT, ZERO_FREQ twice, TRUNCATED twice. -/
theorem test_rhdr_rejects :
    ([([0x40#8, 0x42#8, 0x1B#8, 0x0D#8, 0x00#8], 5#8), ([0x80#8, 0x80#8], 3#8), ([0x00#8, 0x00#8], 2#8),
      ([0x80#8, 0x42#8, 0x18#8], 4#8), ([0x80#8, 0x02#8, 0x18#8], 4#8), ([0x40#8, 0x22#8, 0x1B#8, 0x46#8], 1#8),
      ([0x80#8, 0x42#8], 1#8)] : List (List Byte × Byte)).all (fun p =>
        after (exec .rhdr (reading p.1)) (fun t => t.fault == .formatError && t.finfo == p.2)) = true := by
  decide +kernel

/-! ### Tree construction -/

/-- T6: ties between leaves and an internal node. -/
theorem test_build_ties :
    after (exec .build (counted [(0x61#8, 5#31), (0x62#8, 2#31), (0x63#8, 1#31), (0x64#8, 1#31), (0x72#8, 2#31)] []))
      (fun t => t.root == 259 && t.rootv && t.phase == .built &&
        [(256, 2, 0x63, 0x64), (257, 4, 0x62, 0x72), (258, 6, 256, 257), (259, 11, 0x61, 258)].all (fun p =>
          let n := nodeAt t.node (Fin.ofNat 511 p.1)
          n.v && n.count == BitVec.ofNat 40 p.2.1 && n.c0.val == p.2.2.1 && n.c1.val == p.2.2.2)) = true := by
  decide +kernel

/-- T7: an empty table. -/
theorem test_build_empty : after (exec .build State.reset)
    (fun t => t.phase == .built && !t.rootv && t.root == 0 && nodesClear t.node) = true := by decide +kernel

/-! ### Encode and decode -/

/-- E1: the code of 'a' in T1. -/
theorem test_enc : after (exec (.enc 0x61#8) t1) (fun t => t.wbuf == 0x80#8 && t.wn == 1) = true := by
  decide +kernel

/-- E4, first command: the degenerate tree of T3, one bit 0. -/
theorem test_enc_degenerate : after (exec (.enc 0x61#8) t3) (fun t => t.wbuf == 0#8 && t.wn == 1) = true := by
  decide +kernel

/-- E5: a symbol without a leaf. -/
theorem test_enc_absent : after (exec (.enc 0x63#8) t1)
    (fun t => t.fault == .absentSymbol && t.finfo == 0x63#8 && t.wn == 0) = true := by decide +kernel

/-- E17, first command, on the tree of T4: bits `1 0`. -/
theorem test_dec : after (exec .dec t4)
    (fun t => t.res == 0x61#32 && t.rn == 2 && t.sp == 1) = true := by decide +kernel

/-- E8: no tree. -/
theorem test_dec_noTree : after (exec .dec t7)
    (fun t => t.fault == .noTree && t.sp == 0 && t.rn == 8) = true := by decide +kernel

/-! ### Whole-stream operations -/

/-- V1. -/
theorem test_compress : after (exec .compress (reading aaab))
    (fun t => t.snk == v1 && t.fault == .ok && t.wn == 0 && t.root == 256 && t.sp == 0 && t.res == 0#32) = true := by
  decide +kernel

/-- V1 read back, with the end state of section 2.1. -/
theorem test_decompress : after (exec .decompress (reading v1))
    (fun t => t.snk == aaab && t.fault == .ok && t.res == 0x62#32 && t.rbuf == 0xB8#8 && t.rn == 6 && t.sp == 5) = true := by
  decide +kernel

/-- E13: DEGEN_BIT. -/
theorem test_decompress_degenBit : after (exec .decompress (reading [0x80#8, 0x42#8, 0x1B#8]))
    (fun t => t.fault == .formatError && t.finfo == 6#8) = true := by decide +kernel

/-! ### Control, faults, several instances -/

/-- F11: the bits in `WBUF` are lost. -/
theorem test_sreset : after (exec .sreset (writing 0xE0#8 3)) (fun t => t.wn == 0 && t.wbuf == 0#8 && t.rn == 8) = true := by decide +kernel

/-- F5: SRESET is accepted in a faulted session and keeps the source. -/
theorem test_sreset_faulted : after (exec .sreset { reading v1 with fault := .formatError, finfo := 1#8, sp := 5 })
    (fun t => t.fault == .ok && t.finfo == 0#8 && t.sp == 0 && t.src == v1) = true := by decide +kernel

/-- F3: a faulted session refuses, without any change. -/
theorem test_refused : after (exec (.wbit true) { State.reset with fault := .illegalCmd })
    (fun t => t.fault == .illegalCmd && t.finfo == 0#8 && t.wn == 0 && t.wbuf == 0#8) = true := by decide +kernel

/-- F1: a reserved `op`. -/
theorem test_illegal : after (step (State.reset.withFetchWord 48 0x000000000000))
    (fun t => t.fault == .illegalCmd && t.finfo == 0#8 && t.wn == 0 && t.wbuf == 0#8) = true := by decide +kernel

/-- R70: the 69-bit packing, `COUNT` in the low bits. -/
theorem test_packNode :
    packNode { v := true, count := 4#40, pv := false, parent := 3, c0 := 0x62, c1 := 0x61 } =
      1#1 ++ 0#1 ++ 3#9 ++ 0x62#9 ++ 0x61#9 ++ 4#40 := by decide +kernel

/-! ### Witnesses: for every obligation with hypotheses, operands and states that meet them, one for each clause -/

theorem after_next {o : Host.Outcome State Fault Refusal} {p : State → Bool} (h : after o p = true) :
    ∃ t, o = .next t ∧ p t = true := by
  cases o with
  | next t => exact ⟨t, rfl, h⟩
  | fault f => simp [after] at h
  | refused r => simp [after] at h

theorem noNodes : ∀ i : NodeIdx, (nodeAt State.reset.node i).v = false :=
  fun i => ((fresh_iff.mp (fresh_reset [])).2.2.2.2.2.2.2.2.2.2.1 i).1

theorem writerOk_reset : WriterOk State.reset := writerOk_fresh rfl rfl

theorem readerOk_reading (src : List Byte) : ReaderOk (reading src) := readerOk_start rfl rfl

theorem witness_sixteenOpcodes : (opField 0x310000000061#48).toNat = 0x31 ∧
    decode 0x310000000061#48 = .instr (.enc 0x61#8) ∧ decode 0x510000000000#48 = .reserved 0x51#8 := by decide

theorem witness_unusedOperandBits : opField 0x02FF12345661#48 = opField 0x020000000061#48 ∧
    0x02FF12345661#48 &&& usedBits (opField 0x02FF12345661#48) =
      0x020000000061#48 &&& usedBits (opField 0x020000000061#48) := by decide

theorem witness_stepRunsDecoded : (State.reset.withFetchWord 48 0x040000000000).pending =
      .command 0x040000000000#48 :: [] ∧ decode 0x040000000000#48 = .instr .flush := by decide

theorem witness_stepTakesHostActions : State.reset.pending = [] ∧
    ({ State.reset with pending := [.present v1, .reset] } : State).pending = .present v1 :: [.reset] ∧
    ({ State.reset with pending := [.reset] } : State).pending = .reset :: [] := ⟨rfl, rfl, rfl⟩

theorem witness_reservedOp : (State.reset.withFetchWord 48 0).pending = .command 0#48 :: [] ∧
    decode 0#48 = .reserved 0#8 ∧ (State.reset.withFetchWord 48 0).fault = .ok ∧
    (({ State.reset with fault := .illegalCmd } : State).withFetchWord 48 0).fault ≠ .ok := by decide

theorem witness_wideOperand : State.reset.fault = .ok ∧ 32 < (33#8).toNat := by decide

theorem witness_faultedSession : ({ State.reset with fault := .badPhase } : State).fault ≠ .ok ∧
    Instr.decompress ≠ .sreset := by decide

theorem witness_firstFaultIsKept :
    (∃ s t : State, s.fault ≠ .ok ∧ step s = .next t ∧ s.pending = [.command 0x010000000001#48] ∧
      resetsNext s = false) ∧
    (∃ s t : State, s.fault ≠ .ok ∧ step s = .next t ∧ s.pending = [.command 0x500000000000#48] ∧
      resetsNext s = true) ∧
    ∃ s t : State, s.fault ≠ .ok ∧ step s = .next t ∧ s.pending = [.reset] ∧ resetsNext s = true :=
  ⟨⟨{ State.reset with fault := .illegalCmd, pending := [.command 0x010000000001#48] }, _, by decide, rfl, rfl, by decide⟩,
    ⟨{ State.reset with fault := .illegalCmd, pending := [.command 0x500000000000#48] }, _, by decide, rfl, rfl, by decide⟩,
    ⟨{ State.reset with fault := .illegalCmd, pending := [.reset] }, _, by decide, rfl, rfl, rfl⟩⟩

theorem witness_wbit : (writing 0#8 0).fault = .ok ∧ (writing 0#8 0).wn.val < 7 ∧ (writing 0#8 6).wn.val < 7 ∧
    (writing 0#8 7).wn.val = 7 ∧ (writing 0#8 8).wn.val = 8 := by decide

theorem witness_writerAppends : State.reset.fault = .ok ∧ WriterOk State.reset ∧
    writerBits (.wbit true) = some [true] ∧ writerBits (.wint 5#32 3#8) = some [true, false, true] ∧
    writerBits (.wint 5#32 0#8) = some [] ∧ (∃ bs, writerBits (.wint 5#32 32#8) = some bs) ∧
    ∃ bs, writerBits (.wbyte 0x61#8) = some bs :=
  ⟨rfl, writerOk_reset, rfl, by decide, by decide, ⟨_, rfl⟩, ⟨_, rfl⟩⟩

theorem witness_flush : State.reset.wn.val = 0 ∧ 0 < (writing 0x80#8 1).wn.val ∧ (writing 0x80#8 1).fault = .ok ∧
    WriterOk (writing 0x80#8 1) ∧ WriterOk (writing 0xFE#8 7) := by
  refine ⟨rfl, by decide, rfl, ⟨by decide, ?_⟩, ⟨by decide, ?_⟩⟩ <;> intro k h1 h2 <;> interval_cases k <;>
    first | decide | (simp [writing] at h1)

theorem witness_writerLaws : [.wbit true, .wint 5#32 3#8].map writerBits = [[true], [true, false, true]].map some := by
  decide

theorem witness_rbit : (reading v1).fault = .ok ∧ ({ reading v1 with rn := 7, sp := 1 } : State).rn.val < 8 ∧
    (reading v1).rn.val = 8 ∧ (reading v1).src[(reading v1).sp]? = some 0x40#8 ∧
    (reading []).rn.val = 8 ∧ (reading []).sp = (reading []).slen := by decide

theorem witness_rint : (reading v1).fault = .ok ∧ ReaderOk (reading v1) ∧ (32#8).toNat ≤ 32 ∧
    (32#8).toNat ≤ (bitsAhead (reading v1)).length ∧ (8#8).toNat ≤ (bitsAhead (reading v1)).length ∧
    (0#8).toNat ≤ (bitsAhead (reading [])).length := by
  refine ⟨rfl, readerOk_reading _, ?_⟩; decide

theorem witness_readerTruncates : ReaderOk (reading [0xFF#8]) ∧ readerBits (.rint 9#8) = some 9 ∧
    (bitsAhead (reading [0xFF#8])).length < 9 ∧ readerBits .rbyte = some 8 ∧ 8 ≤ (bitsAhead (reading [0xFF#8])).length ∧
    readerBits .rbit = some 1 ∧ (bitsAhead (reading [])).length < 1 := by
  refine ⟨readerOk_reading _, ?_⟩; decide

theorem witness_readerLaws : [.rbit, .rbyte, .rint 7#8].map readerBits = [1, 8, 7].map some ∧
    [1, 8, 7].sum ≤ 8 * [0xC3#8, 0x5F#8].length ∧ [1, 8, 7][2]? = some 7 ∧
    readerBits .rbit = some 1 ∧ 8 * [0xC3#8, 0x5F#8].length < [1, 8, 7].sum + 1 := by decide

theorem witness_readerInvertsWriter : ∀ p ∈ [(5#32, 3#8), (7#32, 0#8), (0x12345678#32, 32#8)], p.2.toNat ≤ 32 := by
  simp

theorem witness_tally : State.reset.fault = .ok ∧ State.reset.phase = .empty ∧
    (freqOf State.reset.freq 0#8).toNat < 2 ^ 31 - 1 ∧
    (freqOf (counted [(0x61#8, 0x7FFFFFFE#31)] []).freq 0x61#8).toNat < 2 ^ 31 - 1 ∧
    (freqOf (counted [(0x61#8, 0x7FFFFFFF#31)] []).freq 0x61#8).toNat = 2 ^ 31 - 1 ∧ t1.phase = .built := by
  decide +kernel

theorem witness_counts : ∀ x, aaab.count x ≤ 2 ^ 31 - 1 := fun x =>
  (List.count_le_length).trans (by decide)

theorem witness_whdr : t1.fault = .ok ∧ t1.phase = .built ∧ WriterOk t1 ∧ nsym t7.freq = 0 ∧ t7.phase = .built ∧
    State.reset.phase = .empty :=
  ⟨rfl, rfl, writerOk_fresh rfl rfl, by decide +kernel, rfl, rfl⟩

theorem witness_headerFields : nsym t1.freq ≠ 0 ∧ (presentSymbols t1.freq)[0]? = some 0x61#8 ∧
    (presentSymbols t1.freq)[1]? = some 0x62#8 := by decide +kernel

theorem reset_total (src : List Byte) : total (reading src).freq = 0 :=
  total_eq_zero.mpr fun x => freqOf_replicate x

theorem witness_rhdr : total (reading v1).freq = 0 ∧ ReaderOk (reading v1) ∧
    (([(0x61#8, 3#31), (0x62#8, 1#31)] : List (Byte × Freq)).map Prod.fst).Nodup ∧
    (∀ p ∈ ([(0x61#8, 3#31), (0x62#8, 1#31)] : List (Byte × Freq)), p.2 ≠ 0#31 ∧ p.2.toNat < 2 ^ 2) ∧
    bitsAhead (reading v1) = lsbFirst 9 2 ++ lsbFirst 5 2 ++
      (([(0x61#8, 3#31), (0x62#8, 1#31)] : List (Byte × Freq)).flatMap fun p => pairBits 2 p.1 p.2) ++
      [true, true, true, false, false, false] :=
  ⟨reset_total _, readerOk_reading _, by decide, by simp, by decide +kernel⟩

/-- A reader with 13 bits ahead, the first nine of them the count 1. -/
def shortWidth : State := { reading [0x10#8, 0x00#8] with sp := 1, rbuf := 0x10#8, rn := 3 }

theorem witness_rhdrRejects : t1.fault = .ok ∧ t1.phase = .built ∧ total (counted [(0x61#8, 1#31)] []).freq ≠ 0 ∧
    total (reading []).freq = 0 ∧ ReaderOk (reading []) ∧ (bitsAhead (reading [0#8])).length < 9 ∧
    9 ≤ (bitsAhead (reading [0#8, 0#8])).length ∧ lsbValue ((bitsAhead (reading [0#8, 0#8])).take 9) = 0 ∧
    256 < lsbValue ((bitsAhead (reading [0x80#8, 0x80#8])).take 9) :=
  ⟨rfl, rfl, by decide +kernel, reset_total _, readerOk_reading _, by decide +kernel, by decide +kernel,
    by decide +kernel, by decide +kernel⟩

theorem witness_rhdrRejectsWidth : shortWidth.fault = .ok ∧ shortWidth.phase = .empty ∧ total shortWidth.freq = 0 ∧
    ReaderOk shortWidth ∧ (bitsAhead shortWidth).length = 13 ∧ lsbValue ((bitsAhead shortWidth).take 9) = 1 :=
  ⟨rfl, rfl, reset_total [], ⟨by decide, fun _ => by decide⟩, by decide +kernel, by decide +kernel⟩

/-- The pairs before the malformed one, in the sources of H10 and H15 and in those of H13 and H16. -/
theorem witness_rhdrRejectsPairs :
    bitsAhead (reading [0x40#8, 0x42#8, 0x1B#8, 0x0D#8, 0x00#8]) = lsbFirst 9 2 ++ lsbFirst 5 1 ++
      (([(0x61#8, 1#31)] : List (Byte × Freq)).flatMap fun p => pairBits 1 p.1 p.2) ++
        (pairBits 1 0x61#8 1#31 ++ List.replicate 8 false) ∧
    bitsAhead (reading [0x80#8, 0x42#8, 0x18#8]) = lsbFirst 9 1 ++ lsbFirst 5 1 ++
      (([] : List (Byte × Freq)).flatMap fun p => pairBits 1 p.1 p.2) ++ (pairBits 1 0x61#8 0#31 ++ [false]) ∧
    (∃ tail, bitsAhead (reading [0x40#8, 0x22#8, 0x1B#8, 0x46#8]) = lsbFirst 9 2 ++ lsbFirst 5 2 ++
      (([(0x61#8, 3#31)] : List (Byte × Freq)).flatMap fun p => pairBits 2 p.1 p.2) ++ tail ∧ tail.length < 8 + 2) ∧
    (∃ tail, bitsAhead (reading [0x80#8, 0x42#8]) = lsbFirst 9 1 ++ lsbFirst 5 1 ++
      (([] : List (Byte × Freq)).flatMap fun p => pairBits 1 p.1 p.2) ++ tail ∧ tail.length < 8 + 1) ∧
    0x61#8 ∈ ([(0x61#8, 1#31)] : List (Byte × Freq)).map Prod.fst ∧
    (∀ p ∈ ([(0x61#8, 1#31)] : List (Byte × Freq)), p.2 ≠ 0#31 ∧ p.2.toNat < 2 ^ 1) ∧
    (∀ p ∈ ([(0x61#8, 3#31)] : List (Byte × Freq)), p.2 ≠ 0#31 ∧ p.2.toNat < 2 ^ 2) ∧ (1#31).toNat < 2 ^ 1 :=
  ⟨by decide +kernel, by decide +kernel,
    ⟨(bitsAhead (reading [0x40#8, 0x22#8, 0x1B#8, 0x46#8])).drop 24, by decide +kernel, by decide +kernel⟩,
    ⟨(bitsAhead (reading [0x80#8, 0x42#8])).drop 14, by decide +kernel, by decide +kernel⟩,
    by simp, by simp, by simp, by decide⟩

theorem witness_build : (counted [(0x61#8, 3#31), (0x62#8, 1#31)] []).fault = .ok ∧
    (counted [(0x61#8, 3#31), (0x62#8, 1#31)] []).phase = .empty ∧
    (∀ i : NodeIdx, (nodeAt (counted [(0x61#8, 3#31), (0x62#8, 1#31)] []).node i).v = false) ∧
    2 ≤ nsym (counted [(0x61#8, 3#31), (0x62#8, 1#31)] []).freq ∧ t1.phase = .built :=
  ⟨rfl, rfl, noNodes, by decide +kernel, rfl⟩

/-- The last premise of the order of the merges, in the tree of T4: 'c' waits when node 256 is made. -/
theorem witness_buildPops : isLeaf 256 = false ∧ (nodeAt t4.node 256).v = true ∧ (nodeAt t4.node 0x63).v = true ∧
    (0x63 : NodeIdx) ≠ (nodeAt t4.node 256).c0 ∧ (0x63 : NodeIdx) ≠ (nodeAt t4.node 256).c1 ∧
    (256 : NodeIdx).val < (nodeAt t4.node 0x63).parent.val := by decide +kernel

theorem witness_priority : before t1.node 0x62 0x61 = true ∧ before t1.node 0x61 256 = true := by decide +kernel

theorem witness_buildDegenerate : nsym (reading []).freq = 0 ∧ nsym (counted [(0x61#8, 4#31)] []).freq = 1 ∧
    freqOf (counted [(0x61#8, 4#31)] []).freq 0x61#8 ≠ 0#31 := by decide +kernel

theorem witness_prefixCode : PrefixCode (tableOf [(0x61#8, 3#31), (0x62#8, 1#31)])
    (fun x => if x = 0x61#8 then [true] else [false]) := by
  have only : ∀ x, freqOf (tableOf [(0x61#8, 3#31), (0x62#8, 1#31)]) x ≠ 0#31 → x = 0x61#8 ∨ x = 0x62#8 := by
    decide +kernel
  refine ⟨fun x _ => by dsimp only; split <;> simp, fun x y hx hy h => ?_⟩
  rcases only x hx with rfl | rfl <;> rcases only y hy with rfl | rfl <;> simp at h ⊢

theorem witness_buildIsDeterministic : (counted [] v1).freq = (counted [] []).freq ∧
    (∀ i : NodeIdx, (nodeAt (counted [] v1).node i).v = false) ∧ (counted [] v1).src ≠ (counted [] []).src :=
  ⟨rfl, noNodes, by decide⟩

/-- BUILD's tree meets the premise `TreeShape` of the statements about codes. -/
theorem built_shape (ps : List (Byte × Freq)) (src : List Byte) :
    BuiltFrom (counted ps src) (buildBody (counted ps src)) := buildBody_builtFrom noNodes

theorem witness_enc : (buildBody (counted [(0x61#8, 3#31), (0x62#8, 1#31)] [])).phase = .built ∧
    WriterOk (buildBody (counted [(0x61#8, 3#31), (0x62#8, 1#31)] [])) ∧
    TreeShape (buildBody (counted [(0x61#8, 3#31), (0x62#8, 1#31)] [])).freq
      (buildBody (counted [(0x61#8, 3#31), (0x62#8, 1#31)] [])).node
      (buildBody (counted [(0x61#8, 3#31), (0x62#8, 1#31)] [])).root
      (buildBody (counted [(0x61#8, 3#31), (0x62#8, 1#31)] [])).rootv ∧
    freqOf (buildBody (counted [(0x61#8, 3#31), (0x62#8, 1#31)] [])).freq 0x61#8 ≠ 0#31 := by
  have B := built_shape [(0x61#8, 3#31), (0x62#8, 1#31)] []
  refine ⟨B.phase, ?_, B.shape, ?_⟩
  · rw [B.frame]; exact writerOk_fresh rfl rfl
  · rw [B.freq]; decide +kernel

theorem witness_encRefuses : State.reset.phase = .empty ∧ t7.phase = .built ∧ t7.rootv = false ∧ t1.rootv = true ∧
    (nodeAt t1.node (leafSlot 0x63#8)).v = false := by decide +kernel

theorem witness_dec : t4.fault = .ok ∧ t4.phase = .built ∧ t4.rootv = true ∧ ReaderOk t4 ∧
    IsCode t4.node t4.root 0x61#8 [true, false] ∧
    bitsAhead t4 = [true, false] ++ [true, true, false, false, false, false] := by
  refine ⟨rfl, rfl, rfl, readerOk_start rfl rfl, ?_, by decide +kernel⟩
  rw [IsCode, if_neg (by decide)]; decide +kernel

theorem witness_decDegenerate : IsCode t3.node t3.root 0x61#8 [false] := by
  rw [IsCode, if_pos (by decide)]; exact ⟨by decide, rfl⟩

theorem witness_decRefuses : State.reset.phase = .empty ∧ t7.rootv = false ∧
    walk t1.node t1.root (bitsAhead t1) = some 256 ∧ isLeaf 256 = false ∧ ReaderOk t1 ∧
    isLeaf t3.root = true ∧ bitsAhead t3 = [] ∧
    (bitsAhead ({ t3 with src := [0xB0#8] } : State)).head? = some true ∧ ReaderOk ({ t3 with src := [0xB0#8] } : State) :=
  ⟨rfl, rfl, by decide +kernel, by decide, readerOk_start rfl rfl, by decide, by decide, by decide, readerOk_start rfl rfl⟩

/-- The code premises of prefix freedom: both symbols of T1 have one. -/
theorem witness_codes : IsCode t1.node t1.root 0x61#8 [true] ∧ IsCode t1.node t1.root 0x62#8 [false] ∧
    [true] <+: [true] := by
  refine ⟨?_, ?_, List.prefix_rfl⟩ <;> rw [IsCode, if_neg (by decide)] <;> decide +kernel

theorem witness_wholeStream : fresh (writing 0xE0#8 3) = false ∧ fresh (reading []) = true ∧ (reading []).slen = 0 :=
  ⟨by decide +kernel, fresh_reset [], rfl⟩

theorem witness_compress : fresh (reading aaab) = true ∧ (reading aaab).slen ≠ 0 ∧
    ∀ x, (reading aaab).src.count x ≤ 2 ^ 31 - 1 := ⟨fresh_reset _, by decide, witness_counts⟩

/-- A source in which one byte overflows its counter, and where it does (H20's byte). -/
theorem witness_compressOverflows : fresh (reading (List.replicate (2 ^ 31) 0x61#8)) = true ∧
    (reading (List.replicate (2 ^ 31) 0x61#8)).slen ≠ 0 ∧ 2 ^ 31 - 1 < (List.replicate (2 ^ 31) 0x61#8).count 0x61#8 ∧
    List.replicate (2 ^ 31) 0x61#8 = List.replicate (2 ^ 31 - 1) 0x61#8 ++ 0x61#8 :: [] ∧
    (List.replicate (2 ^ 31 - 1) 0x61#8).count 0x61#8 = 2 ^ 31 - 1 ∧
    ∀ y, (List.replicate (2 ^ 31 - 1) 0x61#8).count y ≤ 2 ^ 31 - 1 := by
  have hlen : (reading (List.replicate (2 ^ 31) 0x61#8)).slen = 2 ^ 31 := List.length_replicate
  refine ⟨fresh_reset _, by rw [hlen]; decide, by rw [List.count_replicate_self]; decide, ?_,
    List.count_replicate_self, fun y => (List.count_le_length).trans (by rw [List.length_replicate])⟩
  rw [← List.replicate_succ' (n := 2 ^ 31 - 1)]
  exact congrArg (fun n => List.replicate n 0x61#8) (show 2 ^ 31 = 2 ^ 31 - 1 + 1 by decide)

/-- DECOMPRESS over the source of H12, whose header faults, and of E13, whose first code does. -/
theorem witness_decompressFaults :
    (fresh (reading [0x00#8, 0x00#8]) = true ∧
      after (exec .rhdr (reading [0x00#8, 0x00#8])) (fun u => u.fault != .ok) = true) ∧
    fresh (reading [0x80#8, 0x42#8, 0x1B#8]) = true ∧
      after (execAll ([.rhdr, .build] ++ List.replicate 0 .dec) (reading [0x80#8, 0x42#8, 0x1B#8])) (fun u =>
        u.fault == .ok && decide (0 < total u.freq) && after (exec .dec u) (fun v => v.fault != .ok)) = true :=
  ⟨⟨fresh_reset _, by decide +kernel⟩, fresh_reset _, by decide +kernel⟩

theorem witness_compressDeterministic : fresh { reading aaab with res := 7#32 } = true ∧
    ∃ t t', exec .compress (reading aaab) = .next t ∧ t.fault = .ok ∧
      exec .compress { reading aaab with res := 7#32 } = .next t' := by
  refine ⟨fresh_reset aaab, ?_⟩
  obtain ⟨t, h, ht⟩ := after_next test_compress
  rcases compress_cases (s := { reading aaab with res := 7#32 }) (fresh_reset aaab) (by decide) with
    ⟨x, _, e⟩ | ⟨u, b, _, _, _, _, _, e⟩
  · exact ⟨t, _, h, by simp_all, exec_raised rfl e⟩
  · exact ⟨t, _, h, by simp_all, exec_done rfl e⟩

theorem witness_compressEmpty : fresh (reading []) = true ∧ (reading []).src = [] ∧
    exec .compress (reading []) = .next (reading []) := by
  refine ⟨fresh_reset [], rfl, exec_done rfl ?_⟩
  have hf : fresh (reading []) = true := fresh_reset []
  simp only [opOf, compress, hf, require_true]
  rfl

theorem witness_roundTrip : fresh (reading [0x61#8, 0x61#8]) = true ∧
    (∀ x, (reading [0x61#8, 0x61#8]).src.count x ≤ 2 ^ 31 - 1) ∧
    (reading [0x61#8, 0x61#8]).src = List.replicate (1 + 1) 0x61#8 :=
  ⟨fresh_reset _, fun _ => List.count_le_length.trans (by decide), rfl⟩

theorem witness_selfConsistency : ∃ t u, exec .compress (reading aaab) = .next t ∧ t.fault = .ok ∧
    (reading v1).src = t.snk ∧ exec .decompress (reading v1) = .next u := by
  obtain ⟨t, h, ht⟩ := after_next test_compress
  obtain ⟨u, h', _⟩ := after_next test_decompress
  exact ⟨t, u, h, by simp_all, by simp_all [reading], h'⟩

/-- The premises of DECOMPRESS's result, for the container of V1 and the tree of T1: BUILD's tree from its table. -/
theorem witness_decompress : fresh (reading v1) = true ∧ nsym (tableOf [(0x61#8, 3#31), (0x62#8, 1#31)]) ≠ 0 ∧
    ∃ b, exec .build { reading v1 with freq := tableOf [(0x61#8, 3#31), (0x62#8, 1#31)] } = .next b ∧
      aaab.length = total (tableOf [(0x61#8, 3#31), (0x62#8, 1#31)]) ∧
      (∀ x ∈ aaab, freqOf (tableOf [(0x61#8, 3#31), (0x62#8, 1#31)]) x ≠ 0#31) ∧
      streamBits (reading v1).src = headerBits (tableOf [(0x61#8, 3#31), (0x62#8, 1#31)]) ++
        (aaab.flatMap fun x => (codeOf b.node b.root x).getD []) ++ [false, false] := by
  obtain ⟨b, h, hb⟩ := after_next (p := fun b => streamBits v1 == headerBits (tableOf [(0x61#8, 3#31), (0x62#8, 1#31)]) ++
        (aaab.flatMap fun x => (codeOf b.node b.root x).getD []) ++ [false, false])
    (show after (exec .build { reading v1 with freq := tableOf [(0x61#8, 3#31), (0x62#8, 1#31)] }) _ = true by
      decide +kernel)
  exact ⟨fresh_reset _, by decide +kernel, b, h, by decide +kernel, by decide +kernel, beq_iff_eq.mp hb⟩

theorem witness_decompressPrimitives : ∃ t, exec .decompress (reading v1) = .next t ∧ t.fault = .ok := by
  obtain ⟨t, h, ht⟩ := after_next test_decompress
  exact ⟨t, h, by simp_all⟩

theorem inv_reset : Inv (State.reset.withFetchWord 48 0x010000000001) := by
  refine fun _ => ⟨rfl, writerOk_fresh rfl rfl, readerOk_start rfl rfl, fun _ => ⟨rfl, ?_⟩, fun h => ?_⟩
  · exact (fresh_iff.mp (fresh_reset [])).2.2.2.2.2.2.2.2.2.2.1
  · cases h

theorem witness_inv : hostKeepsSource (State.reset.withFetchWord 48 0x010000000001) = true ∧
    ∃ t, core.step (State.reset.withFetchWord 48 0x010000000001) = .next t := ⟨rfl, _, rfl⟩

theorem witness_raises : ∃ t, exec (.wint 0#32 33#8) State.reset = .next t ∧ t.fault ≠ .ok ∧ t.fault ≠ .formatError :=
  ⟨_, rfl, by decide, by decide⟩

theorem witness_writers : ∃ t, exec .flush State.reset = .next t ∧ t.fault = .ok := ⟨_, rfl, rfl⟩

theorem witness_session : ∃ t, exec (.wbit true) t1 = .next t ∧ t.fault = .ok ∧ t1.phase = .built := ⟨_, rfl, rfl, rfl⟩

theorem witness_instances : ∃ ns, stepInstance (Vector.replicate 2 State.reset) 0 = .next ns := ⟨_, rfl⟩

end Sys2Proof.Tests
end

section
/-! PROOFS. One step of the machine (R8, R9): what it does with each action of the host. -/

namespace Sys2Proof.Machine

/-- A step with an action pending takes that action, and takes it out of the pending ones. -/
theorem step_of_pending {s : State} {a : HostAction} {rest : List HostAction} (h : s.pending = a :: rest) :
    step s = takeAction a { s with pending := rest } := by
  simp [step, h]

theorem step_of_idle {s : State} (h : s.pending = []) : step s = .next s := by
  simp [step, h]

theorem takeAction_command {c : CmdWord} {i : Instr} (h : decode c = .instr i) (s : State) :
    takeAction (.command c) s = exec i s := by
  simp [takeAction, runWord, h]

/-- The reset input does what SRESET does (R170). -/
theorem takeAction_reset (s : State) : takeAction .reset s = exec .sreset s := rfl

/-- Settles O5: the step takes the pending word, and the word's meaning is its instruction's. -/
theorem stepRunsDecoded : Obligations.StepRunsDecoded := by
  intro s c rest i hp hd
  rw [step_of_pending hp, takeAction_command hd]

/-- Settles O6, one case per host action that is no command. -/
theorem stepTakesHostActions : Obligations.StepTakesHostActions := by
  intro s rest bytes
  refine ⟨step_of_idle, fun hp => ?present, fun hp => ?reset⟩
  case present => rw [step_of_pending hp]; rfl
  case reset => rw [step_of_pending hp, takeAction_reset]

end Sys2Proof.Machine
end

section
/-! PROOFS. The order of the pops (R7, R111). -/

namespace Sys2Proof.Machine

/-- `prio` compares the pair of count and index lexicographically (R7). -/
theorem before_iff (node : Vector Node 511) (i j : NodeIdx) :
    before node i j = true ↔
      (nodeAt node i).count.toNat < (nodeAt node j).count.toNat ∨
        ((nodeAt node i).count = (nodeAt node j).count ∧ i.val < j.val) := by
  simp [before, nodeAt]

/-- Settles O33 from the laws of `before`. -/
theorem priorityIsStrictTotalOrder : Obligations.PriorityIsStrictTotalOrder := by
  intro node i j k
  refine ⟨before_irrefl node i, before_trans node, fun hij => ?total, before_iff node i j⟩
  case total => simp [before_total node hij]

end Sys2Proof.Machine
end

section
/-! PROOFS. The fields of the header (R65 to R67, R101): the header is cut at the field that is read, and the field is
read back from there. -/

namespace Sys2Proof.Machine

/-! ### Helper functions of R7 -/

theorem bitlen_pos {x : Nat} (h : x ≠ 0) : 1 ≤ bitlen x := by
  simp [bitlen, h]

theorem maxf_ne_zero {freq : Vector Freq 256} (h : nsym freq ≠ 0) : maxf freq ≠ 0 := by
  rw [ne_eq, nsym_eq_zero, not_forall] at h
  obtain ⟨x, hx⟩ := h
  have hpos : (freqOf freq x).toNat ≠ 0 := fun e => hx (BitVec.eq_of_toNat_eq (by simpa using e))
  have hmax := freqOf_le_maxf freq x
  omega

theorem symbols_ascending : symbols.Pairwise fun x y => x.toNat < y.toNat := by
  rw [symbols, List.pairwise_map]
  refine List.pairwise_lt_range.imp_of_mem fun {a b} ha hb hab => ?_
  rw [List.mem_range] at ha hb
  simpa [Nat.mod_eq_of_lt ha, Nat.mod_eq_of_lt hb] using hab

theorem presentSymbols_ascending (freq : Vector Freq 256) :
    (presentSymbols freq).Pairwise fun x y => x.toNat < y.toNat :=
  symbols_ascending.filter _

/-! ### A field inside a bit sequence -/

/-- A field that stands after `n` bits is read back from there (R66). -/
theorem lsbValue_field_at {bits pre post : List Bool} {n w v : Nat} (h : bits = pre ++ (lsbFirst w v ++ post))
    (hn : pre.length = n) (hv : v < 2 ^ w) : lsbValue ((bits.drop n).take w) = v := by
  rw [h, List.drop_left' hn, List.take_left' (lsbFirst_length w v), lsbValue_lsbFirst, Nat.mod_eq_of_lt hv]

/-! ### The header cut into its fields -/

/-- The pairs of a header for the symbols given: each symbol with its frequency, in the width of the table's header. -/
def tablePairs (freq : Vector Freq 256) (xs : List Byte) : List Bool :=
  xs.flatMap fun x => pairBits (bitlen (maxf freq)) x (freqOf freq x)

theorem tablePairs_length (freq : Vector Freq 256) (xs : List Byte) :
    (tablePairs freq xs).length = xs.length * (8 + bitlen (maxf freq)) := by
  simp [tablePairs, List.length_flatMap, pairBits]

theorem tablePairs_append_cons (freq : Vector Freq 256) (xs ys : List Byte) (x : Byte) :
    tablePairs freq (xs ++ x :: ys) = tablePairs freq xs ++
      (lsbFirst 8 x.toNat ++ (lsbFirst (bitlen (maxf freq)) (freqOf freq x).toNat ++ tablePairs freq ys)) := by
  simp [tablePairs, pairBits]

/-- The header of a table that is not empty: count, width, pairs (R65, R67). -/
theorem headerBits_eq {freq : Vector Freq 256} (h : nsym freq ≠ 0) :
    headerBits freq =
      lsbFirst 9 (nsym freq) ++ (lsbFirst 5 (bitlen (maxf freq)) ++ tablePairs freq (presentSymbols freq)) := by
  simp [headerBits, h, tablePairs]

theorem headerBits_length {freq : Vector Freq 256} (h : nsym freq ≠ 0) :
    (headerBits freq).length = 14 + nsym freq * (8 + bitlen (maxf freq)) := by
  simp only [headerBits_eq h, List.length_append, lsbFirst_length, tablePairs_length, nsym]
  omega

theorem headerBits_count {freq : Vector Freq 256} (h : nsym freq ≠ 0) :
    lsbValue ((headerBits freq).take 9) = nsym freq :=
  lsbValue_field_at (pre := []) (headerBits_eq h) rfl (Nat.lt_of_le_of_lt (nsym_le freq) (by decide))

theorem headerBits_width {freq : Vector Freq 256} (h : nsym freq ≠ 0) :
    lsbValue (((headerBits freq).drop 9).take 5) = bitlen (maxf freq) :=
  lsbValue_field_at (headerBits_eq h) (lsbFirst_length _ _) (Nat.lt_of_le_of_lt (bitlen_maxf_le freq) (by decide))

/-- The header cut before the pair of the `k`-th present symbol (R65, R67). -/
theorem headerBits_cut {freq : Vector Freq 256} {k : Nat} {x : Byte} (hk : (presentSymbols freq)[k]? = some x) :
    ∃ pre post, pre.length = 14 + k * (8 + bitlen (maxf freq)) ∧
      headerBits freq =
        pre ++ (lsbFirst 8 x.toNat ++ (lsbFirst (bitlen (maxf freq)) (freqOf freq x).toNat ++ post)) := by
  obtain ⟨hlt, hx⟩ := List.getElem?_eq_some_iff.mp hk
  have hcut : presentSymbols freq = (presentSymbols freq).take k ++ x :: (presentSymbols freq).drop (k + 1) := by
    rw [← hx, List.getElem_cons_drop, List.take_append_drop]
  have hhead := headerBits_eq (Nat.ne_zero_of_lt hlt)
  rw [hcut, tablePairs_append_cons, ← List.append_assoc, ← List.append_assoc] at hhead
  refine ⟨_, _, ?_, hhead⟩
  simp only [List.length_append, lsbFirst_length, tablePairs_length, List.length_take_of_le hlt.le]

/-- The `k`-th pair of the header reads back as the `k`-th present symbol and its frequency (R67). -/
theorem headerBits_pair {freq : Vector Freq 256} {k : Nat} {x : Byte} (hk : (presentSymbols freq)[k]? = some x) :
    lsbValue (((headerBits freq).drop (14 + k * (8 + bitlen (maxf freq)))).take 8) = x.toNat ∧
    lsbValue (((headerBits freq).drop (14 + k * (8 + bitlen (maxf freq)) + 8)).take (bitlen (maxf freq))) =
      (freqOf freq x).toNat := by
  obtain ⟨pre, post, hpre, hhead⟩ := headerBits_cut hk
  refine ⟨lsbValue_field_at hhead hpre x.isLt, ?_⟩
  rw [← List.append_assoc] at hhead
  exact lsbValue_field_at hhead (by rw [List.length_append, hpre, lsbFirst_length]) (freqOf_lt_bitlen freq x)

/-- Settles O25, field by field. -/
theorem headerFields : Obligations.HeaderFields := fun freq h =>
  ⟨headerBits_length h, bitlen_pos (maxf_ne_zero h), bitlen_maxf_le freq, freqOf_lt_bitlen freq, headerBits_count h,
    headerBits_width h, presentSymbols_ascending freq, fun _ _ => headerBits_pair⟩

end Sys2Proof.Machine
end

section
/-! PROOFS. Reset (R27, R140, R171): every element at its reset value, the session Fresh, the invariant met. -/

namespace Sys2Proof.Machine

open Safety

theorem fresh_newSession (s : State) : fresh (newSession s) = true := fresh_reset s.src

/-- A Fresh session meets the session invariant: nothing is held, nothing is read, no tree is built. -/
theorem inv_of_fresh {s : State} (h : fresh s = true) : Inv s := by
  obtain ⟨-, hinfo, hphase, hwbuf, hwn, -, hrn, hsp, -, -, hnode, -, hrootv⟩ := fresh_iff.mp h
  refine fun _ => ⟨hinfo, writerOk_fresh hwbuf hwn, readerOk_start hsp hrn, fun _ => ⟨hrootv, hnode⟩, fun hbuilt => ?_⟩
  rw [hphase] at hbuilt
  cases hbuilt

/-- Settles O51: the reset values are those of a Fresh session, and `RES` is 0 besides. -/
theorem sresetResult : Obligations.SresetResult := by
  intro s
  have hfresh := fresh_newSession s
  obtain ⟨hfault, hinfo, hphase, hwbuf, hwn, hrbuf, hrn, hsp, hsnk, hfreq, hnode, hroot, hrootv⟩ := fresh_iff.mp hfresh
  exact ⟨newSession s, exec_sreset s, hfault, hinfo, hphase, rfl, hwbuf, hwn, hrbuf, hrn, hsp, hsnk, hfreq, hnode, hroot,
    hrootv, rfl, rfl, hfresh, exec_sreset _⟩

/-- Settles O52: the model's reset state is the Fresh session over the empty source. -/
theorem resetValues : Obligations.ResetValues := by
  have hfresh : fresh core.reset = true := fresh_reset []
  obtain ⟨hfault, hinfo, hphase, hwbuf, hwn, hrbuf, hrn, hsp, hsnk, hfreq, hnode, hroot, hrootv⟩ := fresh_iff.mp hfresh
  exact ⟨hfault, hinfo, hphase, rfl, hwbuf, hwn, hrbuf, hrn, hsp, hsnk, hfreq, hnode, hroot, hrootv, hfresh⟩

/-- Settles O53: the reset state is Fresh. -/
theorem invAtReset : Obligations.InvAtReset := inv_of_fresh (fresh_reset [])

end Sys2Proof.Machine
end

section
/-! PROOFS. WBIT by cases on `WN` (R80). -/

namespace Sys2Proof.Machine

/-- R80: at `WN` = 8 the check before the write emits the byte, and the bit opens the next one. -/
theorem writeBit_full {b : Bool} {s : State} (h : s.wn.val = 8) : writeBit b s = placeBit b (emitByte s) := by
  have hfull : s.wn = 8 := Fin.ext h
  simp [writeBit, emitIfFull, hfull]

theorem exec_wbit {s : State} (h : s.fault = .ok) (b : Bool) : exec (.wbit b) s = .next (writeBit b s) :=
  exec_done (i := .wbit b) h rfl

/-- Settles O11, one clause per case of `WN`. -/
theorem wbitResult : Obligations.WbitResult := by
  intro s b hf
  rw [exec_wbit hf]
  refine ⟨fun h => ?room, fun h => ?last, fun h => ?full⟩
  case room => rw [writeBit_room h]; rfl
  case last => rw [writeBit_last h, emitByte, placeBit, h]; rfl
  case full => rw [writeBit_full h]; rfl

end Sys2Proof.Machine
end

section
/-! PROOFS. TALLY, once and for every byte of an input (R21, R100). -/

namespace Sys2Proof.Machine

open Safety

theorem tally_overflow {x : Byte} {s : State} (hp : s.phase = .empty)
    (hx : ¬ (freqOf s.freq x).toNat < Config.maxFreq) : tally x s = .raised .entry .countOverflow x := by
  simp [tally, hp, hx]

theorem tally_built {x : Byte} {s : State} (hp : s.phase = .built) : tally x s = .raised .entry .badPhase 0#8 := by
  rw [tally, hp]; rfl

/-- Settles O22, one clause per end of TALLY. -/
theorem tallyResult : Obligations.TallyResult := by
  intro s x hf
  refine ⟨fun hp hx => ?count, fun hp hx => ?top, fun hp => ?phase⟩
  case count => exact exec_done (i := .tally x) hf (tally_done hp hx)
  case top => exact exec_raised (i := .tally x) hf (tally_overflow hp (by rw [hx]; decide))
  case phase => exact exec_raised (i := .tally x) hf (tally_built hp)

/-- TALLYs issued one after another are COMPRESS's tally pass, as long as it completes (R130, R135). -/
theorem execAll_tallies (xs : List Byte) {s t : State} (hf : s.fault = .ok) (h : tallyAll xs s = .done () t) :
    execAll (xs.map .tally) s = .next t := by
  induction xs generalizing s with
  | nil => simpa [tallyAll, execAll] using h
  | cons x xs ih =>
    rw [tallyAll, bind_eq_done] at h
    obtain ⟨_, u, hx, hxs⟩ := h
    rw [inner_eq_done] at hx
    have hu : u.fault = .ok := by
      rw [tally, require_eq_done, require_eq_done] at hx
      obtain ⟨-, -, hset⟩ := hx
      obtain ⟨-, rfl⟩ := Result.done.inj hset
      exact hf
    rw [List.map_cons, execAll, exec_done (i := .tally x) hf hx]
    exact ih hu hxs

/-- When every counter holds its symbol's occurrences in an input, the counters add up to the input's length (R7). -/
theorem total_of_counts {freq : Vector Freq 256} {input : List Byte}
    (h : ∀ x, (freqOf freq x).toNat = input.count x) : total freq = input.length := by
  calc total freq = (symbols.map fun x => input.count x).sum := by
        rw [total, ← symbols_map_freqOf, List.map_map]
        exact congrArg List.sum (List.map_congr_left fun x _ => h x)
    _ = ∑ x ∈ symbols.toFinset, Multiset.count x (input : Multiset Byte) := by
        rw [List.sum_toFinset _ symbols_nodup]
        simp
    _ = input.length := Multiset.sum_count_eq_card fun x _ => List.mem_toFinset.mpr (mem_symbols x)

/-- Settles O23: the tally pass counts, and the occurrences add up to the length. -/
theorem talliesCountTheInput : Obligations.TalliesCountTheInput := by
  intro src input hmax
  have hzero : ∀ x, (freqOf (freshSession src).freq x).toNat = 0 := fun x => by
    rw [show freqOf (freshSession src).freq x = 0#31 from freqOf_replicate x]; rfl
  obtain ⟨t, hrun, hframe, hcount⟩ := tallyAll_spec input (s := freshSession src) rfl fun x => by
    rw [hzero, Nat.zero_add]; exact hmax x
  have hcount : ∀ x, (freqOf t.freq x).toNat = input.count x := fun x => by rw [hcount, hzero, Nat.zero_add]
  exact ⟨t, execAll_tallies input rfl hrun, hframe, hcount, total_of_counts hcount⟩

end Sys2Proof.Machine
end

section
/-! PROOFS. BUILD (R110 to R115): how it ends, the tree it leaves, and that it looks at nothing but the table. -/

namespace Sys2Proof.Machine

open Safety

/-! ### How BUILD ends -/

/-- BUILD writes the tree and `PHASE`; without a root it leaves `ROOT` as it was (R110, R113). -/
theorem buildBody_eq (s : State) : buildBody s =
    { s with
      node := (buildTree s.freq s.node).2, root := (buildTree s.freq s.node).1.getD s.root,
      rootv := (buildTree s.freq s.node).1.isSome, phase := .built } := by
  unfold buildBody
  rcases buildTree s.freq s.node with ⟨_ | r, node⟩ <;> rfl

theorem build_empty {s : State} (h : s.phase = .empty) : build s = .done () (buildBody s) := by
  simp [build, h]

theorem build_built {s : State} (h : s.phase = .built) : build s = .raised .entry .badPhase 0#8 := by
  rw [build, h]; rfl

theorem exec_build {s : State} (hf : s.fault = .ok) (hp : s.phase = .empty) :
    exec .build s = .next (buildBody s) :=
  exec_done (i := .build) hf (build_empty hp)

/-- Settles O30, one clause per phase. -/
theorem buildCompletes : Obligations.BuildCompletes := by
  intro s hf
  refine ⟨fun hp => ⟨buildBody s, exec_build hf hp, ?empty⟩, fun hp => ?built⟩
  case empty => rw [buildBody_eq]
  case built => exact exec_raised (i := .build) hf (build_built hp)

/-! ### The tree -/

/-- With two symbols or more the root is the last node created (R110, R123): the last internal slot in use has no slot
above it that could be its parent. -/
theorem root_val {freq : Vector Freq 256} {node : Vector Node 511} {root : NodeIdx} {rootv : Bool}
    (T : TreeShape freq node root rootv) (h : 2 ≤ nsym freq) : root.val = 256 + nsym freq - 2 := by
  have hle := nsym_le freq
  obtain ⟨last, hlast⟩ : ∃ i : NodeIdx, i.val = 256 + nsym freq - 2 := ⟨⟨_, by omega⟩, rfl⟩
  have hinternal : isLeaf last = false := isLeaf_eq_false.mpr (by omega)
  have hvalid : (nodeAt node last).v = true := (T.internal_valid last hinternal).mpr (by omega)
  obtain ⟨hroot, -, -⟩ := T.root_only (by omega)
  have horphan : (nodeAt node last).pv = false := by
    by_contra hpv
    rw [Bool.not_eq_false] at hpv
    obtain ⟨hpl, hpvalid, -⟩ := T.parent_link last hvalid hpv
    have habove := parent_above T hvalid hpv
    have hbelow := (T.internal_valid _ hpl).mp hpvalid
    omega
  rw [← (hroot last hvalid).mp horphan, hlast]

/-- Settles O31: the tree has the shape of R25, and its root is the last node created. -/
theorem buildMakesTheTree : Obligations.BuildMakesTheTree := by
  intro s hf hp hnone
  have B := buildBody_builtFrom hnone
  exact ⟨buildBody s, exec_build hf hp, B.phase, B.tree, root_val B.tree⟩

/-- Settles O36: fields without a meaning do not enter the merge network (R22, R115). -/
theorem buildIsDeterministic : Obligations.BuildIsDeterministic := by
  intro s s' hf hf' hp hp' hfreq hnone hnone'
  obtain ⟨hroot, hnodes⟩ := agree_buildTree s.freq hnone hnone'
  refine ⟨buildBody s, buildBody s', exec_build hf hp, exec_build hf' hp', ?_⟩
  simp only [buildBody_eq, ← hfreq, ← hroot]
  refine ⟨hnodes, trivial, fun hsome => ?root, fun hnode hr => ?bits⟩
  case root =>
    obtain ⟨r, hr⟩ := Option.isSome_iff_exists.mp hsome
    rw [hr, Option.getD_some, Option.getD_some]
  case bits => rw [hnode, hr]; exact ⟨rfl, rfl⟩

end Sys2Proof.Machine
end

section
/-! PROOFS. The codes of a tree (R69, R122). -/

namespace Sys2Proof.Machine

open Safety

/-- Codes of one tree along comparable bits are one code of one symbol (R122 (3)). -/
theorem isCode_comparable {node : Vector Node 511} {root : NodeIdx} {x y : Byte} {as bs : List Bool}
    (hx : IsCode node root x as) (hy : IsCode node root y bs) (h : as <+: bs) : x = y ∧ as = bs := by
  unfold IsCode at hx hy
  split at hx
  next hl =>
    rw [if_pos hl] at hy
    exact ⟨leafSlot_injective (hx.1.symm.trans hy.1), hx.2.trans hy.2.symm⟩
  next hl =>
    rw [if_neg hl] at hy
    obtain ⟨cs, rfl⟩ := h
    obtain ⟨rfl, hleaf⟩ := walk_prefix_free node hx (isLeaf_leafSlot x) hy
    exact ⟨leafSlot_injective hleaf, (List.append_nil as).symm⟩

/-- A symbol has one code: a node of the tree has one path from the root (R122). -/
theorem isCode_unique {freq : Vector Freq 256} {node : Vector Node 511} {root : NodeIdx} {rootv : Bool} {x : Byte}
    {as bs : List Bool} (T : TreeShape freq node root rootv) (hn : nsym freq ≠ 0) (ha : IsCode node root x as)
    (hb : IsCode node root x bs) : as = bs := by
  unfold IsCode at ha hb
  split at ha
  next hl =>
    rw [if_pos hl] at hb
    exact ha.2.trans hb.2.symm
  next hl =>
    rw [if_neg hl] at hb
    exact path_unique T hn ha hb

/-- Settles O41 from the two laws of codes. -/
theorem codesArePrefixFree : Obligations.CodesArePrefixFree := by
  intro s x y as bs T hn hx hy
  refine ⟨isCode_comparable hx hy, ?_⟩
  rintro rfl
  exact isCode_unique T hn hx hy

end Sys2Proof.Machine
end

section
/-! PROOFS. The reader operations one after another (R90 to R93): which bits they deliver and where the reader stands. -/

namespace Sys2Proof.Machine

open Safety

/-! ### Bits of a field, bits of the source -/

/-- Bit `j` of a field's value is the field's `j`-th bit, and 0 behind the field (R46 (2)). -/
theorem lsbValue_testBit (bs : List Bool) (j : Nat) : (lsbValue bs).testBit j = bs.getD j false := by
  induction bs generalizing j with
  | nil => simp [lsbValue]
  | cons b bs ih =>
    cases j with
    | zero => cases b <;> simp [lsbValue, Nat.testBit_zero]
    | succ j =>
      have hhalf : (b.toNat + 2 * lsbValue bs) / 2 = lsbValue bs := by cases b <;> simp; omega
      rw [lsbValue, Nat.testBit_succ, hhalf, ih, List.getD_cons_succ]

/-- Bit `m` of a byte sequence is bit `7 - m mod 8` of byte `m div 8` (R46 (1)). -/
theorem streamBits_getD (m : Memory) (p : Nat) :
    (streamBits m).getD p false = (m.getD (p / 8) 0#8).getLsbD (7 - p % 8) := by
  have hlt : p % 8 < 8 := Nat.mod_lt _ (by decide)
  have hbit := streamBits_getElem? m (p / 8) (p % 8) hlt
  rw [Nat.div_add_mod] at hbit
  rw [List.getD_eq_getElem?_getD, List.getD_eq_getElem?_getD, hbit]
  cases m[p / 8]? with
  | none => simp
  | some b => simp [streamBit, BitVec.getMsbD, hlt]

/-! ### One operation -/

/-- Every reader operation is a field read into `RES` (R90, R91, R92). -/
theorem opOf_reader {i : Instr} {n : Nat} (h : readerBits i = some n) (s : State) :
    opOf i s = (readField n s).bind fun v t => setRes (BitVec.ofNat 32 v) t := by
  cases i with
  | rbit =>
    obtain rfl : 1 = n := Option.some.inj h
    simp only [opOf, rbit, readField, nextBits]
    cases nextBit s with
    | done b t => cases b <;> rfl
    | raised p c i => rfl
    | stopped f => rfl
  | rbyte =>
    obtain rfl : 8 = n := Option.some.inj h
    rfl
  | rint w =>
    simp only [readerBits, Option.ite_none_right_eq_some, Option.some.injEq] at h
    obtain ⟨hw, rfl⟩ := h
    simp [opOf, rint, Config.intW, hw]
  | wbit _ | wbyte _ | wint _ _ | flush | tally _ | whdr | rhdr | build | enc _ | dec | compress | decompress
  | sreset => cases h

theorem readerBits_le {i : Instr} {n : Nat} (h : readerBits i = some n) : n ≤ 32 := by
  cases i with
  | rbit | rbyte => simp only [readerBits, Option.some.injEq] at h; omega
  | rint w =>
    simp only [readerBits, Option.ite_none_right_eq_some, Option.some.injEq] at h
    omega
  | wbit _ | wbyte _ | wint _ _ | flush | tally _ | whdr | rhdr | build | enc _ | dec | compress | decompress
  | sreset => cases h

theorem bitCount_succ_ne_zero : ∀ {r : BitCount}, r ≠ 8 → r + 1 ≠ 0 := by decide

/-- A delivered bit leaves `RN` at 1 or above (R90). -/
theorem nextBit_rn {s t : State} {b : Bool} (h : nextBit s = .done b t) : t.rn ≠ 0 := by
  obtain ⟨_, u, hu, ht⟩ := bind_eq_done.mp h
  have hne : u.rn ≠ 8 := by
    unfold refillIfUsed at hu
    split at hu
    · unfold refill at hu
      split at hu
      · cases hu
      · split at hu
        · cases hu
          exact (by decide : (0 : BitCount) ≠ 8)
        · cases hu
    next h8 => cases hu; exact h8
  cases ht
  exact bitCount_succ_ne_zero hne

theorem nextBits_rn {n : Nat} {s t : State} {bs : List Bool} (hs : s.rn ≠ 0) (h : nextBits n s = .done bs t) :
    t.rn ≠ 0 := by
  induction n generalizing s bs with
  | zero => cases h; exact hs
  | succ n ih =>
    obtain ⟨b, u, hu, h⟩ := bind_eq_done.mp h
    obtain ⟨cs, v, hv, h⟩ := bind_eq_done.mp h
    cases h
    exact ih (nextBit_rn hu) hv

theorem readField_rn {w v : Nat} {s t : State} (hs : s.rn ≠ 0) (h : readField w s = .done v t) : t.rn ≠ 0 := by
  obtain ⟨bs, u, hu, h⟩ := bind_eq_done.mp h
  cases h
  exact nextBits_rn hs hu

/-! ### A sequence of operations -/

/-- The session over the source `src` in which the reader has delivered `m` bits and no fault was raised. -/
structure HasRead (src : Memory) (m : Nat) (s : State) : Prop where
  fault : s.fault = .ok
  src_eq : s.src = src
  reader : ReaderOk s
  pos : readerPos s = m
  rn_pos : s.rn ≠ 0

theorem hasRead_start (src : Memory) : HasRead src 0 (freshSession src) :=
  ⟨rfl, rfl, readerOk_start rfl rfl, rfl, (by decide : (8 : BitCount) ≠ 0)⟩

namespace HasRead

variable {src : Memory} {m : Nat} {s : State}

theorem ahead (h : HasRead src m s) : bitsAhead s = (streamBits src).drop m := by
  rw [bitsAhead, h.src_eq, h.pos]

/-- R93: where the reader stands after `m` bits. -/
theorem stands (h : HasRead src m s) :
    s.sp = (m + 7) / 8 ∧ s.rn.val = if m = 0 then 8 else (m - 1) % 8 + 1 := by
  have hpos := h.pos
  have hrn : s.rn.val ≠ 0 := fun e => h.rn_pos (Fin.ext e)
  have hheld : s.rn.val < 8 → 1 ≤ s.sp := fun hlt => (h.reader.held hlt).1
  have hmax := s.rn.isLt
  unfold readerPos at hpos
  split <;> omega

/-- One reader operation: with enough bits ahead it delivers them, and else it faults TRUNCATED. -/
theorem exec_reader (h : HasRead src m s) {i : Instr} {n : Nat} (hi : readerBits i = some n) :
    (8 * src.length < m + n ∧ ∃ u, exec i s = .next u ∧ FaultTaken s u .formatError (causeInfo .truncated)) ∨
      (m + n ≤ 8 * src.length ∧ ∃ t, exec i s = .next t ∧ HasRead src (m + n) t ∧
        t.res = BitVec.ofNat 32 (lsbValue (((streamBits src).drop m).take n))) := by
  have hop := opOf_reader hi s
  have hin := readerPos_le h.reader
  rw [h.pos, State.slen, h.src_eq] at hin
  have hlen : (bitsAhead s).length = 8 * src.length - m := by rw [h.ahead, List.length_drop, streamBits_length]
  rcases readField_spec n h.reader with ⟨hfew, e⟩ | ⟨t, henough, e, ht, hframe, -, hpos⟩
  · rw [e] at hop
    exact .inl ⟨by omega, _, exec_raised h.fault hop, by simp [FaultTaken]⟩
  · have hrn := readField_rn h.rn_pos e
    have hfault : t.fault = .ok := by rw [hframe]; exact h.fault
    rw [e, h.ahead] at hop
    exact .inr ⟨by omega, _, exec_done h.fault hop,
      ⟨hfault, hframe.src.trans h.src_eq, ⟨ht.inside, ht.held⟩, hpos.trans (by rw [h.pos]), hrn⟩, rfl⟩

/-- Reader operations one after another deliver the bits they ask for, as long as the source has them. -/
theorem execAll_readers (is : List Instr) (ns : List Nat) (h : HasRead src m s)
    (hi : is.map readerBits = ns.map some) (hn : m + ns.sum ≤ 8 * src.length) :
    ∃ t, execAll is s = .next t ∧ HasRead src (m + ns.sum) t := by
  induction is generalizing ns m s with
  | nil =>
    obtain rfl : ns = [] := List.map_eq_nil_iff.mp hi.symm
    exact ⟨s, rfl, h⟩
  | cons i is ih =>
    cases ns with
    | nil => cases hi
    | cons n ns =>
      obtain ⟨hi, his⟩ := List.cons.inj hi
      rw [List.sum_cons, ← Nat.add_assoc] at hn ⊢
      rcases h.exec_reader hi with ⟨hfew, -⟩ | ⟨-, t, e, ht, -⟩
      · omega
      · rw [execAll, e]
        exact ih ns ht his hn

end HasRead

/-- The `k`-th operation of a sequence, when the sequence asks for the given numbers of bits. -/
theorem readers_getElem {is : List Instr} {ns : List Nat} (h : is.map readerBits = ns.map some) {k n : Nat}
    (hk : ns[k]? = some n) : ∃ i, readerBits i = some n ∧ is.take (k + 1) = is.take k ++ [i] := by
  have hget := congrArg (·[k]?) h
  simp only [List.getElem?_map, hk, Option.map_some, Option.map_eq_some_iff] at hget
  obtain ⟨i, hi, hn⟩ := hget
  exact ⟨i, hn, by rw [List.take_add_one, hi]; rfl⟩

theorem sum_take_add_le {ns : List Nat} {k n : Nat} (hk : ns[k]? = some n) : (ns.take k).sum + n ≤ ns.sum := by
  have hsum := List.sum_take_add_sum_drop ns (k + 1)
  rw [List.take_add_one, hk, List.sum_append, Option.toList_some, List.sum_singleton] at hsum
  omega

/-- `RES` after a field of `n` bits at bit `m` of the source, bit by bit (R91, R92, R93). -/
theorem field_getLsbD (src : Memory) {m n j : Nat} (hj : j < 32) :
    (BitVec.ofNat 32 (lsbValue (((streamBits src).drop m).take n))).getLsbD j =
      (decide (j < n) && (src.getD ((m + j) / 8) 0#8).getLsbD (7 - (m + j) % 8)) := by
  rw [BitVec.getLsbD_ofNat, lsbValue_testBit, ← streamBits_getD, List.getD_eq_getElem?_getD,
    List.getD_eq_getElem?_getD, List.getElem?_take, List.getElem?_drop]
  by_cases hn : j < n <;> simp [hj, hn]

/-- Settles O20: the session after all operations, and after each of them. -/
theorem readerLaws : Obligations.ReaderLaws := by
  intro src is ns hbits hsum
  refine ⟨?last, fun k n hk => ?each⟩
  case last =>
    obtain ⟨t, e, ht⟩ := (hasRead_start src).execAll_readers is ns hbits (by omega)
    rw [Nat.zero_add] at ht
    obtain ⟨hsp, hrn⟩ := ht.stands
    refine ⟨t, e, ht.fault, ht.ahead, ht.pos, hsp, hrn, fun i n hi hmore => ?_⟩
    rcases ht.exec_reader hi with ⟨-, hfault⟩ | ⟨henough, -⟩
    · exact hfault
    · omega
  case each =>
    obtain ⟨i, hi, htake⟩ := readers_getElem hbits hk
    have hle := sum_take_add_le hk
    obtain ⟨t, e, ht⟩ := (hasRead_start src).execAll_readers (is.take k) (ns.take k)
      (by rw [List.map_take, List.map_take, hbits]) (by omega)
    rw [Nat.zero_add] at ht
    rcases ht.exec_reader hi with ⟨hmore, -⟩ | ⟨-, u, eu, -, hres⟩
    · omega
    · refine ⟨u, ?_, fun j hj => ?_⟩
      · rw [htake, execAll_append, e]
        simp only [execAll, eu]
      · rw [hres, field_getLsbD src hj]

end Sys2Proof.Machine
end

section
/-! PROOFS. How every operation ends (R28, R151, R152): in a state with a property, or in a fault, or the model stops. -/

namespace Sys2Proof.Machine

open Safety

variable {α β : Type} {stop : Prop} {P Q : State → Prop}

/-- How a part of an operation ends: done in a state with `P`, or with a fault of the block, and `stop` says whether the
model may stop. -/
def Yields (stop : Prop) (P : State → Prop) : Result α → Prop
  | .done _ t => P t
  | .raised _ c _ => c ≠ .ok
  | .stopped _ => stop

theorem formatError_yields (c : FormatCause) : Yields stop P (formatError c : Result α) := nofun

theorem Yields.require {b : Bool} {c : FaultCode} {i : Byte} {k : Result α} (hc : c ≠ .ok)
    (hk : b = true → Yields stop P k) : Yields stop P (require b c i k) := by
  cases b with
  | true => exact hk rfl
  | false => exact hc

theorem Yields.mono {r : Result α} (h : Yields stop P r) (hp : ∀ t, P t → Q t) : Yields stop Q r := by
  cases r with
  | done a t => exact hp t h
  | raised p c i => exact h
  | stopped f => exact h

theorem Yields.bind {r : Result α} {k : α → State → Result β} (h : Yields stop P r)
    (hk : ∀ a t, P t → Yields stop Q (k a t)) : Yields stop Q (r.bind k) := by
  cases r with
  | done a t => exact hk a t h
  | raised p c i => exact h
  | stopped f => exact h

/-- What a reading body can do from any state is a special case. -/
theorem Ends.yields {C : FormatCause → Prop} {r : Result α} (h : Ends C P r) : Yields True P r := by
  cases r with
  | done a t => exact h
  | raised p c i =>
    obtain ⟨-, rfl, -⟩ := h
    nofun
  | stopped f => trivial

/-- A command whose operation cannot stop the model answers a next state, which has `P` unless it has a fault. -/
theorem exec_of_yields {i : Instr} {s : State} (hf : s.fault = .ok) (h : Yields False P (opOf i s)) :
    ∃ t, exec i s = .next t ∧ (t.fault = .ok → P t) := by
  cases ho : opOf i s with
  | done a t => rw [ho] at h; exact ⟨t, exec_done hf ho, fun _ => h⟩
  | raised p c info =>
    rw [ho] at h
    exact ⟨_, exec_raised hf ho, fun hok => absurd ((takeFault_fault p c info s).symm.trans hok) h⟩
  | stopped f => rw [ho] at h; exact h.elim

/-- A command that leaves the session without a fault left it in a state in which its operation can be done. -/
theorem of_exec_ok {i : Instr} {s t : State} (hi : i ≠ .sreset) (h : Yields True P (opOf i s))
    (e : exec i s = .next t) (ht : t.fault = .ok) : P t := by
  rcases exec_cases e with ⟨hs, -⟩ | ⟨-, ⟨hf, rfl⟩ | ⟨-, ho | ⟨p, c, info, ho, rfl⟩⟩⟩
  · exact absurd hs hi
  · exact absurd ht hf
  · rw [ho] at h; exact h
  · rw [ho] at h; exact absurd ((takeFault_fault p c info s).symm.trans ht) h

end Sys2Proof.Machine
end

section
/-! PROOFS. Which operation writes which state element (R10), and what a session keeps (R15, R20, R21). -/

namespace Sys2Proof.Machine

open Safety

variable {stop : Prop} {P : State → Prop}

/-! ### COMPRESS and DECOMPRESS as wholes -/

/-- COMPRESS on an empty source does nothing; else its state stands behind the tally pass, BUILD, and the writer (R130). -/
theorem compress_yields {s : State} (hidle : fresh s = true → P s)
    (hrun : ∀ t b u, fresh s = true → SameButFreq s t → BuiltFrom t b → SameButWriter b u → (WriterOk b → WriterOk u) →
      P u) : Yields stop P (compress s) := by
  cases hf : fresh s with
  | false => rw [compress, hf]; nofun
  | true =>
    by_cases hl : s.slen = 0
    · rw [compress, hf, require_true, if_pos hl]
      exact hidle hf
    · rcases compress_cases hf hl with ⟨x, -, e⟩ | ⟨t, b, hcount, -, -, B, -, e⟩
      · rw [e]; nofun
      · rw [e, ← writeBits_append]
        exact hrun t b _ hf hcount B ((writeBits_frame _ b).trans (flushWriter_frame _)) fun hb =>
          (flushWriter_spec (writeBits_spec _ hb).1).1

/-- DECOMPRESS on an empty source does nothing; else its state stands behind RHDR, BUILD, and the decode pass (R131). -/
theorem decompress_yields {s : State} (hidle : fresh s = true → P s)
    (hrun : ∀ t b u, fresh s = true → SameButTable s t → ReaderOk t → BuiltFrom t b → SameButDecoder b u → ReaderOk u →
      P u) : Yields stop P (decompress s) := by
  cases hf : fresh s with
  | false => rw [decompress, hf]; nofun
  | true =>
    by_cases hl : s.slen = 0
    · rw [decompress, hf, require_true, if_pos hl]
      exact hidle hf
    · rcases decompress_cases hf hl with ⟨c, -, e⟩ | ⟨t, b, u, -, htable, ht, -, -, B, -, hu, hdec, -, e⟩
      · rw [e]; exact formatError_yields c
      · rw [e]
        exact hrun t b u hf htable ht B hdec hu

/-! ### What an operation writes -/

/-- What the writer's operations write: `WBUF`, `WN`, and the sink, which only grows (R10, R20). -/
def WriterWrites (s t : State) : Prop :=
  ∃ wbuf wn snk, s.snk <+: snk ∧ t = { s with wbuf := wbuf, wn := wn, snk := snk }

/-- What the reader's operations write: `RES`, `RBUF`, `RN`, `SP` (R10). -/
def ReaderWrites (s t : State) : Prop :=
  ∃ res rbuf rn sp, t = { s with res := res, rbuf := rbuf, rn := rn, sp := sp }

/-- The state elements an operation that is done may have written (R10), that the sink only grew (R20), and the phase the
operation asks for where it writes table or tree (R15, R21). -/
def WritesOnly : Instr → State → State → Prop
  | .wbit _ | .wbyte _ | .wint _ _ | .flush | .whdr | .enc _ => WriterWrites
  | .rbit | .rbyte | .rint _ | .dec => ReaderWrites
  | .tally _ => fun s t => s.phase = .empty ∧ ∃ freq, t = { s with freq := freq }
  | .rhdr => fun s t => s.phase = .empty ∧
    ∃ rbuf rn sp freq, t = { s with rbuf := rbuf, rn := rn, sp := sp, freq := freq }
  | .build => fun s t => s.phase = .empty ∧
    ∃ node root rootv phase, t = { s with node := node, root := root, rootv := rootv, phase := phase }
  | .compress => fun s t => s.phase = .empty ∧ ∃ freq node root rootv phase wbuf wn snk, s.snk <+: snk ∧ t =
    { s with
      freq := freq, node := node, root := root, rootv := rootv, phase := phase, wbuf := wbuf, wn := wn, snk := snk }
  | .decompress => fun s t => s.phase = .empty ∧ ∃ freq node root rootv phase res rbuf rn sp snk, s.snk <+: snk ∧ t =
    { s with
      freq := freq, node := node, root := root, rootv := rootv, phase := phase, res := res, rbuf := rbuf, rn := rn,
      sp := sp, snk := snk }
  | .sreset => fun _ _ => True

theorem writeBits_writes (bs : List Bool) (s : State) : WriterWrites s (writeBits bs s) :=
  ⟨_, _, _, writeBits_snk_prefix bs s, writeBits_frame bs s⟩

theorem SameButReader.writes {s t : State} (h : SameButReader s t) (v : Word32) :
    ReaderWrites s { t with res := v } :=
  ⟨v, t.rbuf, t.rn, t.sp, by rw [h]⟩

theorem reader_writes {i : Instr} {n : Nat} (h : readerBits i = some n) (s : State) :
    Yields True (ReaderWrites s) (opOf i s) := by
  rw [opOf_reader h]
  exact (readField_ends n s).yields.bind fun _ _ ht => ht.writes _

theorem compress_writesOnly (s : State) : Yields stop (WritesOnly .compress s) (compress s) := by
  refine compress_yields (fun hf => ?idle) fun t b u hf hcount B hwrite _ => ?run
  all_goals obtain ⟨-, -, hphase, -, -, -, -, -, hsnk, -⟩ := fresh_iff.mp hf
  case idle => exact ⟨hphase, _, _, _, _, _, _, _, _, List.prefix_rfl, rfl⟩
  case run =>
    refine ⟨hphase, t.freq, b.node, b.root, b.rootv, b.phase, u.wbuf, u.wn, u.snk, ?_, ?_⟩
    · rw [hsnk]; exact List.nil_prefix
    · rw [hwrite, B.frame, hcount]

theorem decompress_writesOnly (s : State) : Yields stop (WritesOnly .decompress s) (decompress s) := by
  refine decompress_yields (fun hf => ?idle) fun t b u hf htable _ B hdec _ => ?run
  all_goals obtain ⟨-, -, hphase, -, -, -, -, -, hsnk, -⟩ := fresh_iff.mp hf
  case idle => exact ⟨hphase, _, _, _, _, _, _, _, _, _, _, List.prefix_rfl, rfl⟩
  case run =>
    refine ⟨hphase, t.freq, b.node, b.root, b.rootv, b.phase, u.res, u.rbuf, u.rn, u.sp, u.snk, ?_, ?_⟩
    · rw [hsnk]; exact List.nil_prefix
    · rw [hdec, B.frame, htable]

/-- From any state an operation that is done has written its own state elements and nothing else (R10). -/
theorem opOf_writesOnly (i : Instr) (s : State) : Yields True (WritesOnly i s) (opOf i s) := by
  cases i with
  | wbit b => exact writeBits_writes [b] s
  | wbyte v => exact writeBits_writes _ s
  | wint v w => exact .require nofun fun _ => writeBits_writes _ s
  | flush => exact ⟨_, _, _, flushWriter_snk_prefix s, flushWriter_frame s⟩
  | rbit => exact reader_writes (i := .rbit) rfl s
  | rbyte => exact reader_writes (i := .rbyte) rfl s
  | rint w =>
    exact .require nofun fun _ => (readField_ends w.toNat s).yields.bind fun _ _ ht => ht.writes _
  | tally x => exact .require nofun fun hp => .require nofun fun _ => ⟨beq_iff_eq.mp hp, _, rfl⟩
  | whdr =>
    refine .require nofun fun _ => ?_
    rw [writeHeader_eq]
    exact writeBits_writes _ s
  | rhdr =>
    exact .require nofun fun hp => .require nofun fun _ =>
      (readHeader_ends s).yields.mono fun t ht => ⟨beq_iff_eq.mp hp, _, _, _, _, ht⟩
  | build => exact .require nofun fun hp => ⟨beq_iff_eq.mp hp, _, _, _, _, buildBody_eq s⟩
  | enc x =>
    refine .require nofun fun _ => .require nofun fun _ => .require nofun fun _ => ?_
    cases codeOf s.node s.root x with
    | some bs => exact writeBits_writes bs s
    | none => trivial
  | dec =>
    exact .require nofun fun _ => .require nofun fun _ =>
      (decodeSymbol_ends s).yields.bind fun _ _ ht => ht.writes _
  | compress => exact compress_writesOnly s
  | decompress => exact decompress_writesOnly s
  | sreset => trivial

/-- No operation that is done has written the host's source or taken a host action (R10). -/
theorem WritesOnly.host {i : Instr} {s t : State} (hi : i ≠ .sreset) (h : WritesOnly i s t) :
    t.src = s.src ∧ t.pending = s.pending := by
  cases i with
  | wbit _ | wbyte _ | wint _ _ | flush | whdr | enc _ => obtain ⟨_, _, _, -, rfl⟩ := h; exact ⟨rfl, rfl⟩
  | rbit | rbyte | rint _ | dec => obtain ⟨_, _, _, _, rfl⟩ := h; exact ⟨rfl, rfl⟩
  | tally _ => obtain ⟨-, _, rfl⟩ := h; exact ⟨rfl, rfl⟩
  | rhdr | build => obtain ⟨-, _, _, _, _, rfl⟩ := h; exact ⟨rfl, rfl⟩
  | compress => obtain ⟨-, _, _, _, _, _, _, _, _, -, rfl⟩ := h; exact ⟨rfl, rfl⟩
  | decompress => obtain ⟨-, _, _, _, _, _, _, _, _, _, _, -, rfl⟩ := h; exact ⟨rfl, rfl⟩
  | sreset => exact absurd rfl hi

theorem exec_host {i : Instr} {s t : State} (e : exec i s = .next t) : t.src = s.src ∧ t.pending = s.pending := by
  rcases exec_cases e with ⟨-, rfl⟩ | ⟨hi, ⟨-, rfl⟩ | ⟨-, ho | ⟨p, c, info, -, rfl⟩⟩⟩
  · exact ⟨rfl, rfl⟩
  · exact ⟨rfl, rfl⟩
  · have hw := opOf_writesOnly i s
    rw [ho] at hw
    exact hw.host hi
  · exact ⟨takeFault_src p c info s, takeFault_pending p c info s⟩

/-- Settles O58: an element that the operation's row of R10 does not list is as it was. -/
theorem onlyListedWriters : Obligations.OnlyListedWriters := by
  intro s t i e
  refine ⟨exec_host e, fun ht hi => ?_⟩
  have hw : WritesOnly i s t := of_exec_ok hi (opOf_writesOnly i s) e ht
  clear e ht
  -- each clause reads a field that the update leaves alone, or its premises leave this instruction out
  cases i with
  | wbit _ | wbyte _ | wint _ _ | flush | whdr | enc _ => obtain ⟨_, _, _, -, rfl⟩ := hw; simp
  | rbit | rbyte | rint _ | dec => obtain ⟨_, _, _, _, rfl⟩ := hw; simp
  | tally _ => obtain ⟨-, _, rfl⟩ := hw; simp
  | rhdr | build => obtain ⟨-, _, _, _, _, rfl⟩ := hw; simp
  | compress => obtain ⟨-, _, _, _, _, _, _, _, _, -, rfl⟩ := hw; simp
  | decompress => obtain ⟨-, _, _, _, _, _, _, _, _, _, _, -, rfl⟩ := hw; simp
  | sreset => exact absurd rfl hi

/-- Settles O59: what may write table or tree asks for an EMPTY session, and what an operation puts in the sink stands behind
the bytes it had. -/
theorem sessionOnlyMovesOn : Obligations.SessionOnlyMovesOn := by
  intro s t i e ht hi
  have hw : WritesOnly i s t := of_exec_ok hi (opOf_writesOnly i s) e ht
  clear e ht
  cases i with
  | wbit _ | wbyte _ | wint _ _ | flush | whdr | enc _ =>
    obtain ⟨_, _, _, hsnk, rfl⟩ := hw
    exact ⟨fun hb => ⟨hb, rfl, rfl, rfl, rfl⟩, hsnk⟩
  | rbit | rbyte | rint _ | dec =>
    obtain ⟨_, _, _, _, rfl⟩ := hw
    exact ⟨fun hb => ⟨hb, rfl, rfl, rfl, rfl⟩, List.prefix_rfl⟩
  | tally _ => obtain ⟨hp, _, rfl⟩ := hw; exact ⟨fun hb => by simp [hp] at hb, List.prefix_rfl⟩
  | rhdr | build => obtain ⟨hp, _, _, _, _, rfl⟩ := hw; exact ⟨fun hb => by simp [hp] at hb, List.prefix_rfl⟩
  | compress =>
    obtain ⟨hp, _, _, _, _, _, _, _, _, hsnk, rfl⟩ := hw
    exact ⟨fun hb => by simp [hp] at hb, hsnk⟩
  | decompress =>
    obtain ⟨hp, _, _, _, _, _, _, _, _, _, _, hsnk, rfl⟩ := hw
    exact ⟨fun hb => by simp [hp] at hb, hsnk⟩
  | sreset => exact absurd rfl hi

end Sys2Proof.Machine
end

section
/-! PROOFS. The session invariant (R25, R28): every operation keeps it and no operation stops the model. -/

namespace Sys2Proof.Machine

open Safety

/-! ### What keeps the invariant -/

theorem inv_of_writer {s t : State} (h : Inv s) (e : SameButWriter s t) (hw : WriterOk t) : Inv t := by
  intro ht
  rw [e] at ht
  obtain ⟨hinfo, -, hread, htree⟩ := h ht
  refine ⟨?_, hw, ?_, ?_⟩ <;> rw [e]
  · exact hinfo
  · exact ⟨hread.inside, hread.held⟩
  · exact ⟨htree.before_build, htree.after_build⟩

theorem inv_of_decoder {s t : State} (h : Inv s) (e : SameButDecoder s t) (hr : ReaderOk t) : Inv t := by
  intro ht
  rw [e] at ht
  obtain ⟨hinfo, hwrite, -, htree⟩ := h ht
  refine ⟨?_, ?_, hr, ?_⟩ <;> rw [e]
  · exact hinfo
  · exact ⟨hwrite.room, hwrite.clean⟩
  · exact ⟨htree.before_build, htree.after_build⟩

/-- Before BUILD the table is free: no clause speaks of it (R25). -/
theorem inv_of_table {s t : State} (h : Inv s) (hp : s.phase = .empty) (e : SameButTable s t) (hr : ReaderOk t) :
    Inv t := by
  intro ht
  rw [e] at ht
  obtain ⟨hinfo, hwrite, -, htree⟩ := h ht
  refine ⟨?_, ?_, hr, ?_⟩ <;> rw [e]
  · exact hinfo
  · exact ⟨hwrite.room, hwrite.clean⟩
  · exact ⟨htree.before_build, fun hb => by simp [hp] at hb⟩

theorem inv_of_built {s t : State} (h : Inv s) (B : BuiltFrom s t) : Inv t := by
  intro ht
  rw [B.frame] at ht
  obtain ⟨hinfo, hwrite, hread, -⟩ := h ht
  refine ⟨?_, ?_, ?_, fun he => ?_, fun _ => B.shape⟩
  · rw [B.frame]; exact hinfo
  · rw [B.frame]; exact ⟨hwrite.room, hwrite.clean⟩
  · rw [B.frame]; exact ⟨hread.inside, hread.held⟩
  · rw [B.phase] at he; cases he

theorem SameButFreq.table {s t : State} (h : SameButFreq s t) : SameButTable s t := by
  rw [SameButTable, h]

/-! ### The operations -/

theorem setRes_inv {s t : State} (h : Inv s) (e : SameButReader s t) (ht : ReaderOk t) (v : Word32) :
    Inv { t with res := v } :=
  inv_of_decoder h (show SameButDecoder s { t with res := v } by rw [SameButDecoder, e]) ⟨ht.inside, ht.held⟩

theorem compress_inv {s : State} (h : Inv s) : Yields False Inv (compress s) := by
  refine compress_yields (fun _ => h) fun t b u hfresh hcount B hframe hwriter => ?_
  obtain ⟨hok, -, hp, -⟩ := fresh_iff.mp hfresh
  obtain ⟨-, -, hread, -⟩ := h hok
  have ht : ReaderOk t := by rw [hcount]; exact ⟨hread.inside, hread.held⟩
  have hb : Inv b := inv_of_built (inv_of_table h hp hcount.table ht) B
  obtain ⟨-, hwrite, -, -⟩ := hb (by rw [B.frame, hcount]; exact hok)
  exact inv_of_writer hb hframe (hwriter hwrite)

theorem decompress_inv {s : State} (h : Inv s) : Yields False Inv (decompress s) := by
  refine decompress_yields (fun _ => h) fun t b u hfresh htable ht B hdec hu => ?_
  obtain ⟨-, -, hp, -⟩ := fresh_iff.mp hfresh
  exact inv_of_decoder (inv_of_built (inv_of_table h hp htable ht) B) hdec hu

section
variable {s : State} (hf : s.fault = .ok) (h : Inv s)
include hf h

theorem writeBits_inv (bs : List Bool) : Inv (writeBits bs s) := by
  obtain ⟨-, hwrite, -, -⟩ := h hf
  exact inv_of_writer h (writeBits_frame bs s) (writeBits_spec bs hwrite).1

theorem flushWriter_inv : Inv (flushWriter s) := by
  obtain ⟨-, hwrite, -, -⟩ := h hf
  exact inv_of_writer h (flushWriter_frame s) (flushWriter_spec hwrite).1

theorem readInto_inv (w : Nat) (f : Nat → Word32) :
    Yields False Inv ((readField w s).bind fun v t => setRes (f v) t) := by
  obtain ⟨-, -, hread, -⟩ := h hf
  rcases readField_spec w hread with ⟨-, e⟩ | ⟨t, -, e, ht, hframe, -, -⟩
  · rw [e]; exact formatError_yields _
  · rw [e]; exact setRes_inv h hframe ht _

theorem tally_inv (x : Byte) : Yields False Inv (tally x s) := by
  obtain ⟨-, -, hread, -⟩ := h hf
  exact .require nofun fun hp => .require nofun fun _ =>
    inv_of_table h (beq_iff_eq.mp hp) (setFreq_table x _ s) ⟨hread.inside, hread.held⟩

theorem rhdr_inv : Yields False Inv (rhdr s) := by
  obtain ⟨-, -, hread, -⟩ := h hf
  refine .require nofun fun hp => .require nofun fun _ => ?_
  rcases readHeader_cases hread with ⟨c, -, e⟩ | ⟨t, e, ht, hframe⟩
  · rw [e]; exact formatError_yields c
  · rw [e]; exact inv_of_table h (beq_iff_eq.mp hp) hframe ht

theorem build_inv : Yields False Inv (build s) := by
  obtain ⟨-, -, -, htree⟩ := h hf
  refine .require nofun fun hp => ?_
  obtain ⟨-, hnone⟩ := htree.before_build (beq_iff_eq.mp hp)
  exact inv_of_built h (buildBody_builtFrom fun i => (hnone i).1)

/-- ENC's walk ends in a tree of R25's shape (R123): a symbol with a leaf is present, and so it has a code. -/
theorem enc_inv (x : Byte) : Yields False Inv (enc x s) := by
  obtain ⟨-, -, -, htree⟩ := h hf
  refine .require nofun fun hp => .require nofun fun _ => .require nofun fun hleaf => ?_
  have T := htree.after_build (beq_iff_eq.mp hp)
  obtain ⟨bs, hcode, -⟩ := codeOf_spec T ((T.leaf_valid x).mp hleaf)
  rw [hcode]
  exact writeBits_inv hf h bs

theorem dec_inv : Yields False Inv (dec s) := by
  obtain ⟨-, -, hread, -⟩ := h hf
  refine .require nofun fun _ => .require nofun fun _ => ?_
  rcases decodeSymbol_cases hread with ⟨c, -, e⟩ | ⟨x, t, e, ht, hframe, -⟩
  · rw [e]; exact formatError_yields c
  · rw [e]; exact setRes_inv h hframe ht _

/-- Every operation keeps the session invariant and none stops the model. -/
theorem opOf_inv (i : Instr) : Yields False Inv (opOf i s) := by
  cases i with
  | wbit b => exact writeBits_inv hf h [b]
  | wbyte v => exact writeBits_inv hf h _
  | wint v w => exact .require nofun fun _ => writeBits_inv hf h _
  | flush => exact flushWriter_inv hf h
  | rbit => rw [opOf_reader (i := .rbit) rfl]; exact readInto_inv hf h 1 _
  | rbyte => exact readInto_inv hf h 8 _
  | rint w => exact .require nofun fun _ => readInto_inv hf h w.toNat _
  | tally x => exact tally_inv hf h x
  | whdr =>
    refine .require nofun fun _ => ?_
    rw [writeHeader_eq]
    exact writeBits_inv hf h _
  | rhdr => exact rhdr_inv hf h
  | build => exact build_inv hf h
  | enc x => exact enc_inv hf h x
  | dec => exact dec_inv hf h
  | compress => exact compress_inv h
  | decompress => exact decompress_inv h
  | sreset => exact inv_of_fresh (fresh_newSession s)

end

end Sys2Proof.Machine
end

section
/-! PROOFS. Every step of the machine (R9, R28, R151): the first fault is kept, the invariant is kept, and the model never
stops. -/

namespace Sys2Proof.Machine

open Safety

/-- A session with a fault promises nothing (R28). -/
theorem inv_of_faulted {s : State} (h : s.fault ≠ .ok) : Inv s := fun hf => absurd hf h

/-- The pending actions are no part of the session (R10). -/
theorem inv_pending {s : State} (h : Inv s) (rest : List HostAction) : Inv { s with pending := rest } := by
  intro hf
  obtain ⟨hinfo, hwrite, hread, htree⟩ := h hf
  exact ⟨hinfo, ⟨hwrite.room, hwrite.clean⟩, ⟨hread.inside, hread.held⟩, ⟨htree.before_build, htree.after_build⟩⟩

theorem exec_inv (i : Instr) {s : State} (h : Inv s) : ∃ t, exec i s = .next t ∧ Inv t := by
  by_cases hf : s.fault = .ok
  · obtain ⟨t, e, ht⟩ := exec_of_yields hf (opOf_inv hf h i)
    exact ⟨t, e, fun hok => ht hok hok⟩
  · by_cases hi : i = .sreset
    · subst hi
      exact ⟨_, exec_sreset s, inv_of_fresh (fresh_newSession s)⟩
    · exact ⟨s, exec_faulted hi hf, h⟩

theorem illegalCommand_inv {s : State} (h : Inv s) : ∃ t, illegalCommand s = .next t ∧ Inv t := by
  by_cases hf : s.fault = .ok
  · exact ⟨_, illegalCommand_ok hf, inv_of_faulted nofun⟩
  · exact ⟨s, illegalCommand_faulted hf, h⟩

/-- A source presented to a Fresh or a faulted session: Fresh does not look at the source (R172, R174, R176). -/
theorem present_inv {s : State} (h : fresh s = true ∨ s.fault ≠ .ok) (bytes : Memory) : Inv { s with src := bytes } :=
  h.elim (fun hfresh => inv_of_fresh (s := { s with src := bytes }) hfresh) fun hf =>
    inv_of_faulted (s := { s with src := bytes }) hf

/-- A step answers a next state, and the invariant is kept when the host keeps its source. -/
theorem step_inv {s : State} (h : Inv s) : ∃ t, step s = .next t ∧ (hostKeepsSource s = true → Inv t) := by
  rcases step_cases (s := s) with ⟨-, e⟩ | ⟨a, rest, hp, e⟩
  · exact ⟨s, e, fun _ => h⟩
  · rw [e]
    have h' := inv_pending h rest
    rcases takeAction_cases a { s with pending := rest } with
      ⟨bytes, rfl, e⟩ | ⟨rfl, e⟩ | ⟨c, i, rfl, -, e⟩ | ⟨c, op, rfl, -, e⟩
    · refine ⟨_, e, fun hkeep => ?_⟩
      have hidle : fresh s = true ∨ s.fault ≠ .ok := by simpa [hostKeepsSource, hp] using hkeep
      exact present_inv (s := { s with pending := rest }) hidle bytes
    · obtain ⟨t, ht, hinv⟩ := exec_inv .sreset h'
      exact ⟨t, e.trans ht, fun _ => hinv⟩
    · obtain ⟨t, ht, hinv⟩ := exec_inv i h'
      exact ⟨t, e.trans ht, fun _ => hinv⟩
    · obtain ⟨t, ht, hinv⟩ := illegalCommand_inv h'
      exact ⟨t, e.trans ht, fun _ => hinv⟩

/-- Settles O54 from what every step does. -/
theorem invKeptByStep : Obligations.InvKeptByStep := by
  intro s t h hkeep e
  obtain ⟨u, eu, hu⟩ := step_inv h
  obtain rfl : u = t := Host.Outcome.next.inj (eu.symm.trans e)
  exact hu hkeep

/-- Settles O55 from what every step does. -/
theorem everyStepCompletes : Obligations.EveryStepCompletes := by
  intro s h
  obtain ⟨t, e, -⟩ := step_inv h
  exact ⟨t, e⟩

/-- A step of a session with a fault (R151, R158): the host resets, or `FAULT` and `FINFO` stay. -/
theorem step_faulted {s : State} (hf : s.fault ≠ .ok) :
    (resetsNext s = true ∧ ∃ u, step s = .next (newSession u)) ∨
      (resetsNext s = false ∧ ∃ t, step s = .next t ∧ t.fault = s.fault ∧ t.finfo = s.finfo) := by
  rcases step_cases (s := s) with ⟨hp, e⟩ | ⟨a, rest, hp, e⟩
  · exact .inr ⟨by simp [resetsNext, hp], s, e, rfl, rfl⟩
  · rw [e]
    rcases takeAction_cases a { s with pending := rest } with
      ⟨bytes, rfl, e⟩ | ⟨rfl, e⟩ | ⟨c, i, rfl, hd, e⟩ | ⟨c, op, rfl, hd, e⟩
    · exact .inr ⟨by simp [resetsNext, hp], _, e, rfl, rfl⟩
    · exact .inl ⟨by simp [resetsNext, hp], _, e⟩
    · by_cases hi : i = .sreset
      · subst hi
        exact .inl ⟨by simp [resetsNext, hp, hd], _, e⟩
      · exact .inr ⟨by simp [resetsNext, hp, hd, hi], _, e.trans (exec_faulted hi hf), rfl, rfl⟩
    · exact .inr ⟨by simp [resetsNext, hp, hd], _, e.trans (illegalCommand_faulted hf), rfl, rfl⟩

/-- Settles O10 from the two ends of a step in a session with a fault. -/
theorem firstFaultIsKept : Obligations.FirstFaultIsKept := by
  intro s t hf e
  rcases step_faulted hf with ⟨hreset, u, eu⟩ | ⟨hreset, u, eu, hkept⟩
  · obtain rfl := Host.Outcome.next.inj (eu.symm.trans e)
    exact ⟨fun h => absurd (h.symm.trans hreset) nofun, fun _ => ⟨rfl, rfl⟩⟩
  · obtain rfl := Host.Outcome.next.inj (eu.symm.trans e)
    exact ⟨fun _ => hkept, fun h => absurd (h.symm.trans hreset) nofun⟩

end Sys2Proof.Machine
end

section
/-! PROOFS. The command word (R60 to R64): which words are operations, that the encoder loses nothing, and which bits
the decoder reads. -/

namespace Sys2Proof.Machine

/-! ### The sixteen codes (R61) -/

/-- The `op` codes of the opcode table (R61). -/
def opcodes : List Nat :=
  [0x01, 0x02, 0x03, 0x04, 0x11, 0x12, 0x13, 0x20, 0x21, 0x22, 0x30, 0x31, 0x32, 0x40, 0x41, 0x50]

theorem opcode_mem_opcodes (i : Instr) : (opcode i).toNat ∈ opcodes := by
  cases i <;> simp [opcode, opcodes]

/-- The decoder's two answers (R61, R63): an operation with the word's own code, or `reserved` under a code that is none
of the sixteen. -/
theorem decode_cases (c : CmdWord) :
    (∃ i, decode c = .instr i ∧ opcode i = opField c) ∨
      (decode c = .reserved (opField c) ∧ (opField c).toNat ∉ opcodes) := by
  unfold decode
  split
  case h_17 => exact .inr ⟨rfl, by simp_all [opcodes]⟩
  all_goals
    rename_i hop
    exact .inl ⟨_, rfl, BitVec.eq_of_toNat_eq hop.symm⟩

/-- Settles O2 from the decoder's two answers. -/
theorem sixteenOpcodes : Obligations.SixteenOpcodes := by
  intro c
  rcases decode_cases c with ⟨i, hd, hop⟩ | ⟨hd, hop⟩
  · have hex : ∃ i, decode c = .instr i := ⟨i, hd⟩
    refine ⟨iff_of_true hex (hop ▸ opcode_mem_opcodes i), fun j hj => ?_, fun hno => absurd hex hno⟩
    obtain rfl := Decoded.instr.inj (hd.symm.trans hj)
    exact hop
  · have hno : ¬ ∃ i, decode c = .instr i := fun ⟨i, hi⟩ => Decoded.noConfusion (hi.symm.trans hd)
    exact ⟨iff_of_false hno hop, fun i hi => absurd ⟨i, hi⟩ hno, fun _ => hd⟩

/-! ### Decoding an encoded instruction (R60, R71) -/

theorem dBit_eq (c : CmdWord) : dBit c = (dField c).getLsbD 0 := by
  simp [dBit, dField]

theorem dByte_eq (c : CmdWord) : dByte c = (dField c).setWidth 8 := by
  apply BitVec.eq_of_getLsbD_eq
  intro k hk
  have hk' : k < 32 := by omega
  simp [dByte, dField, hk, hk']

/-- A byte operand stands in `d[7:0]` of the encoded word. -/
theorem dByte_encode {i : Instr} {v : Byte} (h : dOperand i = v.zeroExtend 32) : dByte (encode i) = v := by
  obtain ⟨-, -, hd⟩ := Laws.Fields.statement i
  rw [dByte_eq, hd, h]
  simp

theorem dBit_encode (b : Bool) : dBit (encode (.wbit b)) = b := by
  obtain ⟨-, -, hd⟩ := Laws.Fields.statement (.wbit b)
  rw [dBit_eq, hd]
  cases b <;> rfl

/-- Settles O1, one case per form of the operands: the code selects the operation, and each operand is read from the
field the encoder put it in. -/
theorem decodeOfEncode : Obligations.DecodeOfEncode := by
  intro i
  obtain ⟨hop, hw, hd⟩ := Laws.Fields.statement i
  unfold decode
  rw [hop]
  cases i with
  | wbit b => exact congrArg (fun b => Decoded.instr (.wbit b)) (dBit_encode b)
  | wbyte v => exact congrArg (fun v => Decoded.instr (.wbyte v)) (dByte_encode rfl)
  | tally x => exact congrArg (fun x => Decoded.instr (.tally x)) (dByte_encode rfl)
  | enc x => exact congrArg (fun x => Decoded.instr (.enc x)) (dByte_encode rfl)
  | wint v w => exact congrArg₂ (fun v w => Decoded.instr (.wint v w)) hd hw
  | rint w => exact congrArg (fun w => Decoded.instr (.rint w)) hw
  | flush | rbit | rbyte | whdr | rhdr | build | dec | compress | decompress | sreset => rfl

/-! ### The bits the decoder reads (R64) -/

theorem getLsbD_of_and_eq {c c' m : CmdWord} {k : Nat} (h : c &&& m = c' &&& m) (hk : m.getLsbD k = true) :
    c.getLsbD k = c'.getLsbD k := by
  have hbit := congrArg (·.getLsbD k) h
  simpa [hk] using hbit

/-- Words that agree under a mask agree in every field the mask covers. -/
theorem extractLsb'_of_and_eq {c c' m : CmdWord} (start : Nat) {len : Nat} (h : c &&& m = c' &&& m)
    (hm : ∀ k < len, m.getLsbD (start + k) = true) : c.extractLsb' start len = c'.extractLsb' start len := by
  apply BitVec.eq_of_getLsbD_eq
  intro k hk
  simp [hk, getLsbD_of_and_eq h (hm k hk)]

/-- The decoder reads `op` and the operand bits R60 lists for it, and nothing else. -/
theorem decode_of_usedBits {c c' : CmdWord} (hop : opField c = opField c')
    (h : c &&& usedBits (opField c) = c' &&& usedBits (opField c')) : decode c = decode c' := by
  rw [← hop] at h
  unfold decode
  rw [← hop]
  unfold usedBits at h
  split
  case h_1 e =>
    rw [e] at h
    rw [show dBit c = dBit c' from getLsbD_of_and_eq h rfl]
  case h_2 e | h_8 e | h_12 e =>
    rw [e] at h
    rw [show dByte c = dByte c' from extractLsb'_of_and_eq 0 h (by decide)]
  case h_3 e =>
    rw [e] at h
    rw [show dField c = dField c' from extractLsb'_of_and_eq 0 h (by decide),
      show wField c = wField c' from extractLsb'_of_and_eq 32 h (by decide)]
  case h_7 e =>
    rw [e] at h
    rw [show wField c = wField c' from extractLsb'_of_and_eq 32 h (by decide)]
  all_goals rfl

/-- Settles O3: the outcome of a word depends on what it decodes to. -/
theorem unusedOperandBitsIgnored : Obligations.UnusedOperandBitsIgnored := by
  intro c c' s hop h
  have hd := decode_of_usedBits hop h
  exact ⟨hd, by rw [runWord, runWord, hd]⟩

/-- Settles O4: the words are literals. -/
theorem sampleWordsDecode : Obligations.SampleWordsDecode := by
  unfold Obligations.SampleWordsDecode
  decide

end Sys2Proof.Machine
end

section
/-! PROOFS. The faults a command word alone decides (R63, R151): a reserved `op`, a width above 32. -/

namespace Sys2Proof.Machine

theorem takeAction_reserved {c : CmdWord} {op : Byte} (h : decode c = .reserved op) (s : State) :
    takeAction (.command c) s = illegalCommand s := by
  simp [takeAction, runWord, h]

/-- Settles O7, one clause per kind of session. -/
theorem reservedOpFaults : Obligations.ReservedOpFaults := by
  intro s c rest op hp hd
  rw [step_of_pending hp, takeAction_reserved hd]
  exact ⟨fun hf => illegalCommand_ok (s := { s with pending := rest }) hf,
    fun hf => illegalCommand_faulted (s := { s with pending := rest }) hf⟩

theorem wint_wide {w : Byte} (h : 32 < w.toNat) (v : Word32) (s : State) :
    wint v w s = .raised .entry .badOperand 0#8 := by
  simp [wint, Nat.not_le.mpr h]

theorem rint_wide {w : Byte} (h : 32 < w.toNat) (s : State) : rint w s = .raised .entry .badOperand 0#8 := by
  simp [rint, Nat.not_le.mpr h]

/-- Settles O8: the width check of each is its first line, so the fault is precise. -/
theorem wideOperandFaults : Obligations.WideOperandFaults := fun s v w hf hw =>
  ⟨exec_raised (i := .wint v w) hf (wint_wide hw v s), exec_raised (i := .rint w) hf (rint_wide hw s)⟩

end Sys2Proof.Machine
end

section
/-! PROOFS. WHDR and RHDR (R65 to R67, R101, R102). -/

namespace Sys2Proof.Machine

open Safety

/-! ### WHDR -/

/-- Bits written from a writer in order are written in the sense of R84. -/
theorem wrote_writeBits {s : State} (h : WriterOk s) (bs : List Bool) : Wrote s (writeBits bs s) bs :=
  ⟨(writeBits_spec bs h).2, (writeBits_spec bs h).1, writeBits_frame bs s⟩

theorem whdr_built {s : State} (h : s.phase = .built) : whdr s = .done () (writeBits (headerBits s.freq) s) := by
  rw [whdr, h, writeHeader_eq]; rfl

theorem whdr_empty {s : State} (h : s.phase = .empty) : whdr s = .raised .entry .badPhase 0#8 := by
  rw [whdr, h]; rfl

/-- An empty table has no header (R101 corner case 1). -/
theorem headerBits_empty {freq : Vector Freq 256} (h : nsym freq = 0) : headerBits freq = [] := by
  simp [headerBits, h]

/-- Settles O24, one clause per end of WHDR. -/
theorem whdrResult : Obligations.WhdrResult := by
  intro s hf
  refine ⟨fun hp hw => ?header, fun hp hn => ?none, fun hp => ?phase⟩
  case header => exact ⟨_, exec_done (i := .whdr) hf (whdr_built hp), wrote_writeBits hw _⟩
  case none =>
    have hdone := whdr_built hp
    rw [headerBits_empty hn, writeBits_nil] at hdone
    exact exec_done (i := .whdr) hf hdone
  case phase => exact exec_raised (i := .whdr) hf (whdr_empty hp)

/-! ### RHDR -/

theorem rhdr_empty {s : State} (hp : s.phase = .empty) (hz : total s.freq = 0) : rhdr s = readHeader s := by
  rw [rhdr, hp, hz]; rfl

/-- A table that holds exactly the given pairs has as many symbols as there are pairs (R7). -/
theorem nsym_of_pairs {freq : Vector Freq 256} {ps : List (Byte × Freq)} (hd : (ps.map Prod.fst).Nodup)
    (hf : ∀ p ∈ ps, p.2 ≠ 0#31) (hin : ∀ p ∈ ps, freqOf freq p.1 = p.2)
    (hout : ∀ x, x ∉ ps.map Prod.fst → freqOf freq x = 0#31) : nsym freq = ps.length := by
  have hmem : ∀ x, x ∈ presentSymbols freq ↔ x ∈ ps.map Prod.fst := by
    intro x
    rw [mem_presentSymbols]
    refine ⟨fun hx => by_contra fun hno => hx (hout x hno), fun hx => ?_⟩
    obtain ⟨p, hp, rfl⟩ := List.mem_map.mp hx
    rw [hin p hp]
    exact hf p hp
  have hperm := (List.perm_ext_iff_of_nodup (presentSymbols_nodup freq) hd).mpr hmem
  rw [nsym, hperm.length_eq, List.length_map]

/-- Settles O26: the reader takes the header apart field by field, and the table it leaves holds the pairs. -/
theorem rhdrResult : Obligations.RhdrResult := by
  intro s bf ps rest hf hp htotal hread hmin hmax hbf hd hpairs hahead
  obtain ⟨t, e, ht, hframe, hrest, hin, hout⟩ :=
    readHeader_bits bf ps hread ⟨hmin, hmax⟩ hbf hahead hpairs hd (total_eq_zero.mp htotal)
  rw [← rhdr_empty hp htotal] at e
  exact ⟨t, exec_done (i := .rhdr) hf e, hframe, ht, hrest,
    nsym_of_pairs hd (fun p hp => (hpairs p hp).1) hin hout, hin, hout⟩

end Sys2Proof.Machine
end

section
/-! PROOFS. ENC writes a code of 1 to 255 bits (R120, R123). -/

namespace Sys2Proof.Machine

open Safety

/-- ENC's walk records at most as many bits as the code register has room for (R26). -/
theorem climb_length {node : Vector Node 511} {room : Nat} {i : NodeIdx} {acc bs : List Bool}
    (h : climb node room i acc = some bs) : bs.length ≤ acc.length + room := by
  induction room generalizing i acc with
  | zero =>
    unfold climb at h
    split at h
    · cases h
    · cases h; exact Nat.le_refl _
  | succ room ih =>
    unfold climb at h
    split at h
    · have hle := ih h
      rw [List.length_cons] at hle
      omega
    · cases h; omega

theorem codeOf_length {node : Vector Node 511} {root : NodeIdx} {x : Byte} {bs : List Bool}
    (h : codeOf node root x = some bs) : bs.length ≤ 255 := by
  unfold codeOf at h
  split at h
  · cases h; decide
  · simpa using climb_length h

/-- No code is empty: a walk without a step stays on the root, which is no leaf (R69). -/
theorem isCode_ne_nil {node : Vector Node 511} {root : NodeIdx} {x : Byte} : ¬ IsCode node root x [] := by
  unfold IsCode
  split
  next => simp
  next hl =>
    intro h
    obtain rfl : root = leafSlot x := Option.some.inj h
    exact hl (isLeaf_leafSlot x)

/-- ENC of a present symbol is done: it writes the symbol's code. -/
theorem enc_present {s : State} {x : Byte} (hp : s.phase = .built) (T : TreeShape s.freq s.node s.root s.rootv)
    (hx : freqOf s.freq x ≠ 0#31) :
    ∃ bs, codeOf s.node s.root x = some bs ∧ IsCode s.node s.root x bs ∧ enc x s = .done () (writeBits bs s) := by
  obtain ⟨bs, hcode, his⟩ := codeOf_spec T hx
  have hrootv : s.rootv = true := T.root_valid.mpr fun hn => hx (nsym_eq_zero.mp hn x)
  exact ⟨bs, hcode, his, enc_done hp hrootv ((T.leaf_valid x).mpr hx) hcode⟩

/-- Settles O37 from what ENC writes and the length of a code. -/
theorem encWritesTheCode : Obligations.EncWritesTheCode := by
  intro s x hf hp hw T hx
  obtain ⟨bs, hcode, his, e⟩ := enc_present hp T hx
  have hpos : 1 ≤ bs.length := List.length_pos_of_ne_nil fun hnil => isCode_ne_nil (hnil ▸ his)
  exact ⟨_, bs, exec_done (i := .enc x) hf e, his, hpos, codeOf_length hcode, wrote_writeBits hw bs⟩

end Sys2Proof.Machine
end

section
/-! PROOFS. COMPRESS (R130, R73): it completes when its tally pass does, and what the sink then holds. -/

namespace Sys2Proof.Machine

open Safety

/-! ### Only the tally pass overflows -/

theorem enc_ne_overflow {x y : Byte} {s : State} {p : RaisePoint} : enc x s ≠ .raised p .countOverflow y := by
  intro e
  simp only [enc, require_eq_raised] at e
  rcases e with ⟨-, -, hc, -⟩ | ⟨-, ⟨-, -, hc, -⟩ | ⟨-, ⟨-, -, hc, -⟩ | ⟨-, e⟩⟩⟩
  · cases hc
  · cases hc
  · cases hc
  · split at e <;> cases e

theorem encAll_ne_overflow {xs : List Byte} {y : Byte} {s : State} {p : RaisePoint} :
    encAll xs s ≠ .raised p .countOverflow y := by
  induction xs generalizing s with
  | nil => nofun
  | cons x xs ih =>
    intro e
    rw [encAll, bind_eq_raised, inner_eq_raised] at e
    rcases e with ⟨-, q, e⟩ | ⟨_, t, -, e⟩
    · exact enc_ne_overflow e
    · exact ih e

/-- The lines of COMPRESS behind the tally pass raise no COUNT_OVERFLOW (R130, R155). -/
theorem tallyAll_of_compress_overflow {s : State} {x : Byte} (hf : fresh s = true) (hl : s.slen ≠ 0)
    (e : compress s = .raised .body .countOverflow x) : tallyAll s.src s = .raised .body .countOverflow x := by
  rw [compress, hf, require_true, if_neg hl, bind_eq_raised] at e
  rcases e with e | ⟨_, t, -, e⟩
  · exact e
  exfalso
  simp only [bind_eq_raised, inner_eq_raised] at e
  rcases e with ⟨-, q, e⟩ | ⟨_, u, -, ⟨-, q, e⟩ | ⟨_, v, -, e | ⟨_, w, -, -, q, e⟩⟩⟩
  · simp [build, require_eq_raised] at e
  · simp [whdr, require_eq_raised] at e
  · exact encAll_ne_overflow e
  · cases e

/-! ### The sink after the flush -/

/-- A writer in order that holds no bits has its buffer at 0 (R28). -/
theorem wbuf_of_wn_zero {s : State} (h : WriterOk s) (hn : s.wn = 0) : s.wbuf = 0#8 := by
  have hzero : WriterOk { s with wbuf := 0#8 } := writerOk_fresh rfl hn
  exact (writer_ext h hzero (by simp [writtenBits, hn])).2.1

/-- Bits written and flushed in a session that has written none (R83, R84): the sink is the bits and fewer than eight
zeros, and the writer is as it was. -/
theorem flushed_sink {s : State} (hsnk : s.snk = []) (hbuf : s.wbuf = 0#8) (hn : s.wn = 0) (bs : List Bool) :
    ∃ pad snk, pad < 8 ∧ streamBits snk = bs ++ List.replicate pad false ∧
      flushWriter (writeBits bs s) = { s with snk := snk } := by
  obtain ⟨hok, hbits⟩ := writeBits_spec bs (writerOk_fresh hbuf hn)
  obtain ⟨hok', hn', hbits'⟩ := flushWriter_spec hok
  have hframe := (writeBits_frame bs s).trans (flushWriter_frame (writeBits bs s))
  refine ⟨(8 - (writeBits bs s).wn.val) % 8, (flushWriter (writeBits bs s)).snk, Nat.mod_lt _ (by decide), ?bits,
    ?frame⟩
  case bits =>
    rw [hbits, writtenBits_fresh hsnk hn, List.nil_append] at hbits'
    rw [← hbits']
    simp [writtenBits, hn']
  case frame =>
    rw [SameButWriter, hn', wbuf_of_wn_zero hok' hn', ← hn, ← hbuf] at hframe
    exact hframe

/-- The bytes that hold `n` bits and fewer than eight more. -/
theorem length_of_streamBits {m : Memory} {bs : List Bool} {pad : Nat} (hpad : pad < 8)
    (h : streamBits m = bs ++ List.replicate pad false) : m.length = (bs.length + 7) / 8 := by
  have hlen := congrArg List.length h
  rw [streamBits_length, List.length_append, List.length_replicate] at hlen
  omega

/-- The payload's length is the sum over the symbols that R73 gives, when the table counts the input. -/
theorem payload_length {freq : Vector Freq 256} {xs : List Byte} (h : ∀ x, (freqOf freq x).toNat = xs.count x)
    (node : Vector Node 511) (root : NodeIdx) : (payload node root xs).length = payloadLength freq node root := by
  have hset : xs.toFinset = (presentSymbols freq).toFinset := by
    ext x
    rw [List.mem_toFinset, List.mem_toFinset, mem_presentSymbols, ← List.count_pos_iff, ← h x, Nat.pos_iff_ne_zero,
      ne_eq, ne_eq, ← BitVec.toNat_inj]
    rfl
  rw [payload, List.length_flatMap, Finset.sum_list_map_count, hset, List.sum_toFinset _ (presentSymbols_nodup freq),
    payloadLength, weightedLength]
  simp [h]

/-! ### The result -/

theorem nsym_of_counts {freq : Vector Freq 256} {xs : List Byte} (h : ∀ x, (freqOf freq x).toNat = xs.count x)
    (hxs : xs ≠ []) : nsym freq ≠ 0 := by
  rw [← total_pos_iff, total_of_counts h, ne_eq, List.length_eq_zero_iff]
  exact hxs

/-- COMPRESS of a source that no counter overflows on is done (R130). -/
theorem compress_done {s : State} (hf : fresh s = true) (hl : s.slen ≠ 0) (hmax : ∀ x, s.src.count x ≤ 2 ^ 31 - 1) :
    ∃ t b, SameButFreq s t ∧ (∀ x, (freqOf t.freq x).toNat = s.src.count x) ∧ BuiltFrom t b ∧
      compress s = .done () (flushWriter (writeBits (headerBits t.freq ++ payload b.node b.root s.src) b)) := by
  obtain ⟨-, -, hp, -, -, -, -, -, -, hzero, -⟩ := fresh_iff.mp hf
  rcases compress_cases hf hl with ⟨x, -, e⟩ | ⟨t, b, hcount, hfreq, -, B, -, e⟩
  · obtain ⟨t, e', -⟩ := tallyAll_spec s.src hp fun x => by rw [hzero]; simpa using hmax x
    cases (tallyAll_of_compress_overflow hf hl e).symm.trans e'
  · exact ⟨t, b, hcount, hfreq, B, by rw [writeBits_append]; exact e⟩

/-- Settles O43: the table counts the source, the tree is BUILD's, and the flushed writer holds header and payload. -/
theorem compressResult : Obligations.CompressResult := by
  intro s hf hl hmax
  obtain ⟨hok, -, -, hbuf, hn, -, -, -, hsnk, -⟩ := fresh_iff.mp hf
  obtain ⟨t, b, hcount, hfreq, B, e⟩ := compress_done hf hl hmax
  have hb : b = { s with freq := t.freq, node := b.node, root := b.root, rootv := b.rootv, phase := .built } := by
    rw [B.frame, hcount]
  obtain ⟨pad, snk, hpad, hbits, hflush⟩ := flushed_sink (s := b) (by rw [hb]; exact hsnk) (by rw [hb]; exact hbuf)
    (by rw [hb]; exact hn) (headerBits t.freq ++ payload b.node b.root s.src)
  have hnsym : nsym t.freq ≠ 0 := nsym_of_counts hfreq fun hnil => hl (by rw [State.slen, hnil]; rfl)
  have hlen := length_of_streamBits hpad hbits
  rw [List.length_append, headerBits_length hnsym, payload_length hfreq] at hlen
  rw [hflush, hb] at e
  exact ⟨_, exec_done (i := .compress) hok e, rfl, hfreq, B.tree, ⟨pad, hpad, hbits⟩, hlen⟩

end Sys2Proof.Machine
end

section
/-! PROOFS. DECOMPRESS of a container (R131). -/

namespace Sys2Proof.Machine

open Safety

/-- RHDR of a Fresh session over a source that begins with the header of a table reads that table (R102, R103 (1)). -/
theorem rhdr_header {s : State} {freq : Vector Freq 256} {rest : List Bool} (hf : fresh s = true)
    (hn : nsym freq ≠ 0) (h : streamBits s.src = headerBits freq ++ rest) :
    ∃ t, rhdr s = .done () t ∧ SameButTable s t ∧ bitsAhead t = rest ∧ t.freq = freq := by
  obtain ⟨-, -, hp, -, -, -, hrn, hsp, -, hzero, -⟩ := fresh_iff.mp hf
  obtain ⟨t, e, -, hframe, hrest, hfreq⟩ := readHeader_headerBits freq (readerOk_start hsp hrn) hn
    ((bitsAhead_start hsp hrn).trans h) hzero
  exact ⟨t, (rhdr_empty hp (total_eq_zero.mpr hzero)).trans e, hframe, hrest, hfreq⟩

/-- A source that begins with a header is not empty. -/
theorem slen_of_header {s : State} {freq : Vector Freq 256} {rest : List Bool} (hn : nsym freq ≠ 0)
    (h : streamBits s.src = headerBits freq ++ rest) : s.slen ≠ 0 := by
  have hlen := congrArg List.length h
  rw [streamBits_length, List.length_append, headerBits_length hn] at hlen
  rw [State.slen]
  omega

/-- BUILD does not look at the reader (R115). -/
theorem buildBody_of_table {s t : State} (h : SameButTable s t) :
    buildBody t = { buildBody { s with freq := t.freq } with rbuf := t.rbuf, rn := t.rn, sp := t.sp } := by
  rw [buildBody_eq, buildBody_eq, h]

theorem BuiltFrom.readerOk {s t : State} (B : BuiltFrom s t) (h : ReaderOk s) : ReaderOk t := by
  rw [B.frame]; exact ⟨h.inside, h.held⟩

theorem BuiltFrom.bitsAhead_eq {s t : State} (B : BuiltFrom s t) : bitsAhead t = bitsAhead s := by
  rw [B.frame]; rfl

theorem BuiltFrom.snk {s t : State} (B : BuiltFrom s t) : t.snk = s.snk := by rw [B.frame]

/-- Settles O44: the header gives the table, BUILD its tree, and the decode pass reads the codes back. -/
theorem decompressResult : Obligations.DecompressResult := by
  intro s b freq xs rest hf hn hbuild hlen hxs hsrc
  obtain ⟨hok, -, hp, -, -, -, -, -, hsnk, -⟩ := fresh_iff.mp hf
  rw [List.append_assoc] at hsrc
  obtain ⟨t, e, htable, hahead, rfl⟩ := rhdr_header hf hn hsrc
  obtain ⟨-, ht, -, B, -, hlines⟩ := decompress_header hf (slen_of_header hn hsrc) e
  rw [exec_build (s := { s with freq := t.freq }) hok hp] at hbuild
  obtain rfl := Host.Outcome.next.inj hbuild
  have hbody := buildBody_of_table htable
  have hpayload : bitsAhead (buildBody t) = payload (buildBody t).node (buildBody t).root xs ++ rest := by
    rw [B.bitsAhead_eq, hahead, hbody]; rfl
  obtain ⟨u, e', hu, hdec, hrest, hbytes⟩ := decAll_spec xs (B.readerOk ht) B.phase (B.tree.root_valid.mpr hn)
    (fun x hx => codeOf_spec B.tree (hxs x hx)) hpayload
  rw [hlen, ← hlines] at e'
  have hempty : (buildBody t).snk = [] := B.snk.trans ((congrArg State.snk htable).trans hsnk)
  rw [hempty, List.nil_append] at hbytes
  rw [SameButDecoder, hbody, hbytes] at hdec
  exact ⟨u, exec_done (i := .decompress) hok e', hdec, hu, hrest⟩

end Sys2Proof.Machine
end

section
/-! PROOFS. The writer operations one after another, and FLUSH (R80 to R84). -/

namespace Sys2Proof.Machine

open Safety

/-! ### One operation -/

/-- Every writer operation writes its bits and ends (R80, R81, R82). -/
theorem opOf_writer {i : Instr} {bs : List Bool} (h : writerBits i = some bs) (s : State) :
    opOf i s = .done () (writeBits bs s) := by
  cases i with
  | wbit _ | wbyte _ => cases h; rfl
  | wint v w =>
    simp only [writerBits, Option.ite_none_right_eq_some] at h
    obtain ⟨hw, hbits⟩ := h
    cases hbits
    rw [opOf, wint, decide_eq_true hw, require_true]
    rfl
  | flush | rbit | rbyte | rint _ | tally _ | whdr | rhdr | build | enc _ | dec | compress | decompress
  | sreset => cases h

theorem exec_writer {i : Instr} {bs : List Bool} {s : State} (hf : s.fault = .ok) (h : writerBits i = some bs) :
    exec i s = .next (writeBits bs s) :=
  exec_done hf (opOf_writer h s)

/-- Settles O12 from what every writer operation writes. -/
theorem writerAppendsItsBits : Obligations.WriterAppendsItsBits := fun _ _ bs hf hw hbits =>
  ⟨_, exec_writer hf hbits, wrote_writeBits hw bs⟩

theorem wint_zeroExtend_eight (v : Byte) : wint (v.zeroExtend 32) 8#8 = wbyte v := by
  have hv : (v.zeroExtend 32).toNat = v.toNat := BitVec.toNat_setWidth_of_le (by decide)
  funext s
  rw [wint, writeInt, hv]
  rfl

/-- Settles O13: the two are commands of one operation. -/
theorem wbyteIsWintEight : Obligations.WbyteIsWintEight := fun s v =>
  congrArg (command · s) (wint_zeroExtend_eight v).symm

/-! ### FLUSH -/

theorem exec_flush {s : State} (h : s.fault = .ok) : exec .flush s = .next (flushWriter s) :=
  exec_done (i := .flush) h rfl

theorem flushWriter_none_held {s : State} (h : s.wn.val = 0) : flushWriter s = s :=
  if_neg (by omega)

theorem flushWriter_some_held {s : State} (h : 0 < s.wn.val) : flushWriter s = emitByte s :=
  if_pos h

/-- Settles O14: by cases on whether bits are held, and from a writer in order by what FLUSH leaves. -/
theorem flushResult : Obligations.FlushResult := by
  intro s hf
  rw [exec_flush hf]
  refine ⟨fun hn => ?none, fun hn => ?some, fun hw => ?padded⟩
  case none => rw [flushWriter_none_held hn]
  case some => rw [flushWriter_some_held hn]; rfl
  case padded =>
    obtain ⟨hok, hn, hbits⟩ := flushWriter_spec hw
    have hframe := flushWriter_frame s
    have hf' : (flushWriter s).fault = .ok := by rw [hframe]; exact hf
    exact ⟨_, rfl, hn, by rw [exec_flush hf', flushWriter_none_held (by rw [hn]; rfl)], hbits, hok, hframe⟩

/-! ### A sequence of operations -/

/-- Writer operations one after another write their bits one after another (R84). -/
theorem execAll_writers (is : List Instr) (bss : List (List Bool)) {s : State} (hf : s.fault = .ok)
    (h : is.map writerBits = bss.map some) : execAll is s = .next (writeBits bss.flatten s) := by
  induction is generalizing bss s with
  | nil =>
    obtain rfl : bss = [] := List.map_eq_nil_iff.mp h.symm
    rfl
  | cons i is ih =>
    cases bss with
    | nil => cases h
    | cons bs bss =>
      obtain ⟨hi, his⟩ := List.cons.inj h
      have hf' : (writeBits bs s).fault = .ok := by rw [writeBits_frame bs s]; exact hf
      rw [execAll, exec_writer hf hi, List.flatten_cons, writeBits_append]
      exact ih bss hf' his

/-! ### Where a written bit stands -/

theorem streamBit_eq_getLsbD (b : Byte) {k : Nat} (hk : k < 8) : streamBit b k = b.getLsbD (7 - k) := by
  simp [streamBit, BitVec.getMsbD, hk]

/-- A bit of a sink byte is a bit written (R46 (1), R84). -/
theorem writtenBits_in_sink {s : State} {j k : Nat} (hj : j < s.olen) (hk : k < 8) :
    (writtenBits s)[8 * j + k]? = s.snk[j]?.map fun b => b.getLsbD (7 - k) := by
  have hlen : 8 * j + k < (streamBits s.snk).length := by rw [streamBits_length, ← State.olen]; omega
  simp only [← streamBit_eq_getLsbD _ hk]
  rw [writtenBits, List.getElem?_append_left hlen, streamBits_getElem? _ _ _ hk]

/-- A bit held in `WBUF` is a bit written, behind those of the sink (R17, R84). -/
theorem writtenBits_in_buffer {s : State} {k : Nat} (hk : k < s.wn.val) (h8 : k < 8) :
    (writtenBits s)[8 * s.olen + k]? = some (s.wbuf.getLsbD (7 - k)) := by
  rw [writtenBits, ← streamBits_length, List.getElem?_append_right (Nat.le_add_right _ _), Nat.add_sub_cancel_left,
    List.getElem?_take_of_lt hk, List.getElem?_eq_getElem (by rw [byteBits_length]; exact h8), byteBits_getElem,
    streamBit_eq_getLsbD _ h8]

/-- The padding of a sink holds no 1 (R83). -/
theorem sink_padding {m : Memory} {bs : List Bool} {pad j k : Nat}
    (h : streamBits m = bs ++ List.replicate pad false) (hk : k < 8) (hpast : bs.length ≤ 8 * j + k) :
    m[j]?.map (fun b => b.getLsbD (7 - k)) ≠ some true := by
  simp only [← streamBit_eq_getLsbD _ hk]
  rw [← streamBits_getElem? _ _ _ hk, h, List.getElem?_append_right hpast]
  intro htrue
  cases List.eq_of_mem_replicate (List.mem_of_getElem? htrue)

/-! ### From reset -/

/-- Bits written from reset (R84). -/
theorem writeBits_from_reset (src : Memory) (bs : List Bool) :
    WriterOk (writeBits bs (freshSession src)) ∧ writtenBits (writeBits bs (freshSession src)) = bs := by
  obtain ⟨hok, hbits⟩ := writeBits_spec bs (writerOk_fresh (s := freshSession src) rfl rfl)
  rw [writtenBits_fresh (s := freshSession src) rfl rfl, List.nil_append] at hbits
  exact ⟨hok, hbits⟩

/-- FLUSH after bits written from reset (R83): the sink is the bits and fewer than eight zeros. -/
theorem exec_flush_from_reset (src : Memory) (bs : List Bool) :
    ∃ pad u, pad < 8 ∧ streamBits u.snk = bs ++ List.replicate pad false ∧
      exec .flush (writeBits bs (freshSession src)) = .next u := by
  obtain ⟨pad, snk, hpad, hsnk, hflush⟩ := flushed_sink (s := freshSession src) rfl rfl rfl bs
  have hf : (writeBits bs (freshSession src)).fault = .ok := by rw [writeBits_frame]; rfl
  exact ⟨pad, _, hpad, hsnk, (exec_flush hf).trans (congrArg _ hflush)⟩

/-- Settles O15: the bits written are those of the operations, and their number fixes `OLEN` and `WN`. -/
theorem writerLaws : Obligations.WriterLaws := by
  intro src is bss h
  have hrun := execAll_writers is bss (s := freshSession src) rfl h
  obtain ⟨hok, hbits⟩ := writeBits_from_reset src bss.flatten
  obtain ⟨pad, u, hpad, hsnk, hflush⟩ := exec_flush_from_reset src bss.flatten
  generalize writeBits bss.flatten (freshSession src) = t at *
  have hroom := hok.room
  have hlen : bss.flatten.length = 8 * t.olen + t.wn.val := by rw [← hbits, writtenBits_length hok, writerPos]
  refine ⟨t, u, hrun, hflush, by omega, by omega, fun j k hj hk => ?sink, fun k hk => ?buffer, fun k hk h8 => ?clean,
    length_of_streamBits hpad hsnk, fun k hk hpast => ?padding⟩
  case sink => rw [← hbits, writtenBits_in_sink hj hk]
  case buffer => rw [← hbits, writtenBits_in_buffer hk (by omega)]
  case clean => rw [← streamBit_eq_getLsbD _ h8]; exact hok.clean k hk h8
  case padding => exact sink_padding hsnk hk hpast

end Sys2Proof.Machine
end

section
/-! PROOFS. The inverse law (R93): RINTs read back what WINTs and a FLUSH wrote. -/

namespace Sys2Proof.Machine

open Safety

/-- The field WINT writes for a value and a width (R66, R82). -/
def fieldBits (p : Word32 × Byte) : List Bool := lsbFirst p.2.toNat p.1.toNat

theorem writerBits_wint {p : Word32 × Byte} (h : p.2.toNat ≤ 32) : writerBits (.wint p.1 p.2) = some (fieldBits p) :=
  if_pos h

/-- WINTs and a FLUSH from reset leave the fields in the sink, and zeros behind them (R82, R83). -/
theorem execAll_wints_flush {vws : List (Word32 × Byte)} (hw : ∀ p ∈ vws, p.2.toNat ≤ 32) :
    ∃ t pad, execAll (vws.map (fun p => .wint p.1 p.2) ++ [.flush]) (freshSession []) = .next t ∧
      streamBits t.snk = vws.flatMap fieldBits ++ List.replicate pad false := by
  have hbits : (vws.map fun p => Instr.wint p.1 p.2).map writerBits = (vws.map fieldBits).map some := by
    rw [List.map_map, List.map_map]
    exact List.map_congr_left fun p hp => writerBits_wint (hw p hp)
  obtain ⟨pad, t, -, hsnk, hflush⟩ := exec_flush_from_reset [] (vws.flatMap fieldBits)
  refine ⟨t, pad, ?_, hsnk⟩
  rw [execAll_append, execAll_writers _ _ rfl hbits, ← List.flatMap_def]
  simp only [execAll, hflush]

/-- A session without a fault whose reader has the bits `bs` ahead. -/
structure Awaits (bs : List Bool) (s : State) : Prop where
  fault : s.fault = .ok
  reader : ReaderOk s
  ahead : bitsAhead s = bs

theorem awaits_start (src : Memory) : Awaits (streamBits src) (freshSession src) :=
  ⟨rfl, readerOk_start rfl rfl, bitsAhead_start rfl rfl⟩

/-- RINT of a field's width reads the field's value and goes behind it (R92). -/
theorem Awaits.exec_rint {p : Word32 × Byte} {rest : List Bool} {s : State} (h : Awaits (fieldBits p ++ rest) s)
    (hw : p.2.toNat ≤ 32) :
    ∃ t, exec (.rint p.2) s = .next t ∧ Awaits rest t ∧ t.res.toNat = p.1.toNat % 2 ^ p.2.toNat := by
  obtain ⟨t, e, ht, hframe, hrest, -⟩ := readField_lsbFirst _ _ h.reader h.ahead
  have hop := opOf_reader (i := .rint p.2) (if_pos hw) s
  rw [e] at hop
  have hfault : t.fault = .ok := by rw [hframe]; exact h.fault
  have hsmall : p.1.toNat % 2 ^ p.2.toNat < 2 ^ 32 := (Nat.mod_le _ _).trans_lt p.1.isLt
  exact ⟨_, exec_done h.fault hop, ⟨hfault, ⟨ht.inside, ht.held⟩, hrest⟩, Nat.mod_eq_of_lt hsmall⟩

/-- RINTs over fields one after another: the last of them leaves its field's value in `RES` (R92, R93). -/
theorem Awaits.execAll_rints {vws : List (Word32 × Byte)} {rest : List Bool} {s : State} {k : Nat}
    {p : Word32 × Byte} (h : Awaits (vws.flatMap fieldBits ++ rest) s) (hw : ∀ p ∈ vws, p.2.toNat ≤ 32)
    (hk : vws[k]? = some p) :
    ∃ u, execAll ((vws.take (k + 1)).map fun q => .rint q.2) s = .next u ∧ u.fault = .ok ∧
      u.res.toNat = p.1.toNat % 2 ^ p.2.toNat := by
  induction vws generalizing s k with
  | nil => cases hk
  | cons q vws ih =>
    rw [List.flatMap_cons, List.append_assoc] at h
    obtain ⟨hq, hvws⟩ := List.forall_mem_cons.mp hw
    obtain ⟨t, e, ht, hres⟩ := h.exec_rint hq
    rw [List.take_succ_cons, List.map_cons, execAll, e]
    cases k with
    | zero =>
      cases hk
      exact ⟨t, rfl, ht.fault, hres⟩
    | succ k => exact ih ht hvws hk

/-- Settles O21: the reader over the sink has the written fields ahead. -/
theorem readerInvertsWriter : Obligations.ReaderInvertsWriter := by
  intro vws hw
  obtain ⟨t, pad, hrun, hsnk⟩ := execAll_wints_flush hw
  have hahead := awaits_start t.snk
  rw [hsnk] at hahead
  exact ⟨t, hrun, fun _ _ hk => hahead.execAll_rints hw hk⟩

end Sys2Proof.Machine
end

section
/-! PROOFS. The reader operations one at a time (R90 to R92). -/

namespace Sys2Proof.Machine

open Safety

/-- Whatever a raised fault wrote, it was taken (R152). -/
theorem faultTaken_takeFault (p : RaisePoint) (c : FaultCode) (info : Byte) (s : State) :
    FaultTaken s (takeFault p c info s) c info := by
  simp [FaultTaken]

/-! ### One request, in any session -/

section
variable {s : State}

/-- R90: a bit left in `RBUF` is delivered without a refill. -/
theorem nextBit_held (h : s.rn.val < 8) :
    nextBit s = .done (s.rbuf.getLsbD (7 - s.rn.val)) { s with rn := s.rn + 1 } := by
  have hne : s.rn ≠ 8 := fun e => by simp [e] at h
  rw [← streamBit_eq_getLsbD _ h, nextBit, refillIfUsed, if_neg hne]
  rfl

/-- R90: with `RBUF` used up a request is a refill and then its bit. -/
theorem nextBit_used (h : s.rn.val = 8) : nextBit s = (refill s).bind fun _ t => takeBit t := by
  rw [nextBit, refillIfUsed, if_pos (Fin.ext h)]

theorem nextBit_refilled {b : Byte} (h : s.rn.val = 8) (hb : s.src[s.sp]? = some b) :
    nextBit s = .done (b.getLsbD 7) { s with rbuf := b, rn := 1, sp := s.sp + 1 } := by
  have hin : s.sp ≠ s.slen := Nat.ne_of_lt (List.getElem?_eq_some_iff.mp hb).1
  rw [nextBit_used h, refill, if_neg hin, srcByte, hb]
  rfl

theorem nextBit_truncated (h : s.rn.val = 8) (hend : s.sp = s.slen) : nextBit s = formatError .truncated := by
  rw [nextBit_used h, refill, if_pos hend]
  rfl

/-! ### RBIT -/

theorem exec_rbit_done {b : Bool} {t : State} (hf : s.fault = .ok) (h : nextBit s = .done b t) :
    exec .rbit s = .next { t with res := if b then 1#32 else 0#32 } := by
  refine exec_done (i := .rbit) hf ?_
  rw [opOf, rbit, h]
  cases b <;> rfl

end

/-- Settles O16, one clause per end of a request. -/
theorem rbitResult : Obligations.RbitResult := by
  intro s hf
  refine ⟨fun h => ?held, fun b h hb => ?refilled, fun h hend => ?truncated⟩
  case held => exact exec_rbit_done hf (nextBit_held h)
  case refilled => exact exec_rbit_done hf (nextBit_refilled h hb)
  case truncated =>
    have hraise : opOf .rbit s = formatError .truncated := by rw [opOf, rbit, nextBit_truncated h hend]; rfl
    exact ⟨_, exec_raised hf hraise, faultTaken_takeFault ..⟩

/-! ### Every reader operation, with the reader in order -/

section
variable {s : State} {i : Instr} {n : Nat} (hf : s.fault = .ok) (hr : ReaderOk s) (hi : readerBits i = some n)
include hf hr hi

theorem exec_reader_few (hfew : (bitsAhead s).length < n) :
    ∃ t, exec i s = .next t ∧ FaultTaken s t .formatError (causeInfo .truncated) := by
  rcases readField_spec n hr with ⟨-, e⟩ | ⟨_, henough, -⟩
  · have hop := opOf_reader hi s
    rw [e] at hop
    exact ⟨_, exec_raised hf hop, faultTaken_takeFault ..⟩
  · omega

theorem exec_reader_enough (henough : n ≤ (bitsAhead s).length) :
    ∃ t, exec i s = .next t ∧ ReadInto s t n (BitVec.ofNat 32 (lsbValue ((bitsAhead s).take n))) := by
  rcases readField_spec n hr with ⟨hfew, -⟩ | ⟨t, -, e, ht, hframe, hrest, hpos⟩
  · omega
  · have hop := opOf_reader hi s
    rw [e] at hop
    exact ⟨_, exec_done hf hop, rfl, hrest, hpos, ⟨ht.inside, ht.held⟩, by rw [hframe]⟩

end

/-- Settles O19, one clause per end of the field a reader operation reads. -/
theorem readerTruncates : Obligations.ReaderTruncates := by
  intro s i n hf hr hi
  refine ⟨exec_reader_few hf hr hi, fun henough => ?enough⟩
  obtain ⟨t, e, hread⟩ := exec_reader_enough hf hr hi henough
  exact ⟨t, _, e, hread⟩

/-! ### RBYTE and RINT -/

theorem rint_eight : rint 8#8 = rbyte := rfl

/-- Settles O18: the two are commands of one operation. -/
theorem rbyteIsRintEight : Obligations.RbyteIsRintEight := fun s => congrArg (command · s) rint_eight.symm

/-- Bit `k` ahead is the source's bit `k` places behind the reader's position (R93). -/
theorem bitsAhead_getD (s : State) (k : Nat) :
    (bitsAhead s).getD k false = (s.src.getD ((readerPos s + k) / 8) 0#8).getLsbD (7 - (readerPos s + k) % 8) := by
  rw [bitsAhead, List.getD_eq_getElem?_getD, List.getElem?_drop, ← List.getD_eq_getElem?_getD, streamBits_getD]

/-- The value of the next `n` bits, bit by bit (R91, R92). -/
theorem fieldAhead_getLsbD (s : State) (n : Nat) {k : Nat} (hk : k < 32) :
    (BitVec.ofNat 32 (lsbValue ((bitsAhead s).take n))).getLsbD k =
      (decide (k < n) && (bitsAhead s).getD k false) := by
  rw [bitsAhead_getD]
  exact field_getLsbD s.src hk

/-- Settles O17 from what every reader operation reads. -/
theorem rintResult : Obligations.RintResult := by
  intro s w hf hr hw henough
  refine ⟨?value, fun h8 => ?byte, fun h0 => ?none⟩
  case value =>
    obtain ⟨t, e, hread⟩ := exec_reader_enough (i := .rint w) hf hr (if_pos hw) henough
    exact ⟨t, _, e, hread, fun _ => fieldAhead_getLsbD s w.toNat⟩
  case byte => rw [h8, rbyteIsRintEight s]
  case none =>
    subst h0
    exact exec_done (i := .rint 0#8) hf rfl

end Sys2Proof.Machine
end

section
/-! PROOFS. RHDR over the sink that BUILD, WHDR and FLUSH leave (R103). -/

namespace Sys2Proof.Machine

open Safety

/-- BUILD, WHDR and FLUSH in a session that is Fresh but for its table leave the table's header in the sink, and zeros
behind it (R83, R101). -/
theorem execAll_build_whdr_flush {s : State} (hf : fresh s = true) (freq : Vector Freq 256) :
    ∃ t pad, execAll [.build, .whdr, .flush] { s with freq := freq } = .next t ∧
      streamBits t.snk = headerBits freq ++ List.replicate pad false := by
  obtain ⟨hok, -, hp, hbuf, hn, -, -, -, hempty, -, hnodes, -⟩ := fresh_iff.mp hf
  have hbuild := exec_build (s := { s with freq := freq }) hok hp
  have B := buildBody_builtFrom (s := { s with freq := freq }) fun i => (hnodes i).1
  generalize buildBody { s with freq := freq } = b at hbuild B
  have hb : b.fault = .ok := by rw [B.frame]; exact hok
  have hwhdr : exec .whdr b = .next (writeBits (headerBits freq) b) := by
    have hdone := whdr_built B.phase
    rw [B.freq] at hdone
    exact exec_done (i := .whdr) hb hdone
  have hw : (writeBits (headerBits freq) b).fault = .ok := by rw [writeBits_frame]; exact hb
  obtain ⟨pad, snk, -, hsnk, hflush⟩ := flushed_sink (B.snk.trans hempty) (by rw [B.frame]; exact hbuf)
    (by rw [B.frame]; exact hn) (headerBits freq)
  exact ⟨{ b with snk := snk }, pad, by simp only [execAll, hbuild, hwhdr, exec_flush hw, hflush], hsnk⟩

/-- Settles O29: the second session's source begins with the header of the first one's table. -/
theorem headerRoundTrip : Obligations.HeaderRoundTrip := by
  intro src freq hn
  obtain ⟨t, pad, hrun, hsnk⟩ := execAll_build_whdr_flush (fresh_reset src) freq
  obtain ⟨u, e, hframe, -, hfreq⟩ := rhdr_header (fresh_reset t.snk) hn hsnk
  exact ⟨t, u, hrun, exec_done (i := .rhdr) rfl e, by rw [hframe]; rfl, hfreq⟩

end Sys2Proof.Machine
end

section
/-! PROOFS. What RHDR refuses (R102, R153, R154). -/

namespace Sys2Proof.Machine

open Safety

/-! ### One field, by the number of bits left (R92) -/

section
variable {s : State} {w : Nat} (hr : ReaderOk s)
include hr

theorem readField_few (hfew : (bitsAhead s).length < w) : readField w s = formatError .truncated := by
  rcases readField_spec w hr with ⟨-, e⟩ | ⟨_, henough, -⟩
  · exact e
  · omega

theorem readField_enough (henough : w ≤ (bitsAhead s).length) :
    ∃ t, readField w s = .done (lsbValue ((bitsAhead s).take w)) t ∧ ReaderOk t ∧
      bitsAhead t = (bitsAhead s).drop w := by
  rcases readField_spec w hr with ⟨hfew, -⟩ | ⟨t, -, e, ht, -, hrest, -⟩
  · omega
  · exact ⟨t, e, ht, hrest⟩

end

/-! ### The entry checks, the count, the width -/

theorem rhdr_built {s : State} (hp : s.phase = .built) : rhdr s = .raised .entry .badPhase 0#8 := by
  rw [rhdr, hp]; rfl

theorem rhdr_filled {s : State} (hp : s.phase = .empty) (ht : total s.freq ≠ 0) :
    rhdr s = .raised .entry .badPhase 1#8 := by
  rw [rhdr, hp, beq_eq_false_iff_ne.mpr ht]; rfl

/-- A malformed header makes RHDR in a session with an empty table take its FORMAT_ERROR (R102). -/
theorem exec_rhdr_formatError {s : State} {c : FormatCause} (hf : s.fault = .ok) (hp : s.phase = .empty)
    (hz : total s.freq = 0) (e : readHeader s = formatError c) :
    ∃ t, exec .rhdr s = .next t ∧ FaultTaken s t .formatError (causeInfo c) :=
  ⟨_, exec_raised (i := .rhdr) hf ((rhdr_empty hp hz).trans e), faultTaken_takeFault ..⟩

section
variable {s : State} (hr : ReaderOk s)
include hr

theorem readHeader_few (hfew : (bitsAhead s).length < 9) : readHeader s = formatError .truncated := by
  rw [readHeader, readField_few hr hfew]; rfl

variable (hnine : 9 ≤ (bitsAhead s).length)
include hnine

theorem readHeader_zeroCount (h : lsbValue ((bitsAhead s).take 9) = 0) : readHeader s = formatError .zeroCount := by
  obtain ⟨t, e, -⟩ := readField_enough hr hnine
  rw [readHeader, e, bind_done, if_pos h]

theorem readHeader_countRange (h : 256 < lsbValue ((bitsAhead s).take 9)) :
    readHeader s = formatError .countRange := by
  obtain ⟨t, e, -⟩ := readField_enough hr hnine
  rw [readHeader, e, bind_done, if_neg (by omega), if_pos h]

theorem readHeader_few_width (hfew : (bitsAhead s).length < 14) (h1 : 1 ≤ lsbValue ((bitsAhead s).take 9))
    (h256 : lsbValue ((bitsAhead s).take 9) ≤ 256) : readHeader s = formatError .truncated := by
  obtain ⟨t, e, ht, hrest⟩ := readField_enough hr hnine
  have hfew' : (bitsAhead t).length < 5 := by rw [hrest, List.length_drop]; omega
  rw [readHeader, e, bind_done, if_neg (by omega), if_neg (Nat.not_lt.mpr h256), readField_few ht hfew']
  rfl

end

/-- Settles O27, one clause per check, in the order of the checks. -/
theorem rhdrRejects : Obligations.RhdrRejects := by
  intro s hf
  refine ⟨fun hp => ?phase, fun hp ht => ?table, fun hp hz hr =>
    ⟨fun hfew => ?count, fun hnine h => ?zero, fun hnine h => ?range, fun hnine hfew h1 h256 => ?width⟩⟩
  case phase => exact exec_raised (i := .rhdr) hf (rhdr_built hp)
  case table => exact exec_raised (i := .rhdr) hf (rhdr_filled hp ht)
  case count => exact exec_rhdr_formatError hf hp hz (readHeader_few hr hfew)
  case zero => exact exec_rhdr_formatError hf hp hz (readHeader_zeroCount hr hnine h)
  case range => exact exec_rhdr_formatError hf hp hz (readHeader_countRange hr hnine h)
  case width => exact exec_rhdr_formatError hf hp hz (readHeader_few_width hr hnine hfew h1 h256)

/-! ### The next pair -/

theorem readPair_few {bf : Nat} {s : State} (hr : ReaderOk s) (hfew : (bitsAhead s).length < 8 + bf) :
    readPair bf s = formatError .truncated := by
  by_cases hsym : (bitsAhead s).length < 8
  · rw [readPair, readField_few hr hsym]; rfl
  · obtain ⟨t, e, ht, hrest⟩ := readField_enough hr (Nat.le_of_not_lt hsym)
    have hfew' : (bitsAhead t).length < bf := by rw [hrest, List.length_drop]; omega
    rw [readPair, e, bind_done, readField_few ht hfew']; rfl

/-- A pair whose fields the source has, from the frequency check on (R102). -/
theorem readPair_pairBits {bf : Nat} {x : Byte} {f : Freq} {s : State} {rest : List Bool} (hr : ReaderOk s)
    (hfit : f.toNat < 2 ^ bf) (hb : bitsAhead s = pairBits bf x f ++ rest) :
    ∃ t, SameButReader s t ∧ readPair bf s =
      if f = 0#31 then formatError .zeroFreq
      else if freqOf s.freq x ≠ 0#31 then formatError .dupSymbol else .done () (setFreq x f t) := by
  rw [pairBits, List.append_assoc] at hb
  obtain ⟨t, e, ht, hst, hbt, -⟩ := readField_lsbFirst _ _ hr hb
  obtain ⟨u, e', -, htu, -⟩ := readField_lsbFirst _ _ ht hbt
  have hfreq : u.freq = s.freq := htu.freq.trans hst.freq
  have hzero : f.toNat = 0 ↔ f = 0#31 := BitVec.toNat_inj (y := 0#31)
  refine ⟨u, hst.trans htu, ?_⟩
  simp [readPair, e, e', hfreq, hzero, Nat.mod_eq_of_lt hfit]

theorem readPairs_append (bf m n : Nat) (s : State) :
    readPairs bf (m + n) s = (readPairs bf m s).bind fun _ t => readPairs bf n t := by
  induction m generalizing s with
  | zero => rw [Nat.zero_add]; rfl
  | succ m ih =>
    rw [Nat.add_right_comm, readPairs, readPairs]
    cases readPair bf s <;> simp [ih]

/-- RHDR's body behind well-formed pairs, fewer than the count (R102): they are in the table, the rest of the source is
ahead, and the format error of the next pair is the header's. -/
theorem readHeader_behind_pairs {s : State} {n bf : Nat} {ps : List (Byte × Freq)} {tail : List Bool}
    (hr : ReaderOk s) (hz : ∀ x, freqOf s.freq x = 0#31) (hlen : ps.length < n) (hmax : n ≤ 256) (hbf : bf < 32)
    (hd : (ps.map Prod.fst).Nodup) (hps : ∀ p ∈ ps, p.2 ≠ 0#31 ∧ p.2.toNat < 2 ^ bf)
    (hb : bitsAhead s = lsbFirst 9 n ++ lsbFirst 5 bf ++ pairsBits bf ps ++ tail) :
    ∃ t, ReaderOk t ∧ bitsAhead t = tail ∧ (∀ p ∈ ps, freqOf t.freq p.1 = p.2) ∧
      ∀ c, readPair bf t = formatError c → readHeader s = formatError c := by
  rw [List.append_assoc, List.append_assoc] at hb
  obtain ⟨u, e1, hu, hsu, hbu, -⟩ := readField_lsbFirst _ _ hr hb
  obtain ⟨v, e2, hv, huv, hbv, -⟩ := readField_lsbFirst _ _ hu hbu
  have hzv : ∀ x, freqOf v.freq x = 0#31 := by rw [huv.freq, hsu.freq]; exact hz
  obtain ⟨t, e3, ht, -, hbt, hin, -⟩ := readPairs_pairsBits bf ps hv hbv hps hd fun p _ => hzv p.1
  refine ⟨t, ht, hbt, hin, fun c e4 => ?_⟩
  have hn : n % 2 ^ 9 = n := Nat.mod_eq_of_lt (by omega)
  have hw : bf % 2 ^ 5 = bf := Nat.mod_eq_of_lt hbf
  have hsplit : n = ps.length + (n - ps.length - 1 + 1) := by omega
  have hpairs : readPairs bf n v = formatError c := by
    rw [hsplit, readPairs_append, e3, bind_done, readPairs, e4]; rfl
  rw [readHeader, e1, bind_done, hn, if_neg (by omega), if_neg (Nat.not_lt.mpr hmax), e2, bind_done, hw, hpairs]

/-- Settles O28: the pairs before it read, the next pair meets its checks in their order. -/
theorem rhdrRejectsPairs : Obligations.RhdrRejectsPairs := by
  intro s n bf ps tail hf hp htotal hr hlen hmax hbf hd hps hb
  obtain ⟨t, ht, hbt, hin, hnext⟩ :=
    readHeader_behind_pairs hr (total_eq_zero.mp htotal) hlen hmax hbf hd hps hb
  have hfault : ∀ c, readPair bf t = formatError c →
      ∃ u, exec .rhdr s = .next u ∧ FaultTaken s u .formatError (causeInfo c) :=
    fun c e => exec_rhdr_formatError hf hp htotal (hnext c e)
  refine ⟨fun hfew => hfault _ (readPair_few ht (by rw [hbt]; exact hfew)), fun x f rest hfit htail => ?_⟩
  obtain ⟨u, -, e⟩ := readPair_pairBits ht hfit (hbt.trans htail)
  refine ⟨fun h0 => hfault _ (by rw [e, if_pos h0]), fun h0 hx => hfault _ ?dup⟩
  obtain ⟨p, hp', rfl⟩ := List.mem_map.mp hx
  have hheld : freqOf t.freq p.1 ≠ 0#31 := by rw [hin p hp']; exact (hps p hp').1
  rw [e, if_neg h0, if_pos hheld]

end Sys2Proof.Machine
end

section
/-! PROOFS. The faults of COMPRESS and DECOMPRESS (R130, R131, R152, R154). -/

namespace Sys2Proof.Machine

open Safety

/-! ### COMPRESS -/

/-- COMPRESS takes the fault of its tally pass (R130). -/
theorem compress_of_tallyAll_raised {s : State} {p : RaisePoint} {c : FaultCode} {i : Byte} (hf : fresh s = true)
    (hl : s.slen ≠ 0) (e : tallyAll s.src s = .raised p c i) : compress s = .raised p c i := by
  rw [compress, hf, require_true, if_neg hl, e]; rfl

/-- R130: COMPRESS raises COUNT_OVERFLOW exactly when a counter would pass 2^31 - 1. -/
theorem compress_overflows_iff {s : State} (hf : fresh s = true) (hl : s.slen ≠ 0) :
    (∃ y, 2 ^ 31 - 1 < s.src.count y) ↔ ∃ t, exec .compress s = .next t ∧ t.fault = .countOverflow := by
  obtain ⟨hok, -⟩ := fresh_iff.mp hf
  constructor
  · rintro ⟨y, hy⟩
    rcases compress_cases hf hl with ⟨x, -, e⟩ | ⟨t, -, -, hcount, -⟩
    · exact ⟨_, exec_raised (i := .compress) hok e, takeFault_fault ..⟩
    · have hlt := (freqOf t.freq y).isLt
      rw [hcount y] at hlt
      omega
  · rintro ⟨t, e, hfault⟩
    by_contra hno
    obtain ⟨u, e', hframe, -⟩ := compressResult s hf hl fun x => Nat.le_of_not_lt fun hx => hno ⟨x, hx⟩
    obtain rfl := Host.Outcome.next.inj (e.symm.trans e')
    have hfault' : t.fault = s.fault := by rw [hframe]
    rw [hfault, hok] at hfault'
    cases hfault'

/-- R130, R153: `FINFO` is the first byte whose counter is at its top when it is tallied. -/
theorem compress_first_overflow {s : State} {pre rest : List Byte} {x : Byte} (hf : fresh s = true)
    (hl : s.slen ≠ 0) (hsrc : s.src = pre ++ x :: rest) (hx : pre.count x = 2 ^ 31 - 1)
    (hpre : ∀ y, pre.count y ≤ 2 ^ 31 - 1) :
    ∃ t, exec .compress s = .next t ∧ FaultTaken s t .countOverflow x := by
  obtain ⟨hok, -, hp, -, -, -, -, -, -, hzero, -⟩ := fresh_iff.mp hf
  have htally : tallyAll (pre ++ x :: rest) s = .raised .body .countOverflow x :=
    tallyAll_overflow hp (fun y => by rw [hzero]; simpa using hpre y) (by rw [hzero]; simpa using hx)
  rw [← hsrc] at htally
  exact ⟨_, exec_raised (i := .compress) hok (compress_of_tallyAll_raised hf hl htally), faultTaken_takeFault ..⟩

/-! ### DECOMPRESS -/

/-- An operation that is done leaves `FAULT` alone (R14). -/
theorem WritesOnly.fault {i : Instr} {s t : State} (hi : i ≠ .sreset) (h : WritesOnly i s t) : t.fault = s.fault := by
  cases i with
  | wbit _ | wbyte _ | wint _ _ | flush | whdr | enc _ => obtain ⟨_, _, _, -, rfl⟩ := h; rfl
  | rbit | rbyte | rint _ | dec => obtain ⟨_, _, _, _, rfl⟩ := h; rfl
  | tally _ => obtain ⟨-, _, rfl⟩ := h; rfl
  | rhdr | build => obtain ⟨-, _, _, _, _, rfl⟩ := h; rfl
  | compress => obtain ⟨-, _, _, _, _, _, _, _, _, -, rfl⟩ := h; rfl
  | decompress => obtain ⟨-, _, _, _, _, _, _, _, _, _, _, -, rfl⟩ := h; rfl
  | sreset => exact absurd rfl hi

/-- A command that brings a fault into a session raised it (R152). -/
theorem opOf_raised_of_exec {i : Instr} {s t : State} (hi : i ≠ .sreset) (hf : s.fault = .ok) (e : exec i s = .next t)
    (ht : t.fault ≠ .ok) : ∃ p, opOf i s = .raised p t.fault t.finfo := by
  rcases exec_cases e with ⟨hs, -⟩ | ⟨-, ⟨hf', -⟩ | ⟨-, ho | ⟨p, c, info, ho, rfl⟩⟩⟩
  · exact absurd hs hi
  · exact absurd hf hf'
  · have hw := opOf_writesOnly i s
    rw [ho] at hw
    exact absurd ((hw.fault hi).trans hf) ht
  · exact ⟨p, by rw [ho, takeFault_fault, takeFault_finfo]⟩

/-- A command that leaves a session without a fault is done (R152). -/
theorem opOf_done_of_exec {i : Instr} {s t : State} (hi : i ≠ .sreset) (e : exec i s = .next t)
    (ht : t.fault = .ok) : opOf i s = .done () t := by
  rcases exec_cases e with ⟨hs, -⟩ | ⟨-, ⟨hf, rfl⟩ | ⟨-, ho | ⟨p, c, info, ho, rfl⟩⟩⟩
  · exact absurd hs hi
  · exact absurd ht hf
  · exact ho
  · have hw := opOf_writesOnly i s
    rw [ho] at hw
    exact absurd ((takeFault_fault p c info s).symm.trans ht) hw

theorem execAll_cons_eq_next {i : Instr} {is : List Instr} {s u : State} :
    execAll (i :: is) s = .next u ↔ ∃ t, exec i s = .next t ∧ execAll is t = .next u := by
  cases hx : exec i s <;> simp [execAll, hx]

/-- The first of several commands that leave a session without a fault is done, and the others follow (R151, R152). -/
theorem execAll_cons_ok {i : Instr} {is : List Instr} {s u : State} (e : execAll (i :: is) s = .next u)
    (hu : u.fault = .ok) (hi : i ≠ .sreset) (his : .sreset ∉ is) :
    ∃ t, opOf i s = .done () t ∧ t.fault = .ok ∧ execAll is t = .next u := by
  obtain ⟨t, hfirst, hrest⟩ := execAll_cons_eq_next.mp e
  have ht : t.fault = .ok := by
    by_contra hne
    rw [execAll_faulted his hne] at hrest
    cases hrest
    exact hne hu
  exact ⟨t, opOf_done_of_exec hi hfirst ht, ht, hrest⟩

/-- RHDR, BUILD and `k` DECs that complete are the first lines of DECOMPRESS, up to the sink (R131, R135). -/
theorem decompress_of_primitives {s u : State} {k : Nat} (hf : fresh s = true) (hl : s.slen ≠ 0)
    (e : execAll ([.rhdr, .build] ++ List.replicate k .dec) s = .next u) (hu : u.fault = .ok) :
    ∃ b w, decompress s = decAll (total u.freq) b ∧ decAll k b = .done () w ∧ u = { w with snk := b.snk } := by
  obtain ⟨t, hrhdr, -, e⟩ := execAll_cons_ok e hu nofun (by simp)
  obtain ⟨b, hbuild, hb, e⟩ := execAll_cons_ok e hu nofun (by simp)
  obtain ⟨-, -, hn, B, hbody, hlines⟩ := decompress_header hf hl hrhdr
  obtain rfl : buildBody t = b := by cases hbody.symm.trans hbuild; rfl
  have hrootv := B.tree.root_valid.mpr hn
  obtain ⟨w, hw, rfl⟩ := (execAll_decs k hb B.phase hrootv).mpr ⟨e, hu⟩
  have hfreq : w.freq = t.freq := by rw [decAll_decoder B.phase hrootv hw, B.freq]
  exact ⟨buildBody t, w, by rw [hlines, hfreq], hw, rfl⟩

/-- DEC raises a fault whatever the sink holds (R121). -/
theorem dec_raised_of_snk {s : State} {l : Memory} {p : RaisePoint} {c : FaultCode} {i : Byte}
    (e : dec { s with snk := l } = .raised p c i) : dec s = .raised p c i := by
  rw [dec_withSnk] at e
  cases hd : dec s with
  | done a t => rw [hd] at e; cases e
  | raised p' c' i' => rw [hd] at e; exact e
  | stopped f => rw [hd] at e; cases e

/-- R131, R152: a fault of RHDR is DECOMPRESS's. -/
theorem decompress_of_rhdr_fault {s u : State} (hf : fresh s = true) (hl : s.slen ≠ 0) (e : exec .rhdr s = .next u)
    (hu : u.fault ≠ .ok) : ∃ t, exec .decompress s = .next t ∧ FaultTaken s t u.fault u.finfo := by
  obtain ⟨hok, -⟩ := fresh_iff.mp hf
  obtain ⟨p, hraise : rhdr s = _⟩ := opOf_raised_of_exec (i := .rhdr) nofun hok e hu
  have hlines := decompress_lines hf hl
  rw [hraise] at hlines
  exact ⟨_, exec_raised (i := .decompress) hok hlines, faultTaken_takeFault ..⟩

/-- R131, R152: a fault of the next DEC, while symbols are wanted, is DECOMPRESS's. -/
theorem decompress_of_dec_fault {s u v : State} {k : Nat} (hf : fresh s = true) (hl : s.slen ≠ 0)
    (e : execAll ([.rhdr, .build] ++ List.replicate k .dec) s = .next u) (hu : u.fault = .ok)
    (hk : k < total u.freq) (hdec : exec .dec u = .next v) (hv : v.fault ≠ .ok) :
    ∃ t, exec .decompress s = .next t ∧ FaultTaken s t v.fault v.finfo := by
  obtain ⟨hok, -⟩ := fresh_iff.mp hf
  obtain ⟨b, w, hlines, hw, hsnk⟩ := decompress_of_primitives hf hl e hu
  obtain ⟨p, hraise : dec u = _⟩ := opOf_raised_of_exec (i := .dec) nofun hu hdec hv
  rw [hsnk] at hraise
  have hnext : decAll (k + 1) b = .raised .body v.fault v.finfo := by
    rw [decAll_succ, hw, bind_done, dec_raised_of_snk hraise]; rfl
  rw [decAll_raised hk hnext] at hlines
  exact ⟨_, exec_raised (i := .decompress) hok hlines, faultTaken_takeFault ..⟩

/-- Settles O45, one clause per source of a fault. -/
theorem wholeStreamFaults : Obligations.WholeStreamFaults := fun _ hf hl =>
  ⟨compress_overflows_iff hf hl, fun _ _ _ => compress_first_overflow hf hl,
    fun _ => decompress_of_rhdr_fault hf hl, fun _ _ _ => decompress_of_dec_fault hf hl⟩

end Sys2Proof.Machine
end

section
/-! PROOFS. Which tree BUILD makes (R111 to R114): the order of its merges, the trees without a merge, the weight of its
codes. -/

namespace Sys2Proof.Machine

open Safety

/-! ### The order of the merges -/

/-- The merge network from an arena without nodes pops in the order of `prio` at every merge (R110, R111). -/
theorem buildTree_order (freq : Vector Freq 256) {node : Vector Node 511}
    (hnone : ∀ i : NodeIdx, (nodeAt node i).v = false) {m : NodeIdx} (hm : isLeaf m = false)
    (hv : (nodeAt (buildTree freq node).2 m).v = true) : MergedInOrder (buildTree freq node).2 m :=
  mergeLoop_order _ (forest_leaves freq node hnone) (Nat.le_refl _) (isLeaf_eq_false.mp hm) hv

theorem buildBody_order {s : State} (hnone : ∀ i : NodeIdx, (nodeAt s.node i).v = false) {m : NodeIdx}
    (hm : isLeaf m = false) (hv : (nodeAt (buildBody s).node m).v = true) : MergedInOrder (buildBody s).node m := by
  rw [buildBody_eq] at hv ⊢
  exact buildTree_order s.freq hnone hm hv

/-- Settles O32: the two pops of a merge, read off the finished tree. -/
theorem buildPopsHighestPriority : Obligations.BuildPopsHighestPriority := fun s hf hp hnone =>
  ⟨buildBody s, exec_build hf hp, fun _ => buildBody_order hnone⟩

/-! ### The trees without a merge -/

/-- BUILD of an empty table writes `ROOTV` and `PHASE` alone (R113 (2)). -/
theorem buildBody_no_symbol {s : State} (hn : nsym s.freq = 0) :
    buildBody s = { s with rootv := false, phase := .built } := by
  rw [buildBody_eq, buildTree_empty _ _ hn]; rfl

/-- The tree of a table with one symbol has one node, the symbol's leaf (R113 (1)). -/
theorem valid_of_one_symbol {freq : Vector Freq 256} {node : Vector Node 511} {root : NodeIdx} {rootv : Bool}
    (T : TreeShape freq node root rootv) (hone : nsym freq = 1) {x : Byte} (hx : freqOf freq x ≠ 0#31) {i : NodeIdx}
    (hv : (nodeAt node i).v = true) : i = leafSlot x := by
  cases hl : isLeaf i with
  | false =>
    have hlow := (T.internal_valid i hl).mp hv
    have hhigh := isLeaf_eq_false.mp hl
    omega
  | true =>
    obtain ⟨y, rfl⟩ := isLeaf_iff.mp hl
    obtain ⟨z, hz⟩ := List.length_eq_one_iff.mp hone
    have honly : ∀ w, freqOf freq w ≠ 0#31 → w = z := fun w hw => by simpa [hz] using mem_presentSymbols.mpr hw
    rw [honly y ((T.leaf_valid y).mp hv), honly x hx]

/-- Settles O34, one clause per table without two symbols. -/
theorem buildDegenerate : Obligations.BuildDegenerate := by
  intro s hf hp hnone
  refine ⟨fun hn => ?none, fun x hone hx => ?one⟩
  case none => rw [exec_build hf hp, buildBody_no_symbol hn]
  case one =>
    have B := buildBody_builtFrom hnone
    have hsome : nsym s.freq ≠ 0 := by omega
    obtain ⟨hroot, hrv, -⟩ := B.tree.root_only hsome
    have hleaf := valid_of_one_symbol B.tree hone hx hrv
    exact ⟨buildBody s, exec_build hf hp, hleaf, B.tree.root_valid.mpr hsome, B.phase,
      hleaf ▸ (hroot _ hrv).mpr rfl, fun _ => valid_of_one_symbol B.tree hone hx⟩

/-! ### The weight of the codes -/

/-- The codes of a tree are a prefix code for its table (R69, R122 (3)). -/
theorem codeOf_prefixCode {freq : Vector Freq 256} {node : Vector Node 511} {root : NodeIdx} {rootv : Bool}
    (T : TreeShape freq node root rootv) : PrefixCode freq fun x => (codeOf node root x).getD [] := by
  have hcode : ∀ {x}, freqOf freq x ≠ 0#31 → IsCode node root x ((codeOf node root x).getD []) := fun hx => by
    obtain ⟨bs, hbs, his⟩ := codeOf_spec T hx
    rwa [hbs]
  refine ⟨fun x hx (hnil : (codeOf node root x).getD [] = []) => ?word, fun x y hx hy h => ?free⟩
  case word => exact isCode_ne_nil (hnil ▸ hcode hx)
  case free => exact (isCode_comparable (hcode hx) (hcode hy) h).1

/-- Settles O35: the merges went in order, so Huffman's argument applies (R114). -/
theorem buildIsOptimal : Obligations.BuildIsOptimal := by
  intro s hf hp hnone
  have T := (buildBody_builtFrom hnone).tree
  exact ⟨buildBody s, exec_build hf hp, codeOf_prefixCode T, codes_minimal T fun _ => buildBody_order hnone⟩

end Sys2Proof.Machine
end

section
/-! PROOFS. What ENC and DEC refuse, and DEC of a symbol's code (R120 to R122, R153, R154). -/

namespace Sys2Proof.Machine

open Safety

/-! ### ENC -/

section
variable {s : State} (x : Byte)

theorem enc_empty (hp : s.phase = .empty) : enc x s = .raised .entry .badPhase 0#8 := by
  rw [enc, hp]; rfl

theorem enc_no_tree (hp : s.phase = .built) (hr : s.rootv = false) : enc x s = .raised .entry .noTree 0#8 := by
  rw [enc, hp, hr]; rfl

theorem enc_absent (hp : s.phase = .built) (hr : s.rootv = true) (hv : (nodeAt s.node (leafSlot x)).v = false) :
    enc x s = .raised .entry .absentSymbol x := by
  rw [enc, hp, hr, hv]; rfl

end

/-- Settles O38, one clause per check, in the order of the checks. -/
theorem encRefuses : Obligations.EncRefuses := fun _ x hf =>
  ⟨fun hp => exec_raised (i := .enc x) hf (enc_empty x hp),
    fun hp hr => exec_raised (i := .enc x) hf (enc_no_tree x hp hr),
    fun hp hr hv => exec_raised (i := .enc x) hf (enc_absent x hp hr hv)⟩

/-! ### DEC of a code -/

/-- A reader that moved over the bits `bs` of one source stands `bs.length` places further on (R93). -/
theorem readerPos_of_consumed {s t : State} {bs : List Bool} (hs : ReaderOk s) (ht : ReaderOk t) (hsrc : t.src = s.src)
    (hb : bitsAhead s = bs ++ bitsAhead t) : readerPos t = readerPos s + bs.length := by
  have hlen := congrArg List.length hb
  have hins := readerPos_le hs
  have hint := readerPos_le ht
  rw [List.length_append, bitsAhead_length, bitsAhead_length] at hlen
  simp only [State.slen, hsrc] at hlen hins hint
  omega

/-- The index of a leaf is its symbol, zero extended (R22, R121). -/
theorem ofNat_leafSlot (x : Byte) : BitVec.ofNat 32 (leafSlot x).val = x.zeroExtend 32 :=
  BitVec.ofNat_toNat 32 x

/-- Settles O39: the body reads the code back, and what it consumed fixes the reader's position. -/
theorem decReturnsTheSymbol : Obligations.DecReturnsTheSymbol := by
  intro s x bs rest hf hp hr hread hcode hahead
  obtain ⟨t, e, ht, hframe, hrest⟩ := decodeSymbol_code hread hcode hahead
  have hdrop : bitsAhead t = (bitsAhead s).drop bs.length := by rw [hrest, hahead, List.drop_left]
  have hpos := readerPos_of_consumed hread ht hframe.src (hahead.trans (by rw [hrest]))
  exact ⟨_, exec_done (i := .dec) hf (dec_done hp hr e), ofNat_leafSlot x, hdrop, hpos, ⟨ht.inside, ht.held⟩,
    by rw [hframe]⟩

/-! ### What DEC refuses -/

section
variable {s : State}

theorem dec_empty (hp : s.phase = .empty) : dec s = .raised .entry .badPhase 0#8 := by
  rw [dec, hp]; rfl

theorem dec_no_tree (hp : s.phase = .built) (hr : s.rootv = false) : dec s = .raised .entry .noTree 0#8 := by
  rw [dec, hp, hr]; rfl

/-- A format error of its body is the one DEC takes (R121, R154). -/
theorem exec_dec_formatError {c : FormatCause} (hf : s.fault = .ok) (hp : s.phase = .built) (hr : s.rootv = true)
    (e : decodeSymbol s = formatError c) :
    ∃ t, exec .dec s = .next t ∧ FaultTaken s t .formatError (causeInfo c) :=
  ⟨_, exec_raised (i := .dec) hf (dec_raised hp hr e), faultTaken_takeFault ..⟩

end

/-- A walk that takes a bit takes it at an internal node (R22). -/
theorem walk_cons_eq_some {node : Vector Node 511} {i j : NodeIdx} {b : Bool} {bs : List Bool} :
    walk node i (b :: bs) = some j ↔ isLeaf i = false ∧ walk node (child node i b) bs = some j := by
  cases hl : isLeaf i <;> simp [walk, hl]

/-- A walk that ends on an internal node begins on one. -/
theorem isLeaf_eq_false_of_walk {node : Vector Node 511} {i j : NodeIdx} {bs : List Bool} (h : walk node i bs = some j)
    (hj : isLeaf j = false) : isLeaf i = false := by
  cases bs with
  | nil => rwa [Option.some.inj h]
  | cons b bs => exact (walk_cons_eq_some.mp h).1

/-- DEC's walk when the source's bits lead to an internal node: it takes them all and asks for one more (R121, R154). -/
theorem descend_truncated {n : Nat} {i j : NodeIdx} {s : State} (hr : ReaderOk s)
    (hw : walk s.node i (bitsAhead s) = some j) (hj : isLeaf j = false) (hn : (bitsAhead s).length ≤ n) :
    descend n i s = formatError .truncated := by
  have hl := isLeaf_eq_false_of_walk hw hj
  induction n generalizing i s with
  | zero =>
    have hnone : nextBit s = formatError .truncated := nextBit_none_left hr (by rw [bitsLeft_eq hr]; omega)
    simp [descend, hl, hnone, formatError]
  | succ n ih =>
    rcases nextBit_spec hr with ⟨-, hnone⟩ | ⟨b, t, hb, htake, ht, hframe, -⟩
    · simp [descend, hl, hnone, formatError]
    · rw [hb] at hw hn
      have hwt : walk t.node (child t.node i b) (bitsAhead t) = some j := by
        rw [hframe.node]; exact (walk_cons_eq_some.mp hw).2
      simp [descend, hl, htake, ih ht hwt (Nat.le_of_succ_le_succ hn) (isLeaf_eq_false_of_walk hwt hj)]

section
variable {s : State} (hr : ReaderOk s)
include hr

theorem decodeSymbol_inside_code {j : NodeIdx} (hw : walk s.node s.root (bitsAhead s) = some j)
    (hj : isLeaf j = false) : decodeSymbol s = formatError .truncated := by
  have hroot : ¬ isLeaf s.root = true := by simp [isLeaf_eq_false_of_walk hw hj]
  rw [decodeSymbol, if_neg hroot, descend_truncated hr hw hj (descend_bitsLeft hr)]

/-! In the degenerate tree DEC takes one bit (R121). -/

variable (hroot : isLeaf s.root = true)
include hroot

theorem decodeSymbol_degenerate_end (hend : bitsAhead s = []) : decodeSymbol s = formatError .truncated := by
  have hnone : nextBit s = formatError .truncated := nextBit_none_left hr (by rw [bitsLeft_eq hr, hend]; rfl)
  rw [decodeSymbol, if_pos hroot, hnone]; rfl

theorem decodeSymbol_degenerate_one (hone : (bitsAhead s).head? = some true) :
    decodeSymbol s = formatError .degenBit := by
  rcases nextBit_spec hr with ⟨hend, -⟩ | ⟨b, t, hb, htake, -⟩
  · simp [hend] at hone
  · obtain rfl : b = true := by simpa [hb] using hone
    rw [decodeSymbol, if_pos hroot, htake]; rfl

end

/-- Settles O40, one clause per refusal: two checks before a bit is read, three ends of the body. -/
theorem decRefuses : Obligations.DecRefuses := by
  intro s hf
  refine ⟨fun hp => ?phase, fun hp hr => ?tree, fun hp hr hread =>
    ⟨fun j hw hj => ?inside, fun hroot hend => ?degenEnd, fun hroot hone => ?degenOne⟩⟩
  case phase => exact exec_raised (i := .dec) hf (dec_empty hp)
  case tree => exact exec_raised (i := .dec) hf (dec_no_tree hp hr)
  case inside => exact exec_dec_formatError hf hp hr (decodeSymbol_inside_code hread hw hj)
  case degenEnd => exact exec_dec_formatError hf hp hr (decodeSymbol_degenerate_end hread hroot hend)
  case degenOne => exact exec_dec_formatError hf hp hr (decodeSymbol_degenerate_one hread hroot hone)

end Sys2Proof.Machine
end

section
/-! PROOFS. COMPRESS and DECOMPRESS where they do not run: a session that is not Fresh, an empty source (R130, R131,
R172). -/

namespace Sys2Proof.Machine

theorem compress_not_fresh {s : State} (h : fresh s = false) : compress s = .raised .entry .badPhase 2#8 := by
  rw [compress, h, require_false]

theorem decompress_not_fresh {s : State} (h : fresh s = false) : decompress s = .raised .entry .badPhase 2#8 := by
  rw [decompress, h, require_false]

theorem compress_empty_source {s : State} (h : fresh s = true) (hl : s.slen = 0) : compress s = .done () s := by
  rw [compress, h, require_true, if_pos hl]

theorem decompress_empty_source {s : State} (h : fresh s = true) (hl : s.slen = 0) : decompress s = .done () s := by
  rw [decompress, h, require_true, if_pos hl]

/-- Settles O42, each operation by its entry check and its first line. -/
theorem wholeStreamNeedsFresh : Obligations.WholeStreamNeedsFresh := by
  rintro s _ (rfl | rfl) hf
  · exact ⟨fun h => exec_raised (i := .compress) hf (compress_not_fresh h),
      fun h hl => exec_done (i := .compress) hf (compress_empty_source h hl)⟩
  · exact ⟨fun h => exec_raised (i := .decompress) hf (decompress_not_fresh h),
      fun h hl => exec_done (i := .decompress) hf (decompress_empty_source h hl)⟩

end Sys2Proof.Machine
end

section
/-! PROOFS. The container COMPRESS writes (R65, R130, R133), and that DECOMPRESS reads it back in any Fresh session
(R132, R134). -/

namespace Sys2Proof.Machine

open Safety

/-! ### One table, one payload -/

/-- The payload of an input does not depend on the arena BUILD began with, as long as it held no nodes (R115). -/
theorem payload_buildBody {s s' : State} {xs : List Byte} (hnone : ∀ i : NodeIdx, (nodeAt s.node i).v = false)
    (hnone' : ∀ i : NodeIdx, (nodeAt s'.node i).v = false) (hfreq : s.freq = s'.freq) (hn : nsym s.freq ≠ 0)
    (hxs : ∀ x ∈ xs, freqOf s.freq x ≠ 0#31) :
    payload (buildBody s).node (buildBody s).root xs = payload (buildBody s').node (buildBody s').root xs := by
  obtain ⟨r, node, hbuild, T⟩ := buildTree_spec s.freq s.node hnone hn
  obtain ⟨hroot, hnodes⟩ := agree_buildTree s.freq hnone hnone'
  rw [hbuild] at hroot hnodes
  rw [payload, payload, buildBody_eq, buildBody_eq, ← hfreq, ← hroot, hbuild]
  exact List.flatMap_congr fun x hx => congrArg (·.getD []) (agree_codeOf T hnodes (hxs x hx))

/-! ### The container -/

/-- The container bits of an input: the header of a table, and the codes of the tree BUILD makes of it in the session
`s` (R65). -/
def containerOf (s : State) (freq : Vector Freq 256) (xs : List Byte) : List Bool :=
  headerBits freq ++ payload (buildBody { s with freq := freq }).node (buildBody { s with freq := freq }).root xs

/-- COMPRESS that is done in a Fresh session with a source has counted the source, built the tree of the counts, and
left the container in the sink, padded with fewer than eight zeros (R65, R130). -/
theorem compress_container {s w : State} (hf : fresh s = true) (hl : s.slen ≠ 0) (e : compress s = .done () w) :
    ∃ pad, pad < 8 ∧ (∀ x, (freqOf w.freq x).toNat = s.src.count x) ∧
      streamBits w.snk = containerOf s w.freq s.src ++ List.replicate pad false ∧
      w = { buildBody { s with freq := w.freq } with snk := w.snk } := by
  obtain ⟨-, -, -, hbuf, hn, -, -, -, hsnk, -⟩ := fresh_iff.mp hf
  rcases compress_cases hf hl with ⟨x, -, e'⟩ | ⟨t, b, hframe, hcount, rfl, B, -, e'⟩
  · cases e.symm.trans e'
  rw [← writeBits_append] at e'
  obtain ⟨pad, snk, hpad, hbits, hflush⟩ := flushed_sink (s := buildBody t) (by rw [B.frame, hframe]; exact hsnk)
    (by rw [B.frame, hframe]; exact hbuf) (by rw [B.frame, hframe]; exact hn)
    (headerBits t.freq ++ payload (buildBody t).node (buildBody t).root s.src)
  rw [e, hflush] at e'
  obtain ⟨-, rfl⟩ := Result.done.inj e'
  have hfreq : (buildBody t).freq = t.freq := B.freq
  have ht : { s with freq := (buildBody t).freq } = t := by rw [hfreq, ← hframe]
  refine ⟨pad, hpad, by rwa [hfreq], ?_, by rw [ht]⟩
  rw [hbits, containerOf, hfreq, ← hframe]

/-- Counters that hold the occurrences of an input's symbols are nonzero on each of them. -/
theorem freqOf_ne_zero_of_counts {freq : Vector Freq 256} {xs : List Byte}
    (h : ∀ x, (freqOf freq x).toNat = xs.count x) {x : Byte} (hx : x ∈ xs) : freqOf freq x ≠ 0#31 := by
  intro hzero
  have hcount := h x
  rw [hzero] at hcount
  exact List.count_eq_zero.mp hcount.symm hx

/-- A table is fixed by its counts. -/
theorem freq_eq_of_counts {freq freq' : Vector Freq 256} {xs : List Byte}
    (h : ∀ x, (freqOf freq x).toNat = xs.count x) (h' : ∀ x, (freqOf freq' x).toNat = xs.count x) : freq = freq' :=
  freq_ext fun x => BitVec.eq_of_toNat_eq ((h x).trans (h' x).symm)

theorem src_ne_nil {s : State} (hl : s.slen ≠ 0) : s.src ≠ [] := fun hnil => hl (by rw [State.slen, hnil]; rfl)

/-- Every Fresh session makes the same container bits of an input that is not empty (R115, R133). -/
theorem containerOf_eq {s s' : State} {freq : Vector Freq 256} {xs : List Byte} (hf : fresh s = true)
    (hf' : fresh s' = true) (hxs : xs ≠ []) (hcount : ∀ x, (freqOf freq x).toNat = xs.count x) :
    containerOf s freq xs = containerOf s' freq xs := by
  obtain ⟨-, -, -, -, -, -, -, -, -, -, hnone, -⟩ := fresh_iff.mp hf
  obtain ⟨-, -, -, -, -, -, -, -, -, -, hnone', -⟩ := fresh_iff.mp hf'
  rw [containerOf, containerOf, payload_buildBody (s := { s with freq := freq }) (s' := { s' with freq := freq })
    (fun i => (hnone i).1) (fun i => (hnone' i).1) rfl (nsym_of_counts hcount hxs)
    fun x hx => freqOf_ne_zero_of_counts hcount hx]

/-- Bytes that are the same bits but for fewer than eight padding zeros are the same bytes (R83). -/
theorem bytes_of_padded_bits {m m' : Memory} {bs : List Bool} {pad pad' : Nat} (hpad : pad < 8) (hpad' : pad' < 8)
    (h : streamBits m = bs ++ List.replicate pad false) (h' : streamBits m' = bs ++ List.replicate pad' false) :
    m = m' := by
  have hlen := congrArg List.length h
  have hlen' := congrArg List.length h'
  simp only [streamBits_length, List.length_append, List.length_replicate] at hlen hlen'
  obtain rfl : pad = pad' := by omega
  exact streamBits_injective (h.trans h'.symm)

/-! ### Determinism -/

/-- COMPRESS of a source in which no counter overflows completes without a fault (R130). -/
theorem exec_compress_ok {s : State} (hf : fresh s = true) (hmax : ∀ x, s.src.count x ≤ 2 ^ 31 - 1) :
    ∃ t, exec .compress s = .next t ∧ t.fault = .ok ∧ compress s = .done () t := by
  obtain ⟨hok, -⟩ := fresh_iff.mp hf
  by_cases hl : s.slen = 0
  · have e := compress_empty_source hf hl
    exact ⟨s, exec_done (i := .compress) hok e, hok, e⟩
  · obtain ⟨t, e, hframe, -⟩ := compressResult s hf hl hmax
    have ht : t.fault = .ok := by rw [hframe]; exact hok
    exact ⟨t, e, ht, opOf_done_of_exec (i := .compress) nofun e ht⟩

/-- The source alone decides whether COMPRESS in a Fresh session faults (R130, R133). -/
theorem exec_compress_fault {s t : State} (hf : fresh s = true) (e : exec .compress s = .next t) :
    t.fault = if ∀ x, s.src.count x ≤ 2 ^ 31 - 1 then .ok else .countOverflow := by
  split_ifs with hmax
  · obtain ⟨u, e', hu, -⟩ := exec_compress_ok hf hmax
    obtain rfl := Host.Outcome.next.inj (e.symm.trans e')
    exact hu
  · have hl : s.slen ≠ 0 := fun hzero => hmax fun x => by
      rw [List.length_eq_zero_iff.mp hzero]
      exact Nat.zero_le _
    simp only [not_forall, Nat.not_le] at hmax
    obtain ⟨u, e', hu⟩ := (compress_overflows_iff hf hl).mp hmax
    obtain rfl := Host.Outcome.next.inj (e.symm.trans e')
    exact hu

/-- COMPRESS of one source in two Fresh sessions leaves the same sink (R133). -/
theorem compress_snk_eq {s s' t t' : State} (hf : fresh s = true) (hf' : fresh s' = true) (hsrc : s.src = s'.src)
    (e : compress s = .done () t) (e' : compress s' = .done () t') : t.snk = t'.snk := by
  by_cases hl : s.slen = 0
  · have hl' : s'.slen = 0 := by rwa [State.slen, ← hsrc]
    obtain ⟨-, rfl⟩ := Result.done.inj (e.symm.trans (compress_empty_source hf hl))
    obtain ⟨-, rfl⟩ := Result.done.inj (e'.symm.trans (compress_empty_source hf' hl'))
    obtain ⟨-, -, -, -, -, -, -, -, hsnk, -⟩ := fresh_iff.mp hf
    obtain ⟨-, -, -, -, -, -, -, -, hsnk', -⟩ := fresh_iff.mp hf'
    exact hsnk.trans hsnk'.symm
  · obtain ⟨pad, hpad, hcount, hbits, -⟩ := compress_container hf hl e
    obtain ⟨pad', hpad', hcount', hbits', -⟩ := compress_container hf' (by rwa [State.slen, ← hsrc]) e'
    have hfreq : t'.freq = t.freq := freq_eq_of_counts (by rwa [hsrc]) hcount
    rw [hfreq, ← hsrc, ← containerOf_eq hf hf' (src_ne_nil hl) hcount] at hbits'
    exact bytes_of_padded_bits hpad hpad' hbits hbits'

/-- The container of a source that is not empty holds a count, a width and one pair at least (R65, R133). -/
theorem container_min_length {s t : State} (hf : fresh s = true) (hl : s.slen ≠ 0) (e : compress s = .done () t) :
    23 ≤ 8 * t.olen := by
  obtain ⟨pad, -, hcount, hbits, -⟩ := compress_container hf hl e
  have hn := nsym_of_counts hcount (src_ne_nil hl)
  have hlen := congrArg List.length hbits
  have hpairs := Nat.mul_le_mul (Nat.one_le_iff_ne_zero.mpr hn)
    (Nat.add_le_add_left (bitlen_pos (maxf_ne_zero hn)) 8)
  rw [containerOf, streamBits_length, List.length_append, List.length_append, headerBits_length hn] at hlen
  rw [State.olen]
  omega

/-- Settles O47: the counts decide on the fault, the padded container bits are the same, and nothing happens on an empty
source. -/
theorem compressIsDeterministic : Obligations.CompressIsDeterministic := by
  intro s s' t t' hf hf' hsrc e e'
  obtain ⟨hok, -, -, -, -, -, -, -, hsnk, -⟩ := fresh_iff.mp hf
  have hfault : t.fault = t'.fault := by rw [exec_compress_fault hf e, exec_compress_fault hf' e', hsrc]
  refine ⟨hfault, fun ht => ?done, fun hnil => ?empty⟩
  case done =>
    have hdone : compress s = .done () t := opOf_done_of_exec (i := .compress) nofun e ht
    have hdone' : compress s' = .done () t' := opOf_done_of_exec (i := .compress) nofun e' (hfault.symm.trans ht)
    exact ⟨compress_snk_eq hf hf' hsrc hdone hdone',
      fun hne => container_min_length hf (fun hl => hne (List.length_eq_zero_iff.mp hl)) hdone⟩
  case empty =>
    have hl : s.slen = 0 := List.length_eq_zero_iff.mpr hnil
    obtain rfl := Host.Outcome.next.inj (e.symm.trans (exec_done (i := .compress) hok (compress_empty_source hf hl)))
    exact ⟨hsnk, exec_done (i := .decompress) hok (decompress_empty_source hf hl), hsnk⟩

/-! ### The container read back -/

theorem BuiltFrom.fault {s t : State} (h : BuiltFrom s t) : t.fault = s.fault := by rw [h.frame]

/-- Every Fresh session over a container runs DECOMPRESS without a fault, to the compressor's table and source (R131,
R132). -/
theorem exec_decompress_container {s t s' : State} (hf : fresh s = true) (hl : s.slen ≠ 0)
    (e : compress s = .done () t) (hf' : fresh s' = true) (hsrc : s'.src = t.snk) :
    ∃ u, exec .decompress s' = .next u ∧ u.fault = .ok ∧ u.freq = t.freq ∧ u.snk = s.src := by
  obtain ⟨hok, -, hp, -, -, -, -, -, -, -, hnone, -⟩ := fresh_iff.mp hf'
  obtain ⟨pad, -, hcount, hbits, -⟩ := compress_container hf hl e
  rw [containerOf_eq hf hf' (src_ne_nil hl) hcount, ← hsrc] at hbits
  obtain ⟨u, hrun, hframe, -⟩ := decompressResult s' _ t.freq s.src _ hf' (nsym_of_counts hcount (src_ne_nil hl))
    (exec_build (s := { s' with freq := t.freq }) hok hp) (total_of_counts hcount).symm
    (fun x hx => freqOf_ne_zero_of_counts hcount hx) hbits
  have B := buildBody_builtFrom (s := { s' with freq := t.freq }) fun i => (hnone i).1
  exact ⟨u, hrun, (congrArg State.fault hframe).trans (B.fault.trans hok),
    (congrArg State.freq hframe).trans B.freq, congrArg State.snk hframe⟩

/-! ### Round trip -/

/-- The tree COMPRESS leaves has the shape of R25. -/
theorem compress_treeShape {s t : State} (hf : fresh s = true) (hl : s.slen ≠ 0) (e : compress s = .done () t) :
    TreeShape t.freq t.node t.root t.rootv := by
  obtain ⟨-, -, -, -, -, -, -, -, -, -, hnone, -⟩ := fresh_iff.mp hf
  obtain ⟨-, -, -, -, hframe⟩ := compress_container hf hl e
  have B := buildBody_builtFrom (s := { s with freq := t.freq }) fun i => (hnone i).1
  rw [hframe]
  exact B.shape

/-- A table that counts copies of one byte holds one symbol (R113 (1)). -/
theorem nsym_of_copies {freq : Vector Freq 256} {n : Nat} {x : Byte}
    (h : ∀ y, (freqOf freq y).toNat = (List.replicate (n + 1) x).count y) : nsym freq = 1 := by
  refine nsym_of_pairs (ps := [(x, freqOf freq x)]) (by simp) ?nonzero (by simp) fun y hy => ?absent
  case nonzero =>
    simpa using freqOf_ne_zero_of_counts h (List.mem_replicate.mpr ⟨by omega, rfl⟩)
  case absent =>
    refine BitVec.eq_of_toNat_eq ((h y).trans (List.count_eq_zero.mpr fun hmem => hy ?_))
    rw [List.eq_of_mem_replicate hmem]
    exact List.mem_singleton_self x

/-- The tree of one symbol is that symbol's leaf, which is the root (R113 (1)). -/
theorem tree_of_one_symbol {freq : Vector Freq 256} {node : Vector Node 511} {root : NodeIdx} {rootv : Bool}
    (T : TreeShape freq node root rootv) (hone : nsym freq = 1) {x : Byte} (hx : freqOf freq x ≠ 0#31) :
    root = leafSlot x ∧ rootv = true ∧ ∀ i : NodeIdx, (nodeAt node i).v = true ↔ i = leafSlot x := by
  have hsome : nsym freq ≠ 0 := by omega
  obtain ⟨-, hroot, -⟩ := T.root_only hsome
  refine ⟨valid_of_one_symbol T hone hx hroot, T.root_valid.mpr hsome, fun i => ⟨valid_of_one_symbol T hone hx, ?_⟩⟩
  rintro rfl
  exact (T.leaf_valid x).mpr hx

/-- Settles O46: the empty source passes through both operations untouched; any other comes back out of its
container. -/
theorem roundTrip : Obligations.RoundTrip := by
  intro s hf hmax
  obtain ⟨t, e, ht, hdone⟩ := exec_compress_ok hf hmax
  refine ⟨t, e, ht, fun s' hf' hsrc => ?back, fun n x hcopies => ?oneLeaf⟩
  case back =>
    obtain ⟨hok', -, -, -, -, -, -, -, hsnk', -⟩ := fresh_iff.mp hf'
    by_cases hl : s.slen = 0
    · obtain ⟨-, -, -, -, -, -, -, -, hsnk, -⟩ := fresh_iff.mp hf
      obtain ⟨-, rfl⟩ := Result.done.inj (hdone.symm.trans (compress_empty_source hf hl))
      have hl' : s'.slen = 0 := by rw [State.slen, hsrc, hsnk]; rfl
      exact ⟨s', exec_done (i := .decompress) hok' (decompress_empty_source hf' hl'), hok',
        hsnk'.trans (List.length_eq_zero_iff.mp hl).symm⟩
    · obtain ⟨u, e', hu, -, hback⟩ := exec_decompress_container hf hl hdone hf' hsrc
      exact ⟨u, e', hu, hback⟩
  case oneLeaf =>
    have hl : s.slen ≠ 0 := by rw [State.slen, hcopies, List.length_replicate]; omega
    obtain ⟨-, -, hcount, -⟩ := compress_container hf hl hdone
    rw [hcopies] at hcount
    exact tree_of_one_symbol (compress_treeShape hf hl hdone) (nsym_of_copies hcount)
      (freqOf_ne_zero_of_counts hcount (List.mem_replicate.mpr ⟨by omega, rfl⟩))

/-- Settles O48: the table read back is the compressor's, which counts the source that comes back. -/
theorem headerSelfConsistency : Obligations.HeaderSelfConsistency := by
  intro s s' t u hf hf' hl e ht hsrc e'
  have hdone : compress s = .done () t := opOf_done_of_exec (i := .compress) nofun e ht
  obtain ⟨-, -, hcount, -⟩ := compress_container hf hl hdone
  obtain ⟨w, hrun, hw, hfreq, hback⟩ := exec_decompress_container hf hl hdone hf' hsrc
  obtain rfl := Host.Outcome.next.inj (e'.symm.trans hrun)
  have htotal : total u.freq = s.slen := by rw [hfreq]; exact total_of_counts hcount
  exact ⟨hw, hfreq, htotal, by rw [htotal, State.olen, hback]⟩

end Sys2Proof.Machine
end

section
/-! PROOFS. COMPRESS and DECOMPRESS line by line (R130, R131): the primitives issued one after another are the same
lines (R135, R175). -/

namespace Sys2Proof.Machine

open Safety

/-! ### Commands one after another -/

theorem opOf_fault {i : Instr} {s t : State} (hi : i ≠ .sreset) (h : opOf i s = .done () t) : t.fault = s.fault := by
  have hw := opOf_writesOnly i s
  rw [h] at hw
  exact hw.fault hi

/-- An operation that is done leaves the session to the commands after it (R9). -/
theorem execAll_cons_done {i : Instr} {s t : State} (hf : s.fault = .ok) (h : opOf i s = .done () t)
    (is : List Instr) : execAll (i :: is) s = execAll is t := by
  rw [execAll, exec_done hf h]

theorem execAll_append_next {is : List Instr} {s t : State} (h : execAll is s = .next t) (js : List Instr) :
    execAll (is ++ js) s = execAll js t := by
  rw [execAll_append, h]

/-! ### COMPRESS -/

/-- ENCs issued one after another are COMPRESS's encode pass, as long as it completes (R130, R135). -/
theorem execAll_encs (xs : List Byte) {s t : State} (hf : s.fault = .ok) (h : encAll xs s = .done () t) :
    execAll (xs.map .enc) s = .next t ∧ t.fault = .ok := by
  induction xs generalizing s with
  | nil =>
    obtain ⟨-, rfl⟩ := Result.done.inj h
    exact ⟨rfl, hf⟩
  | cons x xs ih =>
    rw [encAll, bind_eq_done] at h
    obtain ⟨_, u, hx, hxs⟩ := h
    rw [inner_eq_done] at hx
    rw [List.map_cons, execAll_cons_done (i := .enc x) hf hx]
    exact ih ((opOf_fault (i := .enc x) nofun hx).trans hf) hxs

/-- COMPRESS that is done in a Fresh session with a source has done its lines, one after the other (R130). -/
theorem compress_lines {s w : State} (hf : fresh s = true) (hl : s.slen ≠ 0) (e : compress s = .done () w) :
    ∃ t u v x, tallyAll s.src s = .done () t ∧ build t = .done () u ∧ whdr u = .done () v ∧
      encAll v.src v = .done () x ∧ flush x = .done () w := by
  rw [compress, hf, require_true, if_neg hl] at e
  simp only [bind_eq_done, inner_eq_done] at e
  obtain ⟨_, t, htally, _, u, hbuild, _, v, hwhdr, _, x, henc, hflush⟩ := e
  exact ⟨t, u, v, x, htally, hbuild, hwhdr, henc, hflush⟩

/-- Settles O49: each line of COMPRESS is the command of that name, and the passes are its repetitions. -/
theorem compressEqualsPrimitives : Obligations.CompressEqualsPrimitives := by
  intro s hf hl hmax
  obtain ⟨hok, -, hp, -, -, -, -, -, -, hzero, -⟩ := fresh_iff.mp hf
  obtain ⟨w, e, -, hdone⟩ := exec_compress_ok hf hmax
  obtain ⟨t, u, v, x, htally, hbuild, hwhdr, henc, hflush⟩ := compress_lines hf hl hdone
  obtain ⟨t', htally', hframe, -⟩ := tallyAll_spec s.src hp fun x => by rw [hzero]; simpa using hmax x
  obtain ⟨-, rfl⟩ := Result.done.inj (htally.symm.trans htally')
  have ht : t.fault = .ok := by rw [hframe]; exact hok
  have hu : u.fault = .ok := (opOf_fault (i := .build) nofun hbuild).trans ht
  have hv : v.fault = .ok := (opOf_fault (i := .whdr) nofun hwhdr).trans hu
  have hsrc : v.src = s.src := calc
    v.src = u.src := (exec_host (exec_done (i := .whdr) hu hwhdr)).1
    _ = t.src := (exec_host (exec_done (i := .build) ht hbuild)).1
    _ = s.src := by rw [hframe]
  rw [hsrc] at henc
  obtain ⟨hencs, hx⟩ := execAll_encs s.src hv henc
  have htree : execAll [.build, .whdr] t = .next v := by
    rw [execAll_cons_done (i := .build) ht hbuild, execAll_cons_done (i := .whdr) hu hwhdr, execAll]
  rw [e, compressByPrimitives, List.append_assoc, List.append_assoc,
    execAll_append_next (execAll_tallies s.src hok htally), execAll_append_next htree, execAll_append_next hencs,
    execAll_cons_done (i := .flush) hx hflush, execAll]

/-! ### DECOMPRESS -/

/-- A decode pass that is done has put one byte in the sink for each symbol, and in its last step the byte of `RES`
(R131 step 5). -/
theorem decAll_last {n : Nat} {s t : State} (h : ReaderOk s) (hp : s.phase = .built) (hr : s.rootv = true)
    (e : decAll (n + 1) s = .done () t) :
    ∃ l x, t.snk = s.snk ++ l ++ [x] ∧ l.length = n ∧ t.res = x.zeroExtend 32 := by
  rw [decAll_succ, bind_eq_done] at e
  obtain ⟨_, u, hu, e⟩ := e
  have hframe := decAll_decoder hp hr hu
  have hpu : u.phase = .built := by rw [hframe]; exact hp
  have hru : u.rootv = true := by rw [hframe]; exact hr
  rcases decAll_cases n h hp hr with ⟨c, -, hbad⟩ | ⟨u', l, hu', hread, -, hsnk, hlen⟩
  · cases hu.symm.trans hbad
  obtain ⟨-, rfl⟩ := Result.done.inj (hu.symm.trans hu')
  rcases decodeSymbol_cases hread with ⟨c, -, hbad⟩ | ⟨x, v, hx, -, hv, -⟩
  · rw [dec_raised hpu hru hbad] at e
    cases e
  rw [dec_done hpu hru hx, inner_done, bind_done] at e
  obtain ⟨-, rfl⟩ := Result.done.inj e
  refine ⟨l, x, ?_, hlen, ofNat_leafSlot x⟩
  have hvsnk : v.snk = u.snk := by rw [hv]
  rw [snkPut_snk, resByte, ← hsnk, ← hvsnk]

/-- A decode pass that is done was done after any of its symbols, with the first of its bytes in the sink (R131). -/
theorem decAll_first {k n : Nat} {s t : State} (hkn : k ≤ n) (hp : s.phase = .built) (hr : s.rootv = true)
    (e : decAll n s = .done () t) : ∃ u, decAll k s = .done () u ∧ u.snk <+: t.snk := by
  induction n, hkn using Nat.le_induction generalizing t with
  | base => exact ⟨t, e, List.prefix_rfl⟩
  | succ n _ ih =>
    rw [decAll_succ, bind_eq_done] at e
    obtain ⟨_, v, hv, e⟩ := e
    obtain ⟨u, hu, hpre⟩ := ih hv
    have hframe := decAll_decoder hp hr hv
    have hone : decAll 1 v = .done () t := e
    have hlast := decAll_ends 1 (s := v) (by rw [hframe]; exact hp) (by rw [hframe]; exact hr)
    rw [hone] at hlast
    exact ⟨u, hu, hpre.trans hlast.2⟩

/-- Whatever byte of a decode pass stands at `k` was in `RES` after symbol `k` (R131 step 5). -/
theorem decAll_res {k n : Nat} {s t : State} {b : Byte} (h : ReaderOk s) (hp : s.phase = .built)
    (hr : s.rootv = true) (hsnk : s.snk = []) (e : decAll n s = .done () t) (hlen : t.olen = n)
    (hb : t.snk[k]? = some b) : ∃ u, decAll (k + 1) s = .done () u ∧ u.res = b.zeroExtend 32 := by
  have hk : k + 1 ≤ n := by
    obtain ⟨hlt, -⟩ := List.getElem?_eq_some_iff.mp hb
    rw [← hlen]
    exact hlt
  obtain ⟨u, hu, hpre⟩ := decAll_first hk hp hr e
  obtain ⟨l, x, hbytes, hl, hres⟩ := decAll_last h hp hr hu
  obtain ⟨rest, hrest⟩ := hpre
  rw [← hrest, hbytes, hsnk, List.nil_append, List.append_assoc, ← hl] at hb
  obtain rfl : x = b := by simpa using hb
  exact ⟨u, hu, hres⟩

/-- RHDR and BUILD issued one after another are the first lines of DECOMPRESS, and DECs its decode pass up to the sink
(R131, R135). -/
theorem execAll_rhdr_build_decs {s t w : State} {k : Nat} (hf : fresh s = true) (hrhdr : rhdr s = .done () t)
    (B : BuiltFrom t (buildBody t)) (hp : t.phase = .empty) (hn : nsym t.freq ≠ 0)
    (hw : decAll k (buildBody t) = .done () w) :
    execAll ([.rhdr, .build] ++ List.replicate k .dec) s = .next { w with snk := t.snk } ∧ w.fault = .ok := by
  obtain ⟨hok, -⟩ := fresh_iff.mp hf
  have ht : t.fault = .ok := (opOf_fault (i := .rhdr) nofun hrhdr).trans hok
  have hdecs := (execAll_decs k (B.fault.trans ht) B.phase (B.tree.root_valid.mpr hn)).mp ⟨w, hw, rfl⟩
  rw [B.snk] at hdecs
  have htree : execAll [.rhdr, .build] s = .next (buildBody t) := by
    rw [execAll_cons_done (i := .rhdr) hok hrhdr, execAll_cons_done (i := .build) ht (build_empty hp), execAll]
  rw [execAll_append_next htree]
  exact hdecs

/-- Settles O50: DECOMPRESS is RHDR, BUILD and its decode pass, whose DECs the primitives repeat. -/
theorem decompressEqualsPrimitives : Obligations.DecompressEqualsPrimitives := by
  intro s t hf hl e ht
  obtain ⟨-, -, hp, -, -, -, -, -, hsnk, -⟩ := fresh_iff.mp hf
  have hdone : decompress s = .done () t := opOf_done_of_exec (i := .decompress) nofun e ht
  rcases decompress_cases hf hl with ⟨c, -, hbad⟩ |
    ⟨u, _, w, hrhdr, htable, hread, hn, rfl, B, hdec, -, hframe, hlen, hw⟩
  · cases hdone.symm.trans hbad
  obtain ⟨-, rfl⟩ := Result.done.inj (hdone.symm.trans hw)
  have hpu : u.phase = .empty := by rw [htable]; exact hp
  have husnk : u.snk = [] := by rw [htable]; exact hsnk
  have hfreq : t.freq = u.freq := by rw [hframe]; exact B.freq
  obtain ⟨hall, -⟩ := execAll_rhdr_build_decs hf hrhdr B hpu hn hdec
  rw [husnk, ← hfreq] at hall
  refine ⟨⟨_, hall, rfl, by rw [hlen, hfreq]⟩, fun k b hb => ?_⟩
  obtain ⟨v, hv, hres⟩ :=
    decAll_res (B.readerOk hread) B.phase (B.tree.root_valid.mpr hn) (B.snk.trans husnk) hdec hlen hb
  obtain ⟨hrun, hvok⟩ := execAll_rhdr_build_decs hf hrhdr B hpu hn hv
  exact ⟨_, hrun, hvok, hres⟩

end Sys2Proof.Machine
end

section
/-! PROOFS. Faults (R150 to R158): a faulted session refuses every operation but SRESET, an operation raises only the
faults R155 lists for it, and which of them are precise. -/

namespace Sys2Proof.Machine

open Safety

variable {α : Type} {R : RaisePoint → FaultCode → Byte → Prop}
variable {i : Instr} {p : RaisePoint} {c : FaultCode} {info : Byte}

/-- Settles O9: `command` looks at `FAULT` before it runs the operation. -/
theorem faultedSessionRefuses : Obligations.FaultedSessionRefuses := fun _ _ hf hi => exec_faulted hi hf

/-! ### What a part of an operation raises -/

/-- A part of an operation raises only faults with `R`. -/
def Raises (R : RaisePoint → FaultCode → Byte → Prop) : Result α → Prop
  | .raised p c info => R p c info
  | .done _ _ | .stopped _ => True

theorem Raises.require {b : Bool} {k : Result α} (hc : R .entry c info) (hk : Raises R k) :
    Raises R (require b c info k) := by
  cases b with
  | true => exact hk
  | false => exact hc

/-- A reading body raises FORMAT_ERRORs in the body, with the sub-causes it ends in. -/
theorem Ends.raises {C : FormatCause → Prop} {P : State → Prop} {r : Result α} (h : Ends C P r)
    (hR : ∀ k, C k → R .body .formatError (causeInfo k)) : Raises R r := by
  cases r with
  | raised p c info =>
    obtain ⟨rfl, rfl, k, hk, rfl⟩ := h
    exact hR k hk
  | done _ _ | stopped _ => trivial

/-- Writing a result to `RES` raises nothing more (R16). -/
theorem Ends.raises_setRes {C : FormatCause → Prop} {P : State → Prop} {r : Result α} (h : Ends C P r)
    (f : α → Word32) (hR : ∀ k, C k → R .body .formatError (causeInfo k)) :
    Raises R (r.bind fun a t => setRes (f a) t) :=
  Ends.raises (h.bind (Q := fun _ => True) fun _ _ _ => trivial) hR

/-! ### The fault table -/

/-- What R151, R155 and R157 say of a fault that operation `i` raises at `p`. -/
structure TableFault (i : Instr) (p : RaisePoint) (c : FaultCode) (info : Byte) : Prop where
  /-- R155: the table lists the fault for the operation. -/
  listed : mayRaise i c info = true
  /-- R157: only a FORMAT_ERROR, and COMPRESS's COUNT_OVERFLOW, comes from inside a body. -/
  precise : c ≠ .formatError → ¬ (i = .compress ∧ c = .countOverflow) → p = .entry

theorem tableFault_entry (h : mayRaise i c info = true) : TableFault i .entry c info := ⟨h, fun _ _ => rfl⟩

theorem tableFault_formatError (h : mayRaise i .formatError info = true) : TableFault i p .formatError info :=
  ⟨h, fun hne => absurd rfl hne⟩

/-- TRUNCATED is all that the read of a field raises (R90 to R92). -/
theorem read_raises (h : mayRaise i .formatError (causeInfo .truncated) = true) (n : Nat) (s : State) :
    Raises (TableFault i) ((readField n s).bind fun v t => setRes (BitVec.ofNat 32 v) t) := by
  refine (readField_ends n s).raises_setRes _ ?_
  rintro _ rfl
  exact tableFault_formatError h

theorem rhdr_raises (s : State) : Raises (TableFault .rhdr) (rhdr s) := by
  refine .require (tableFault_entry rfl) (.require (tableFault_entry rfl) ((readHeader_ends s).raises ?_))
  rintro _ (rfl | rfl | rfl | rfl | rfl) <;> exact tableFault_formatError rfl

theorem enc_raises (x : Byte) (s : State) : Raises (TableFault (.enc x)) (enc x s) := by
  refine .require (tableFault_entry rfl) (.require (tableFault_entry rfl) (.require (tableFault_entry ?_) ?_))
  · simp [mayRaise]
  · cases codeOf s.node s.root x <;> trivial

theorem dec_raises (s : State) : Raises (TableFault .dec) (dec s) := by
  refine .require (tableFault_entry rfl) (.require (tableFault_entry rfl) ((decodeSymbol_ends s).raises_setRes _ ?_))
  rintro _ (rfl | rfl) <;> exact tableFault_formatError rfl

theorem compress_raises (s : State) : Raises (TableFault .compress) (compress s) := by
  cases hf : fresh s with
  | false => rw [compress_not_fresh hf]; exact tableFault_entry rfl
  | true =>
    by_cases hl : s.slen = 0
    · rw [compress_empty_source hf hl]; trivial
    · rcases compress_cases hf hl with ⟨x, -, e⟩ | ⟨_, _, -, -, -, -, -, e⟩
      · rw [e]; exact ⟨rfl, fun _ hne => absurd ⟨rfl, rfl⟩ hne⟩
      · rw [e]; trivial

theorem decompress_raises (s : State) : Raises (TableFault .decompress) (decompress s) := by
  cases hf : fresh s with
  | false => rw [decompress_not_fresh hf]; exact tableFault_entry rfl
  | true =>
    by_cases hl : s.slen = 0
    · rw [decompress_empty_source hf hl]; trivial
    · rcases decompress_cases hf hl with ⟨k, hk, e⟩ | ⟨_, _, _, -, -, -, -, -, -, -, -, -, -, e⟩
      · rw [e]
        rcases hk with (rfl | rfl | rfl | rfl | rfl) | rfl <;> exact tableFault_formatError rfl
      · rw [e]; trivial

/-- From any state an operation raises only what R155 lists for it, and where R157 says. -/
theorem opOf_raises (i : Instr) (s : State) : Raises (TableFault i) (opOf i s) := by
  cases i with
  | wbit _ | wbyte _ | flush | sreset => trivial
  | wint v w => exact .require (tableFault_entry rfl) trivial
  | rbit => rw [opOf_reader (i := .rbit) rfl]; exact read_raises rfl 1 s
  | rbyte => exact read_raises rfl 8 s
  | rint w => exact .require (tableFault_entry rfl) (read_raises rfl w.toNat s)
  | tally x => exact .require (tableFault_entry rfl) (.require (tableFault_entry (by simp [mayRaise])) trivial)
  | whdr | build => exact .require (tableFault_entry rfl) trivial
  | rhdr => exact rhdr_raises s
  | enc x => exact enc_raises x s
  | dec => exact dec_raises s
  | compress => exact compress_raises s
  | decompress => exact decompress_raises s

/-- A fault that a command brings into a session is one of the table's, and it was taken where it was raised (R152). -/
theorem tableFault_of_exec {s t : State} (hf : s.fault = .ok) (e : exec i s = .next t) (ht : t.fault ≠ .ok) :
    ∃ p, TableFault i p t.fault t.finfo ∧ t = takeFault p t.fault t.finfo s := by
  have hi : i ≠ .sreset := by
    rintro rfl
    obtain rfl := Host.Outcome.next.inj ((exec_sreset s).symm.trans e)
    exact ht rfl
  obtain ⟨p, ho⟩ := opOf_raised_of_exec hi hf e ht
  have hraises := opOf_raises i s
  rw [ho] at hraises
  exact ⟨p, hraises, Host.Outcome.next.inj (e.symm.trans (exec_raised hf ho))⟩

/-- Settles O56: the table lists what the command raised. -/
theorem raisesOnlyListedFaults : Obligations.RaisesOnlyListedFaults := by
  intro s t i hf e ht
  obtain ⟨p, hfault, -⟩ := tableFault_of_exec hf e ht
  exact hfault.listed

/-- Settles O57: a fault that is neither of the two was raised at an entry check, and taking it writes `FAULT` and
`FINFO` alone. -/
theorem preciseFaultsChangeNothingElse : Obligations.PreciseFaultsChangeNothingElse := by
  intro s t i hf e ht hformat hoverflow
  obtain ⟨p, hfault, htaken⟩ := tableFault_of_exec hf e ht
  obtain rfl := hfault.precise hformat hoverflow
  exact htaken

end Sys2Proof.Machine
end

section
/-! PROOFS. Several instances side by side (R165). -/

namespace Sys2Proof.Machine

/-- The one thing a step does to the vector of instances: the next state of the one that steps takes its place. -/
theorem stepInstance_eq_next {n : Nat} {ms ns : Vector State n} {i : Fin n} :
    stepInstance ms i = .next ns ↔ ∃ t, step ms[i.val] = .next t ∧ ms.set i.val t = ns := by
  cases hstep : step ms[i.val] <;> simp [stepInstance, hstep]

/-- Settles O60: a vector with one entry set holds that entry and the others as they were. -/
theorem instancesShareNothing : Obligations.InstancesShareNothing := by
  intro n ms ns i e
  obtain ⟨t, hstep, rfl⟩ := stepInstance_eq_next.mp e
  refine ⟨by rw [hstep, Vector.getElem_set_self], fun j hj => ?_⟩
  exact Vector.getElem_set_ne i.isLt j.isLt fun h => hj (Fin.ext h.symm)

end Sys2Proof.Machine
end
